-- ==== Sys2Proof/Word.lean ====
section
/-! DEFINITION. The two word sizes of the LR35902: `u8` and `u16` of 00_scope.md R11. -/

namespace Sys2Proof

/-- `u8`: an 8-bit value, bits 7..0 (R10, R11). -/
abbrev Byte := BitVec 8

/-- `u16`: a 16-bit value, bits 15..0 (R10, R11). -/
abbrev Word := BitVec 16

end Sys2Proof
end

