-- ==== Sys2Proof/Syntax.lean ====
section
/-! DEFINITION. The instructions of the LR35902, one constructor per instruction rule of 41_load_store.md to 46_system.md,
which together stand for the 512 rows of spec/opcode_table.json. -/

namespace Sys2Proof

/-- The seven 8-bit general registers (R100); table `r8` of R304 without its `[HL]` entry. -/
inductive Reg8 where
  | b
  | c
  | d
  | e
  | h
  | l
  | a
  deriving DecidableEq, Repr

/-- The 16-bit operands of table `rp` (R305). -/
inductive Rp where
  | bc
  | de
  | hl
  | sp
  deriving DecidableEq, Repr

/-- The pairs PUSH takes: table `rp2` (R305). -/
inductive Rp2 where
  | bc
  | de
  | hl
  | af
  deriving DecidableEq, Repr

/-- The pairs of R532: table `rp2` without AF, which is an instruction of its own (R531). -/
inductive Pair where
  | bc
  | de
  | hl
  deriving DecidableEq, Repr

/-- Table `cc` (R306). -/
inductive Cond where
  | nz
  | z
  | nc
  | c
  deriving DecidableEq, Repr

/-- An instruction with its operands. Operand classes as in R16: `n8`, `a8`, `e8` are bytes, `n16`, `a16` words,
`u3` and the restart field `y` are three bits. -/
inductive Instr where
  -- 41_load_store.md
  | ldRR (dst r : Reg8)           -- R500 ld r, r'
  | ldRN (dst : Reg8) (n : Byte)  -- R501 ld r, n8
  | ldRHl (dst : Reg8)            -- R502 ld r, [HL]
  | ldHlR (r : Reg8)              -- R503 ld [HL], r
  | ldHlN (n : Byte)              -- R504 ld [HL], n8
  | ldABc                         -- R505 ld A, [BC]
  | ldADe                         -- R506 ld A, [DE]
  | ldBcA                         -- R507 ld [BC], A
  | ldDeA                         -- R508 ld [DE], A
  | ldAA16 (addr : Word)          -- R509 ld A, [a16]
  | ldA16A (addr : Word)          -- R510 ld [a16], A
  | ldhAA8 (n : Byte)             -- R511 ldh A, [a8]
  | ldhA8A (n : Byte)             -- R512 ldh [a8], A
  | ldhAC                         -- R513 ldh A, [C]
  | ldhCA                         -- R514 ldh [C], A
  | ldAHli                        -- R515 ld A, [HL+]
  | ldAHld                        -- R516 ld A, [HL-]
  | ldHliA                        -- R517 ld [HL+], A
  | ldHldA                        -- R518 ld [HL-], A
  | ldRpN (rr : Rp) (n : Word)    -- R520 ld rr, n16
  | ldA16Sp (addr : Word)         -- R521 ld [a16], SP
  | ldSpHl                        -- R522 ld SP, HL
  | push (rr : Rp2)               -- R530 push rr
  | popAf                         -- R531 pop AF
  | pop (rr : Pair)               -- R532 pop rr
  -- 42_alu8.md
  | addR (r : Reg8)               -- R602
  | addHl                         -- R603
  | addN (n : Byte)               -- R604
  | adcR (r : Reg8)               -- R605
  | adcHl                         -- R606
  | adcN (n : Byte)               -- R607
  | subR (r : Reg8)               -- R608
  | subHl                         -- R609
  | subN (n : Byte)               -- R610
  | sbcR (r : Reg8)               -- R611
  | sbcHl                         -- R612
  | sbcN (n : Byte)               -- R613
  | andR (r : Reg8)               -- R614
  | andHl                         -- R615
  | andN (n : Byte)               -- R616
  | xorR (r : Reg8)               -- R617
  | xorHl                         -- R618
  | xorN (n : Byte)               -- R619
  | orR (r : Reg8)                -- R620
  | orHl                          -- R621
  | orN (n : Byte)                -- R622
  | cpR (r : Reg8)                -- R623
  | cpHl                          -- R624
  | cpN (n : Byte)                -- R625
  | incR (r : Reg8)               -- R626
  | incHl                         -- R627
  | decR (r : Reg8)               -- R628
  | decHl                         -- R629
  | daa                           -- R630
  | cpl                           -- R631
  | scf                           -- R632
  | ccf                           -- R633
  -- 43_alu16.md
  | addHlRp (rr : Rp)             -- R700 add HL, rr
  | incRp (rr : Rp)               -- R701 inc rr
  | decRp (rr : Rp)               -- R702 dec rr
  | addSpE (e : Byte)             -- R703 add SP, e8
  | ldHlSpE (e : Byte)            -- R704 ld HL, SP+e8
  -- 44_cb_rotate_shift_bit.md
  | rlca                          -- R800
  | rrca                          -- R801
  | rla                           -- R802
  | rra                           -- R803
  | rlcR (r : Reg8)               -- R805
  | rlcHl                         -- R806
  | rrcR (r : Reg8)               -- R807
  | rrcHl                         -- R808
  | rlR (r : Reg8)                -- R809
  | rlHl                          -- R810
  | rrR (r : Reg8)                -- R811
  | rrHl                          -- R812
  | slaR (r : Reg8)               -- R813
  | slaHl                         -- R814
  | sraR (r : Reg8)               -- R815
  | sraHl                         -- R816
  | swapR (r : Reg8)              -- R817
  | swapHl                        -- R818
  | srlR (r : Reg8)               -- R819
  | srlHl                         -- R820
  | bitR (u3 : BitVec 3) (r : Reg8)   -- R821 bit b, r
  | bitHl (u3 : BitVec 3)             -- R822 bit b, [HL]
  | resR (u3 : BitVec 3) (r : Reg8)   -- R823 res b, r
  | resHl (u3 : BitVec 3)             -- R824 res b, [HL]
  | setR (u3 : BitVec 3) (r : Reg8)   -- R825 set b, r
  | setHl (u3 : BitVec 3)             -- R826 set b, [HL]
  -- 45_control.md
  | jp (addr : Word)              -- R901 jp a16
  | jpCc (cc : Cond) (addr : Word)    -- R902 jp cc, a16
  | jpHl                          -- R903 jp HL
  | jr (e : Byte)                 -- R904 jr e8
  | jrCc (cc : Cond) (e : Byte)   -- R905 jr cc, e8
  | call (addr : Word)            -- R906 call a16
  | callCc (cc : Cond) (addr : Word)  -- R907 call cc, a16
  | ret                           -- R908
  | retCc (cc : Cond)             -- R909 ret cc
  | reti                          -- R910
  | rst (y : BitVec 3)            -- R911 rst vec, vec = y * 8
  -- 46_system.md
  | nop                           -- R1000
  | halt                          -- R1001
  | stop (n : Byte)               -- R1002 the second byte is fetched and ignored
  | di                            -- R1003
  | ei                            -- R1004
  | prefixCb                      -- R1005 the escape byte alone; a pair is the secondary instruction (assumption 18)
  | illegal (op : Byte)           -- R1006 one of the eleven opcodes of R314
  deriving DecidableEq, Repr

end Sys2Proof
end

