-- ==== Sys2Proof/WellFormed.lean ====
section
/-! DEFINITION. Which instructions the encoding has. The operand types leave two checks: an illegal opcode is one of the eleven
of R314, and the escape byte alone is no instruction (R1005). -/

namespace Sys2Proof

/-- The eleven primary opcodes that encode no instruction (R314). -/
def illegalOpcodes : List Byte :=
  [0xD3#8, 0xDB#8, 0xDD#8, 0xE3#8, 0xE4#8, 0xEB#8, 0xEC#8, 0xED#8, 0xF4#8, 0xFC#8, 0xFD#8]

/-- An instruction a complete byte sequence encodes: "0xCB is not an instruction by itself" (R1005), and an illegal opcode is
one of the eleven (R314). Every other operand is in range by its type. -/
def Instr.wellFormed : Instr → Bool
  | .prefixCb => false
  | .illegal op => illegalOpcodes.contains op
  | _ => true

end Sys2Proof
end

