-- ==== Sys2Proof/Decode.lean ====
section
/-! DEFINITION. The two dispatch tables (30_encoding.md), the decoder over byte lists, total and refusing by name, the
host's view of it on one word, and after them the encoder, written from the same tables. -/

namespace Sys2Proof

/-! ### Bytes and fields -/

/-- `hi:lo`, the value "(hi<<8)|lo" (R10). -/
def joinBytes (hi lo : Byte) : Word := hi ++ lo

/-- `v[15:8]` (R10). -/
def hiByte (v : Word) : Byte := v.extractLsb' 8 8

/-- `v[7:0]` (R10). -/
def loByte (v : Word) : Byte := v.extractLsb' 0 8

/-- `x = op[7:6]` (R302, R303). -/
def fieldX (op : Byte) : BitVec 2 := op.extractLsb' 6 2

/-- `y = op[5:3]` (R302, R303). -/
def fieldY (op : Byte) : BitVec 3 := op.extractLsb' 3 3

/-- `z = op[2:0]` (R302, R303). -/
def fieldZ (op : Byte) : BitVec 3 := op.extractLsb' 0 3

/-- `p = op[5:4]` (R302). -/
def fieldP (op : Byte) : BitVec 2 := op.extractLsb' 4 2

/-- `q = op[3]` (R302). -/
def fieldQ (op : Byte) : Bool := op.getLsbD 3

/-- The condition field `op[4:3]` (R302, R306). -/
def fieldCc (op : Byte) : BitVec 2 := op.extractLsb' 3 2

/-! ### Operand tables -/

/-- An entry of table `r8`: a register, or the byte at HL (R304). -/
inductive R8 where
  | reg (r : Reg8)
  | hl
  deriving DecidableEq, Repr

/-- Table `r8` (R304). -/
def r8Table : BitVec 3 → R8
  | 0#3 => .reg .b
  | 1#3 => .reg .c
  | 2#3 => .reg .d
  | 3#3 => .reg .e
  | 4#3 => .reg .h
  | 5#3 => .reg .l
  | 6#3 => .hl
  | _ => .reg .a

/-- Table `rp` (R305). -/
def rpTable : BitVec 2 → Rp
  | 0#2 => .bc
  | 1#2 => .de
  | 2#2 => .hl
  | _ => .sp

/-- Table `rp2` (R305) for PUSH. -/
def rp2Table : BitVec 2 → Rp2
  | 0#2 => .bc
  | 1#2 => .de
  | 2#2 => .hl
  | _ => .af

/-- Table `cc` (R306). -/
def ccTable : BitVec 2 → Cond
  | 0#2 => .nz
  | 1#2 => .z
  | 2#2 => .nc
  | _ => .c

/-- Table `alu` (R308) with the register form of R601. -/
def aluR : BitVec 3 → Reg8 → Instr
  | 0#3 => .addR
  | 1#3 => .adcR
  | 2#3 => .subR
  | 3#3 => .sbcR
  | 4#3 => .andR
  | 5#3 => .xorR
  | 6#3 => .orR
  | _ => .cpR

/-- Table `alu` (R308) with the memory form of R601. -/
def aluHl : BitVec 3 → Instr
  | 0#3 => .addHl
  | 1#3 => .adcHl
  | 2#3 => .subHl
  | 3#3 => .sbcHl
  | 4#3 => .andHl
  | 5#3 => .xorHl
  | 6#3 => .orHl
  | _ => .cpHl

/-- Table `alu` (R308) with the immediate form of R601. -/
def aluN : BitVec 3 → Byte → Instr
  | 0#3 => .addN
  | 1#3 => .adcN
  | 2#3 => .subN
  | 3#3 => .sbcN
  | 4#3 => .andN
  | 5#3 => .xorN
  | 6#3 => .orN
  | _ => .cpN

/-- Table `rot` (R309) on a register. -/
def rotR : BitVec 3 → Reg8 → Instr
  | 0#3 => .rlcR
  | 1#3 => .rrcR
  | 2#3 => .rlR
  | 3#3 => .rrR
  | 4#3 => .slaR
  | 5#3 => .sraR
  | 6#3 => .swapR
  | _ => .srlR

/-- Table `rot` (R309) on the byte at HL. -/
def rotHl : BitVec 3 → Instr
  | 0#3 => .rlcHl
  | 1#3 => .rrcHl
  | 2#3 => .rlHl
  | 3#3 => .rrHl
  | 4#3 => .slaHl
  | 5#3 => .sraHl
  | 6#3 => .swapHl
  | _ => .srlHl

/-! ### The dispatch tables -/

/-- What the primary table says of an opcode: an instruction that is complete, one that takes one or two immediate bytes
(formats `op`, `op_n8`, `op_n16` of R301), or the escape to the secondary table (R313). -/
inductive Entry where
  | done (i : Instr)
  | imm8 (f : Byte → Instr)
  | imm16 (f : Word → Instr)
  | escape

/-- The row `x = 0` of R312. -/
def primary0 (op : Byte) : Entry :=
  let y := fieldY op
  let p := fieldP op
  let q := fieldQ op
  match fieldZ op with
  | 0#3 =>
    match y with
    | 0#3 => .done .nop
    | 1#3 => .imm16 .ldA16Sp
    | 2#3 => .imm8 .stop
    | 3#3 => .imm8 .jr
    | _ => .imm8 (.jrCc (ccTable (fieldCc op)))
  | 1#3 => if q then .done (.addHlRp (rpTable p)) else .imm16 (.ldRpN (rpTable p))
  | 2#3 =>
    match p, q with
    | 0#2, false => .done .ldBcA
    | 1#2, false => .done .ldDeA
    | 2#2, false => .done .ldHliA
    | _, false => .done .ldHldA
    | 0#2, true => .done .ldABc
    | 1#2, true => .done .ldADe
    | 2#2, true => .done .ldAHli
    | _, true => .done .ldAHld
  | 3#3 => .done (if q then .decRp (rpTable p) else .incRp (rpTable p))
  | 4#3 =>
    match r8Table y with
    | .reg r => .done (.incR r)
    | .hl => .done .incHl
  | 5#3 =>
    match r8Table y with
    | .reg r => .done (.decR r)
    | .hl => .done .decHl
  | 6#3 =>
    match r8Table y with
    | .reg r => .imm8 (.ldRN r)
    | .hl => .imm8 .ldHlN
  | _ =>
    match y with
    | 0#3 => .done .rlca
    | 1#3 => .done .rrca
    | 2#3 => .done .rla
    | 3#3 => .done .rra
    | 4#3 => .done .daa
    | 5#3 => .done .cpl
    | 6#3 => .done .scf
    | _ => .done .ccf

/-- The row `x = 1` of R312. -/
def primary1 (op : Byte) : Entry :=
  match r8Table (fieldY op), r8Table (fieldZ op) with
  | .reg dst, .reg r => .done (.ldRR dst r)
  | .reg dst, .hl => .done (.ldRHl dst)
  | .hl, .reg r => .done (.ldHlR r)
  | .hl, .hl => .done .halt

/-- The row `x = 2` of R312. -/
def primary2 (op : Byte) : Entry :=
  match r8Table (fieldZ op) with
  | .reg r => .done (aluR (fieldY op) r)
  | .hl => .done (aluHl (fieldY op))

/-- The row `x = 3` of R312; the entries it calls illegal are the eleven of R314. -/
def primary3 (op : Byte) : Entry :=
  let y := fieldY op
  let p := fieldP op
  let q := fieldQ op
  let cc := ccTable (fieldCc op)
  match fieldZ op with
  | 0#3 =>
    match y with
    | 4#3 => .imm8 .ldhA8A
    | 5#3 => .imm8 .addSpE
    | 6#3 => .imm8 .ldhAA8
    | 7#3 => .imm8 .ldHlSpE
    | _ => .done (.retCc cc)
  | 1#3 =>
    match p, q with
    | 0#2, false => .done (.pop .bc)
    | 1#2, false => .done (.pop .de)
    | 2#2, false => .done (.pop .hl)
    | _, false => .done .popAf
    | 0#2, true => .done .ret
    | 1#2, true => .done .reti
    | 2#2, true => .done .jpHl
    | _, true => .done .ldSpHl
  | 2#3 =>
    match y with
    | 4#3 => .done .ldhCA
    | 5#3 => .imm16 .ldA16A
    | 6#3 => .done .ldhAC
    | 7#3 => .imm16 .ldAA16
    | _ => .imm16 (.jpCc cc)
  | 3#3 =>
    match y with
    | 0#3 => .imm16 .jp
    | 1#3 => .escape
    | 6#3 => .done .di
    | 7#3 => .done .ei
    | _ => .done (.illegal op)
  | 4#3 =>
    match y with
    | 0#3 => .imm16 (.callCc cc)
    | 1#3 => .imm16 (.callCc cc)
    | 2#3 => .imm16 (.callCc cc)
    | 3#3 => .imm16 (.callCc cc)
    | _ => .done (.illegal op)
  | 5#3 =>
    match p, q with
    | _, false => .done (.push (rp2Table p))
    | 0#2, true => .imm16 .call
    | _, true => .done (.illegal op)
  | 6#3 => .imm8 (aluN y)
  | _ => .done (.rst y)

/-- The primary table (R311, R312). -/
def primary (op : Byte) : Entry :=
  match fieldX op with
  | 0#2 => primary0 op
  | 1#2 => primary1 op
  | 2#2 => primary2 op
  | _ => primary3 op

/-- The secondary table behind 0xCB (R303, R313): every one of the 256 values is an instruction. -/
def secondary (op2 : Byte) : Instr :=
  let y := fieldY op2
  match fieldX op2, r8Table (fieldZ op2) with
  | 0#2, .reg r => rotR y r
  | 0#2, .hl => rotHl y
  | 1#2, .reg r => .bitR y r
  | 1#2, .hl => .bitHl y
  | 2#2, .reg r => .resR y r
  | 2#2, .hl => .resHl y
  | _, .reg r => .setR y r
  | _, .hl => .setHl y

/-! ### The decoder -/

/-- Why a byte list is no instruction: it ends before the instruction does. No complete sequence is refused (R1103). -/
inductive DecodeError where
  | empty
  | truncated (op : Byte)
  deriving DecidableEq, Repr

/-- The instruction at the head of a byte list and the bytes after it. Immediates are in address order, low byte first
(R310); 0xCB with nothing after it is the escape alone (R1005). -/
def decode : List Byte → Except DecodeError (Instr × List Byte)
  | [] => .error .empty
  | op :: rest =>
    match primary op, rest with
    | .done i, rest => .ok (i, rest)
    | .imm8 f, n :: rest => .ok (f n, rest)
    | .imm16 f, lo :: hi :: rest => .ok (f (joinBytes hi lo), rest)
    | .escape, op2 :: rest => .ok (secondary op2, rest)
    | .escape, [] => .ok (.prefixCb, [])
    | _, _ => .error (.truncated op)

/-- The instruction, if any. -/
def decoded (bytes : List Byte) : Option Instr :=
  match decode bytes with
  | .ok (i, _) => some i
  | .error _ => none

/-- The longest instruction has three bytes (R300). -/
def longest : Nat := 3

/-- `n` bytes of `w`, the first byte in bits 7..0. -/
def littleBytes : Nat → Nat → List Byte
  | 0, _ => []
  | n + 1, w => BitVec.ofNat 8 w :: littleBytes n (w / 256)

/-- The bytes of a row of spec/opcode_table.json whose bits are `w`. A secondary row is one 16-bit number with the escape in
its HIGH byte, though the escape is the first byte in memory (R301, format `cb`; assumption 19); every other row gives
the first byte in bits 7..0. -/
def rowBytes (nbits w : Nat) : List Byte :=
  if nbits = 16 ∧ w / 256 = 0xCB then [0xCB#8, BitVec.ofNat 8 w] else littleBytes (nbits / 8) w

/-- The row's bytes and, above them, bytes of zero up to the longest instruction. -/
def paddedRowBytes (nbits w : Nat) : List Byte :=
  (rowBytes nbits w ++ List.replicate longest 0#8).take longest

/-- The instruction the decoder reads from the bytes of a row, with zero bytes above them where the row has none for an
operand. The row of one byte 0xCB is the escape alone (R1005, assumption 18). -/
def decodeTableWord (nbits w : Nat) : Option Instr :=
  match decoded (rowBytes nbits w) with
  | some i => some i
  | none => decoded (paddedRowBytes nbits w)

/-! ### The encoder -/

/-- The opcode with the fields `x`, `y`, `z` (R302). -/
def opXyz (x : BitVec 2) (y z : BitVec 3) : Byte := x ++ y ++ z

/-- The opcode with the fields `x`, `p`, `q`, `z` (R302). -/
def opXpqz (x p : BitVec 2) (q : Bool) (z : BitVec 3) : Byte := x ++ p ++ BitVec.ofBool q ++ z

/-- Table `r8` read backwards (R304). -/
def Reg8.code : Reg8 → BitVec 3
  | .b => 0#3
  | .c => 1#3
  | .d => 2#3
  | .e => 3#3
  | .h => 4#3
  | .l => 5#3
  | .a => 7#3

/-- The entry `[HL]` of table `r8` (R304). -/
def hlCode : BitVec 3 := 6#3

/-- Table `rp` read backwards (R305). -/
def Rp.code : Rp → BitVec 2
  | .bc => 0#2
  | .de => 1#2
  | .hl => 2#2
  | .sp => 3#2

/-- Table `rp2` read backwards (R305). -/
def Rp2.code : Rp2 → BitVec 2
  | .bc => 0#2
  | .de => 1#2
  | .hl => 2#2
  | .af => 3#2

/-- Table `rp2` read backwards for the pairs of R532. -/
def Pair.code : Pair → BitVec 2
  | .bc => 0#2
  | .de => 1#2
  | .hl => 2#2

/-- Table `cc` read backwards (R306). -/
def Cond.code : Cond → BitVec 2
  | .nz => 0#2
  | .z => 1#2
  | .nc => 2#2
  | .c => 3#2

/-- A 16-bit immediate in memory order (R217, R310). -/
def immBytes (v : Word) : List Byte := [loByte v, hiByte v]

/-- A secondary instruction's bytes (R301, format `cb`). -/
def cbBytes (x : BitVec 2) (y z : BitVec 3) : List Byte := [0xCB#8, opXyz x y z]

/-- The bytes of an instruction, from the encodings its rule gives. -/
def encode : Instr → List Byte
  | .ldRR dst r => [opXyz 1 dst.code r.code]
  | .ldRN dst n => [opXyz 0 dst.code 6, n]
  | .ldRHl dst => [opXyz 1 dst.code hlCode]
  | .ldHlR r => [opXyz 1 hlCode r.code]
  | .ldHlN n => [0x36, n]
  | .ldABc => [0x0A]
  | .ldADe => [0x1A]
  | .ldBcA => [0x02]
  | .ldDeA => [0x12]
  | .ldAA16 addr => 0xFA :: immBytes addr
  | .ldA16A addr => 0xEA :: immBytes addr
  | .ldhAA8 n => [0xF0, n]
  | .ldhA8A n => [0xE0, n]
  | .ldhAC => [0xF2]
  | .ldhCA => [0xE2]
  | .ldAHli => [0x2A]
  | .ldAHld => [0x3A]
  | .ldHliA => [0x22]
  | .ldHldA => [0x32]
  | .ldRpN rr n => opXpqz 0 rr.code false 1 :: immBytes n
  | .ldA16Sp addr => 0x08 :: immBytes addr
  | .ldSpHl => [0xF9]
  | .push rr => [opXpqz 3 rr.code false 5]
  | .popAf => [0xF1]
  | .pop rr => [opXpqz 3 rr.code false 1]
  | .addR r => [opXyz 2 0 r.code]
  | .addHl => [0x86]
  | .addN n => [0xC6, n]
  | .adcR r => [opXyz 2 1 r.code]
  | .adcHl => [0x8E]
  | .adcN n => [0xCE, n]
  | .subR r => [opXyz 2 2 r.code]
  | .subHl => [0x96]
  | .subN n => [0xD6, n]
  | .sbcR r => [opXyz 2 3 r.code]
  | .sbcHl => [0x9E]
  | .sbcN n => [0xDE, n]
  | .andR r => [opXyz 2 4 r.code]
  | .andHl => [0xA6]
  | .andN n => [0xE6, n]
  | .xorR r => [opXyz 2 5 r.code]
  | .xorHl => [0xAE]
  | .xorN n => [0xEE, n]
  | .orR r => [opXyz 2 6 r.code]
  | .orHl => [0xB6]
  | .orN n => [0xF6, n]
  | .cpR r => [opXyz 2 7 r.code]
  | .cpHl => [0xBE]
  | .cpN n => [0xFE, n]
  | .incR r => [opXyz 0 r.code 4]
  | .incHl => [0x34]
  | .decR r => [opXyz 0 r.code 5]
  | .decHl => [0x35]
  | .daa => [0x27]
  | .cpl => [0x2F]
  | .scf => [0x37]
  | .ccf => [0x3F]
  | .addHlRp rr => [opXpqz 0 rr.code true 1]
  | .incRp rr => [opXpqz 0 rr.code false 3]
  | .decRp rr => [opXpqz 0 rr.code true 3]
  | .addSpE e => [0xE8, e]
  | .ldHlSpE e => [0xF8, e]
  | .rlca => [0x07]
  | .rrca => [0x0F]
  | .rla => [0x17]
  | .rra => [0x1F]
  | .rlcR r => cbBytes 0 0 r.code
  | .rlcHl => cbBytes 0 0 hlCode
  | .rrcR r => cbBytes 0 1 r.code
  | .rrcHl => cbBytes 0 1 hlCode
  | .rlR r => cbBytes 0 2 r.code
  | .rlHl => cbBytes 0 2 hlCode
  | .rrR r => cbBytes 0 3 r.code
  | .rrHl => cbBytes 0 3 hlCode
  | .slaR r => cbBytes 0 4 r.code
  | .slaHl => cbBytes 0 4 hlCode
  | .sraR r => cbBytes 0 5 r.code
  | .sraHl => cbBytes 0 5 hlCode
  | .swapR r => cbBytes 0 6 r.code
  | .swapHl => cbBytes 0 6 hlCode
  | .srlR r => cbBytes 0 7 r.code
  | .srlHl => cbBytes 0 7 hlCode
  | .bitR u3 r => cbBytes 1 u3 r.code
  | .bitHl u3 => cbBytes 1 u3 hlCode
  | .resR u3 r => cbBytes 2 u3 r.code
  | .resHl u3 => cbBytes 2 u3 hlCode
  | .setR u3 r => cbBytes 3 u3 r.code
  | .setHl u3 => cbBytes 3 u3 hlCode
  | .jp addr => 0xC3 :: immBytes addr
  | .jpCc cc addr => opXyz 3 (0#1 ++ cc.code) 2 :: immBytes addr
  | .jpHl => [0xE9]
  | .jr e => [0x18, e]
  | .jrCc cc e => [opXyz 0 (1#1 ++ cc.code) 0, e]
  | .call addr => 0xCD :: immBytes addr
  | .callCc cc addr => opXyz 3 (0#1 ++ cc.code) 4 :: immBytes addr
  | .ret => [0xC9]
  | .retCc cc => [opXyz 3 (0#1 ++ cc.code) 0]
  | .reti => [0xD9]
  | .rst y => [opXyz 3 y 7]
  | .nop => [0x00]
  | .halt => [0x76]
  | .stop n => [0x10, n]
  | .di => [0xF3]
  | .ei => [0xFB]
  | .prefixCb => [0xCB]
  | .illegal op => [op]

end Sys2Proof
end

