-- ==== Sys2Proof/Config.lean ====
section
/-! DEFINITION. What an implementation fixes: the spec's named parameters (00_scope.md R9) as plain data with the spec's own
defaults, and the free values, as constants without a body (nothing can evaluate them or prove a value of them). -/

namespace Sys2Proof

/-- A sparse byte store: (address, byte) cells, canonical when the addresses rise strictly. An address that is not listed
holds NO stored byte, so no entry repeats what an unlisted address holds; what a read of it answers is
`Config.powerUp` (assumption 2). -/
abbrev Memory := List Host.Cell

/-- The byte stores of the machine: the built-in memories and I/O cells (by CPU address), the cartridge ROM and the cartridge
RAM (by offset), and the boot ROM (by address). -/
inductive Store where
  | internal
  | cartRom
  | cartRam
  | bootRom
  deriving DecidableEq, Repr

/-- The two boot paths of 70_reset_and_hazards.md R1201 and R1202. -/
inductive BootMode where
  | bootRom
  | postBootDefaults
  deriving DecidableEq, Repr

/-- The six cartridge controllers of 00_scope.md R7 and 90_conflicts.md C6. -/
inductive Cartridge where
  | readOnly
  | romRam
  | mbc1
  | mbc2
  | mbc3
  | mbc5
  deriving DecidableEq, Repr

/-- The controllers that a write below 0x8000 can reach: all but the read-only one, whose "writes to ROM are no-ops" and which
has no banking (R212). Their decode is not in the spec. -/
def Cartridge.hasRegisters : Cartridge → Bool
  | .readOnly => false
  | .romRam => true
  | .mbc1 => true
  | .mbc2 => true
  | .mbc3 => true
  | .mbc5 => true

/-- The OPEN parameters of 92_eei_decisions.md that are values (R9). They stand in `State`, so a claim about every state
holds for every value of them; only the reset event changes one, the two the host hands over (assumption 12). -/
structure Params where
  /-- `halt_bug` (D8). -/
  haltBug : Bool
  /-- `if_upper_read`: bits 7:5 of a read of IF (D5). -/
  ifUpperRead : BitVec 3
  /-- `if_reset`: IF bits 4:0 after reset (D31). -/
  ifReset : BitVec 5
  /-- `boot_mode` (D15). -/
  bootMode : BootMode
  /-- `boot_rom`: the 256 bytes of the boot ROM by address (D36). -/
  bootRom : Memory
  /-- The controller on the bus: which of the six is plugged in (R7). -/
  cartridge : Cartridge
  deriving DecidableEq, Repr

/-- The spec's defaults (the parameter table of 92_eei_decisions.md). DESIGN CHOICE, unsafe: the spec gives no default
cartridge; the read-only controller is the one of its end-to-end scenario (95_test_vectors.md L1.5) (assumption 6). -/
def Params.default : Params where
  haltBug := true
  ifUpperRead := 0b111#3
  ifReset := 0#5
  bootMode := .postBootDefaults
  bootRom := []
  cartridge := .readOnly

/-- What a byte that nothing has written since the given reset reads as: a draw, one per byte and reset, fixed until written
(R204, R1200, D16, I2, I5); for the cartridge ROM and the boot ROM, which no reset changes, the byte of an image the spec
leaves a parameter (R114, D36). Free (assumption 2). -/
opaque Config.powerUp : Store → Nat → Nat → Byte

/-- The fresh draw that the n-th bus read answers where the spec calls the byte unpredictable (R213, R215, D25, D34) or
states none (assumptions 3, 4, 11). Free. -/
opaque Config.floatingByte : Nat → Byte

/-- The joypad's computed matrix output as the n-th bus read finds it (R209); the joypad block's rule is not in the
spec. Free (assumption 5). -/
opaque Config.joypadByte : Nat → Byte

/-- One less than the ROM bank a controller shows at 0x4000-0x7FFF, from the writes it has been sent since the given reset:
"bank 0 never selected here" (R202), so the bank shown is this plus one. Free (assumption 7). -/
opaque Config.romBankPred : Cartridge → Nat → Memory → Nat

/-- The byte of the cartridge RAM that a controller selects for an address of 0xA000-0xBFFF, from the writes it has been sent
since the given reset; `none` when no RAM is attached or its gate is closed (R213). Free (assumption 7). -/
opaque Config.ramOffset : Cartridge → Nat → Memory → Nat → Option Nat

/-- The registers A, F, B, C, D, E, H, L (in this order from 0) after the given reset under `boot_mode = BootRom` (R116, I1).
Free (assumption 13). -/
opaque Config.resetByte : Nat → Nat → Byte

/-- SP after the given reset under `boot_mode = BootRom` (R116, I1). Free (assumption 13). -/
opaque Config.resetSp : Nat → Word

end Sys2Proof
end

