-- ==== Sys2Proof/Machine/State.lean ====
section
/-! DEFINITION. The machine's state as plain data, the reasons a step can stop, and the state after reset. -/

namespace Sys2Proof.Machine

/-- The CPU's state (R110). -/
inductive HaltState where
  | running
  | halted
  | stopped
  /-- Entered by an illegal opcode, never left; records the opcode and its address (R1104). -/
  | faulted (op : Byte) (addr : Word)
  deriving DecidableEq, Repr

/-- The five interrupt kinds in priority order (R1105, R1106, R1109). -/
inductive Interrupt where
  | vblank
  | lcdStat
  | timer
  | serial
  | joypad
  deriving DecidableEq, Repr

/-- The reset event with what the host chooses for it (R1131, R1200). -/
structure ResetEvent where
  bootMode : BootMode
  bootRom : Memory
  /-- What the cartridge RAM holds after the cartridge's own reset, by RAM offset; a byte not listed is a draw
  (assumption 21). -/
  cartRam : Memory
  deriving DecidableEq, Repr

/-- What the environment does between two steps (R408, R1131, D21): requests of interrupt kinds, new values of I/O cells the
other blocks own, the input `stop_wake` as the next step samples it (R404, D9), or a reset of the whole system. -/
structure EnvMove where
  requests : List Interrupt
  io : List Host.Cell
  stopWake : Bool
  reset : Option ResetEvent
  deriving DecidableEq, Repr

/-- The whole state. Fields follow 10_state.md R100 to R113, then the bus blocks' state of 20_memory.md, the parameters of R9,
the inputs still to come (the host's moves and the bus's answers), and last the model's own three fields. -/
structure State where
  /-- A, the accumulator (R100). -/
  a : Byte
  /-- F: Z, N, H, C in bits 7 to 4, bits 3:0 zero (R103, R104). -/
  f : Byte
  /-- B (R100). -/
  b : Byte
  /-- C (R100). -/
  c : Byte
  /-- D (R100). -/
  d : Byte
  /-- E (R100). -/
  e : Byte
  /-- H (R100). -/
  h : Byte
  /-- L (R100). -/
  l : Byte
  /-- SP (R106). -/
  sp : Word
  /-- PC: the address of the next byte fetched (R107). -/
  pc : Word
  /-- The interrupt master enable (R108). -/
  ime : Bool
  /-- EI's delayed enable (R109). -/
  imeDelay : Bool
  /-- Running, halted, stopped or faulted (R110). -/
  haltState : HaltState
  /-- The halt bug is about to repeat an opcode byte (R111). -/
  haltBugPending : Bool
  /-- IE, all eight bits written to it (R112, R205). -/
  ie : Byte
  /-- IF bits 4:0 (R112, R206). -/
  iF : BitVec 5
  /-- Cycle-units of the last step (R113). -/
  stepCycles : Nat
  /-- Cycle-units since reset (R113, D39). -/
  cycleTotal : Nat
  /-- The boot ROM overlay is mapped (R208, R211). -/
  bootMapped : Bool
  /-- Video RAM, work RAM, OAM, I/O cells and high RAM by CPU address; echo RAM is work RAM (R202 to R204, R210, R214). -/
  mem : Memory
  /-- The cartridge ROM by ROM offset (R212). -/
  rom : Memory
  /-- The cartridge RAM by RAM offset (R213). -/
  xram : Memory
  /-- What the cartridge's controller has been sent since reset, newest first: writes to its write-only registers (R212) and to
  external RAM (R213). Its banks and its gate are functions of this (assumption 7). -/
  cartWrites : Memory
  /-- The parameters (R9). -/
  params : Params
  /-- The host's moves still to come, one per step (R1131, assumption 14). -/
  env : List EnvMove
  /-- The bus's answers still to come to writes of I/O cells: the byte the owning block's own rules leave in the cell (R210).
  With none left a cell stores the byte written (assumption 10). -/
  ioAnswers : List Byte
  /-- The bus's answers still to come to writes of external RAM: the byte of cartridge RAM that the controller stores, if any.
  With none left the byte written goes where a read of the address finds it, or nowhere (assumption 9). -/
  ramAnswers : List (Option Host.Cell)
  /-- The model's own: R400's `start`, the address of the current step's opcode (assumption 17). -/
  start : Word
  /-- The model's own: bus reads made so far, the index of the next fresh draw (assumption 3). -/
  reads : Nat
  /-- The model's own: reset events so far, the index of the draws that a reset makes (assumption 21). -/
  resets : Nat
  deriving DecidableEq, Repr

/-- Why the machine stops. -/
inductive Fault where
  /-- Raised by `step` in the faulted state an illegal opcode leaves: "the CPU has no step, for ever" (R405, R1104). Safe:
  the spec's CPU does nothing there either. No instruction's meaning raises it. -/
  | illegalOpcode (op : Byte) (addr : Word)
  deriving DecidableEq, Repr

/-- Why an instruction has no meaning here. -/
inductive Refusal where
  /-- Raised by an arm of `exec` whose instruction has no meaning yet; no arm does. Safe: the run ends. -/
  | notModelled (mnemonic : String)
  deriving DecidableEq, Repr

/-- What an instruction or a step answers. -/
abbrev Result := Host.Outcome State Fault Refusal

/-- The registers of R116's `PostBootDefaults` column and everything both columns share, under the parameters `p`, after the
reset event of number `k`. DESIGN CHOICE, unsafe: `start`, `reads`, `cartWrites` and the inputs still to come, which the
spec gives no reset value, start at zero and empty (assumptions 3, 7, 9, 10, 14, 17). -/
def State.postBoot (k : Nat) (p : Params) : State where
  a := 0x01
  f := 0xB0
  b := 0x00
  c := 0x13
  d := 0x00
  e := 0xD8
  h := 0x01
  l := 0x4D
  sp := 0xFFFE
  pc := 0x0100
  ime := false
  imeDelay := false
  haltState := .running
  haltBugPending := false
  ie := 0x00
  iF := p.ifReset
  stepCycles := 0
  cycleTotal := 0
  bootMapped := false
  mem := []
  rom := []
  xram := []
  cartWrites := []
  params := p
  env := []
  ioAnswers := []
  ramAnswers := []
  start := 0x0000
  reads := 0
  resets := k

/-- The state the reset event of number `k` leaves under the parameters `p`, with no cartridge image (R116, R1200): under
`BootRom` the registers are draws, F with bits 3:0 zero, PC is 0x0000 and the overlay is mapped. -/
def State.resetAt (k : Nat) (p : Params) : State :=
  match p.bootMode with
  | .postBootDefaults => State.postBoot k p
  | .bootRom =>
    { State.postBoot k p with
      a := Config.resetByte k 0
      f := Config.resetByte k 1 &&& 0xF0#8
      b := Config.resetByte k 2
      c := Config.resetByte k 3
      d := Config.resetByte k 4
      e := Config.resetByte k 5
      h := Config.resetByte k 6
      l := Config.resetByte k 7
      sp := Config.resetSp k
      pc := 0x0000
      bootMapped := true }

/-- The state after the first reset under the parameters `p`. -/
def State.resetWith (p : Params) : State := State.resetAt 0 p

/-- The machine right after reset, under the spec's default parameters (R116, R1202). -/
def State.reset : State := State.resetWith Params.default

end Sys2Proof.Machine
end

