-- ==== Sys2Proof/Machine/Memory.lean ====
section
/-! DEFINITION. The sparse byte store: its canonical form, one read, one write. -/

namespace Sys2Proof.Machine

/-- The canonical form: the addresses rise strictly. -/
def memRising : Memory → Bool
  | [] => true
  | [_] => true
  | x :: y :: m => decide (x.1 < y.1) && memRising (y :: m)

/-- The canonical form, with every listed address one that the store has. -/
def memWf (has : Nat → Bool) (m : Memory) : Bool := memRising m && m.all (fun x => has x.1)

/-- The byte stored at an address, if one is listed. -/
def memLookup : Memory → Nat → Option Byte
  | [], _ => none
  | (k, v) :: m, addr => if k = addr then some v else memLookup m addr

/-- A store to an address. -/
def memStore : Memory → Nat → Byte → Memory
  | [], addr, v => [(addr, v)]
  | (k, w) :: m, addr, v =>
    if addr < k then (addr, v) :: (k, w) :: m
    else if k = addr then (addr, v) :: m
    else (k, w) :: memStore m addr v

/-- What a byte of a store reads as: the byte stored, or the free draw of one that nothing has written since reset `k`
(assumption 2). -/
def memByte (st : Store) (k : Nat) (m : Memory) (addr : Nat) : Byte :=
  (memLookup m addr).getD (Config.powerUp st k addr)

end Sys2Proof.Machine
end

