-- ==== Sys2Proof/Machine/Bus.lean ====
section
/-! DEFINITION. The bus of 20_memory.md: the address map, what a read answers and what a write does. -/

namespace Sys2Proof.Machine

/-- The partitions of the address space (R202). -/
inductive Region where
  | rom0
  | romX
  | vram
  | extRam
  | wram
  | echo
  | oam
  | unusable
  | io
  | hram
  | ie
  deriving DecidableEq, Repr

/-- The partition of an address (R202, D18). -/
def region (addr : Word) : Region :=
  let n := addr.toNat
  if n < 0x4000 then .rom0
  else if n < 0x8000 then .romX
  else if n < 0xA000 then .vram
  else if n < 0xC000 then .extRam
  else if n < 0xE000 then .wram
  else if n < 0xFE00 then .echo
  else if n < 0xFEA0 then .oam
  else if n < 0xFF00 then .unusable
  else if n < 0xFF80 then .io
  else if n < 0xFFFF then .hram
  else .ie

/-- The joypad register, read as the matrix output (R209). -/
def joypadAddr : Word := 0xFF00

/-- IF (R206). -/
def ifAddr : Word := 0xFF0F

/-- The DMA register (R207). -/
def dmaAddr : Word := 0xFF46

/-- The boot-ROM unmap register (R208). -/
def bootAddr : Word := 0xFF50

/-- The I/O addresses that are byte cells a write stores into (R209, R210): all but IF and the two write intercepts. -/
def isIoCell (addr : Word) : Bool :=
  decide (region addr = .io) && addr != ifAddr && addr != dmaAddr && addr != bootAddr

/-- Where in `mem` an address is kept: echo RAM is work RAM 0x2000 below (R203). -/
def memKey (addr : Word) : Nat :=
  match region addr with
  | .echo => addr.toNat - 0x2000
  | _ => addr.toNat

/-- The addresses `mem` keeps a byte for. -/
def memHas (n : Nat) : Bool :=
  decide (n < 0x10000) &&
    match region (BitVec.ofNat 16 n) with
    | .vram => true
    | .wram => true
    | .oam => true
    | .hram => true
    | .io => isIoCell (BitVec.ofNat 16 n)
    | _ => false

/-- The size of a ROM bank, 16 KiB (R202). -/
def romBankSize : Nat := 0x4000

/-- The ROM offset the controller computes for an address below 0x8000 (R212): bank 0 at 0x0000 and never at 0x4000 (R202). The
read-only controller has no banking and shows the ROM's first 32 KiB. -/
def State.romOffset (s : State) (addr : Word) : Nat :=
  if s.params.cartridge.hasRegisters && decide (romBankSize ≤ addr.toNat) then
    (Config.romBankPred s.params.cartridge s.resets s.cartWrites + 1) * romBankSize + (addr.toNat - romBankSize)
  else addr.toNat

/-- The RAM offset the controller selects for an address of external RAM, `none` when the read floats (R213; assumption 7). -/
def State.ramOffset (s : State) (addr : Word) : Option Nat :=
  Config.ramOffset s.params.cartridge s.resets s.cartWrites addr.toNat

/-- A byte below 0x8000: the boot ROM's while it is mapped and the address is below its extent (R211), else the cartridge
ROM's (R212). -/
def State.romByte (s : State) (addr : Word) : Byte :=
  if s.bootMapped && decide (addr.toNat < 0x100) then memByte .bootRom 0 s.params.bootRom addr.toNat
  else memByte .cartRom 0 s.rom (s.romOffset addr)

/-- A byte of the I/O page as the n-th bus read finds it (R206, R209, R210). The spec states no value for a read of the two
write intercepts: a free draw (DESIGN CHOICE, safe, assumption 4). -/
def State.ioByte (s : State) (n : Nat) (addr : Word) : Byte :=
  if addr = ifAddr then s.params.ifUpperRead ++ s.iF
  else if addr = joypadAddr then Config.joypadByte n
  else if addr = dmaAddr then Config.floatingByte n
  else if addr = bootAddr then Config.floatingByte n
  else memByte .internal s.resets s.mem addr.toNat

/-- The byte at an address as the n-th bus read finds it. Only floating and joypad reads depend on `n`. -/
def State.byteAt (s : State) (n : Nat) (addr : Word) : Byte :=
  match region addr with
  | .rom0 => s.romByte addr
  | .romX => s.romByte addr
  | .vram => memByte .internal s.resets s.mem (memKey addr)
  | .extRam =>
    match s.ramOffset addr with
    | some off => memByte .cartRam s.resets s.xram off
    | none => Config.floatingByte n
  | .wram => memByte .internal s.resets s.mem (memKey addr)
  | .echo => memByte .internal s.resets s.mem (memKey addr)
  | .oam => memByte .internal s.resets s.mem (memKey addr)
  | .unusable => Config.floatingByte n
  | .io => s.ioByte n addr
  | .hram => memByte .internal s.resets s.mem (memKey addr)
  | .ie => s.ie

/-- The byte `MemRead(addr, 1)` answers (R13, R200). -/
def State.peek (s : State) (addr : Word) : Byte := s.byteAt s.reads addr

/-- The state after one bus read: no read changes the machine (R221), only the index of the next fresh draw moves on. -/
def State.tick (s : State) : State := { s with reads := s.reads + 1 }

/-- The address of byte `i` of a DMA source: `page_byte × 256` and on (R207). -/
def dmaSource (page : Byte) (i : Nat) : Word := joinBytes page 0 + BitVec.ofNat 16 i

/-- A DMA source byte: whatever partition the address falls into, if that is ROM, VRAM, external RAM or work RAM; from the
partitions at 0xFE00 and up, which R207 does not name, a free draw (DESIGN CHOICE, safe, assumption 11). -/
def State.dmaByte (s : State) (addr : Word) : Byte :=
  if 0xFE00 ≤ addr.toNat then Config.floatingByte s.reads else s.peek addr

/-- The first `n` bytes of the OAM copy (R207). -/
def State.dmaCopy (page : Byte) : Nat → State → State
  | 0, s => s
  | n + 1, s =>
    let t := s.dmaCopy page n
    { t.tick with mem := memStore t.mem (0xFE00 + n) (t.dmaByte (dmaSource page n)) }

/-- A write into an I/O cell stores it, "subject to the owning block's own rules" (R210): the bus's next answer says what those
leave in the cell, and with no answer left it is the byte written (assumption 10). -/
def State.ioCellWrite (s : State) (addr : Word) (v : Byte) : State :=
  match s.ioAnswers with
  | [] => { s with mem := memStore s.mem addr.toNat v }
  | w :: rest => { s with mem := memStore s.mem addr.toNat w, ioAnswers := rest }

/-- A write into the I/O page (R206 to R210). -/
def State.ioWrite (s : State) (addr : Word) (v : Byte) : State :=
  if addr = ifAddr then { s with iF := v.extractLsb' 0 5 }
  else if addr = dmaAddr then s.dmaCopy v 160
  else if addr = bootAddr then { s with bootMapped := false }
  else s.ioCellWrite addr v

/-- A write the controller is sent. -/
def State.sentCart (s : State) (addr : Word) (v : Byte) : State :=
  { s with cartWrites := (addr.toNat, v) :: s.cartWrites }

/-- A write below 0x8000 reaches the cartridge controller and no ROM byte; for the read-only controller it is a no-op (R212). -/
def State.cartWrite (s : State) (addr : Word) (v : Byte) : State :=
  if s.params.cartridge.hasRegisters then s.sentCart addr v else s

/-- A byte put into external RAM where a read of the address finds it, nowhere if such a read floats. -/
def State.extRamPut (s : State) (addr : Word) (v : Byte) : State :=
  match s.ramOffset addr with
  | some off => { s with xram := memStore s.xram off v }
  | none => s

/-- What a write to external RAM stores: the RAM byte of the bus's next answer, if that names one; with no answer left, the
byte written where a read of the address finds it (assumption 9). -/
def State.extRamStore (s : State) (addr : Word) (v : Byte) : State :=
  match s.ramAnswers with
  | [] => s.extRamPut addr v
  | some x :: rest => { s with xram := memStore s.xram x.1 x.2, ramAnswers := rest }
  | none :: rest => { s with ramAnswers := rest }

/-- A write to external RAM: what it stores, and the controller is sent it (R213). -/
def State.extRamWrite (s : State) (addr : Word) (v : Byte) : State := (s.extRamStore addr v).sentCart addr v

/-- A write into one of the built-in memories. -/
def State.memWrite (s : State) (addr : Word) (v : Byte) : State :=
  { s with mem := memStore s.mem (memKey addr) v }

/-- `MemWrite(addr, 1, v)` (R13, R200, R221). -/
def State.write (s : State) (addr : Word) (v : Byte) : State :=
  match region addr with
  | .rom0 => s.cartWrite addr v
  | .romX => s.cartWrite addr v
  | .vram => s.memWrite addr v
  | .extRam => s.extRamWrite addr v
  | .wram => s.memWrite addr v
  | .echo => s.memWrite addr v
  | .oam => s.memWrite addr v
  | .unusable => s
  | .io => s.ioWrite addr v
  | .hram => s.memWrite addr v
  | .ie => { s with ie := v }

/-- Places a byte where a fetch from `addr` would find it, past what a program may write: into the ROM the controller shows
there or the boot ROM mapped over it. Nothing is placed where no store answers a fetch (a floating byte, the joypad,
IF, the two write intercepts). -/
def State.poke (s : State) (addr : Word) (v : Byte) : State :=
  match region addr with
  | .rom0 =>
    if s.bootMapped && decide (addr.toNat < 0x100) then
      { s with params := { s.params with bootRom := memStore s.params.bootRom addr.toNat v } }
    else { s with rom := memStore s.rom (s.romOffset addr) v }
  | .romX => { s with rom := memStore s.rom (s.romOffset addr) v }
  | .vram => s.memWrite addr v
  | .extRam => s.extRamPut addr v
  | .wram => s.memWrite addr v
  | .echo => s.memWrite addr v
  | .oam => s.memWrite addr v
  | .unusable => s
  | .io => if isIoCell addr then s.memWrite addr v else s
  | .hram => s.memWrite addr v
  | .ie => { s with ie := v }

end Sys2Proof.Machine
end

