-- ==== Sys2Proof/Machine/Flags.lean ====
section
/-! DEFINITION. The flag register and every flag computation: the adders of 42_alu8.md R600, INC and DEC, the logic
operations, DAA, the 16-bit adders of 43_alu16.md, the rotates and shifts of 44_cb_rotate_shift_bit.md. -/

namespace Sys2Proof.Machine

/-! ### F -/

/-- `Z<<7 | N<<6 | Hf<<5 | Cy<<4`, bits 3:0 zero (R103). -/
def packF (z n hf cy : Bool) : Byte :=
  BitVec.ofBool z ++ BitVec.ofBool n ++ BitVec.ofBool hf ++ BitVec.ofBool cy ++ 0#4

/-- Z, bit 7 of F (R103). -/
def flagZ (f : Byte) : Bool := f.getLsbD 7

/-- N, bit 6 of F (R103). -/
def flagN (f : Byte) : Bool := f.getLsbD 6

/-- H, bit 5 of F (R103). -/
def flagH (f : Byte) : Bool := f.getLsbD 5

/-- C, bit 4 of F (R103). -/
def flagC (f : Byte) : Bool := f.getLsbD 4

/-- A byte as F holds it and reads it: "bits 3:0 of F are always 0" (R104). -/
def maskF (v : Byte) : Byte := v &&& 0xF0#8

/-! ### 8-bit arithmetic -/

/-- `v & 0xF`. -/
def lowNibble (v : Byte) : Nat := v.toNat % 16

/-- `add8(a, b, c)`: the result and F (R600). -/
def add8 (a b : Byte) (c : Bool) : Byte × Byte :=
  let s := a.toNat + b.toNat + c.toNat
  let res := BitVec.ofNat 8 s
  (res, packF (res == 0#8) false (decide (0xF < lowNibble a + lowNibble b + c.toNat)) (decide (0xFF < s)))

/-- `sub8(a, b, c)`: the result and F (R600). -/
def sub8 (a b : Byte) (c : Bool) : Byte × Byte :=
  let res := BitVec.ofInt 8 ((a.toNat : Int) - b.toNat - c.toNat)
  (res, packF (res == 0#8) true (decide (lowNibble a < lowNibble b + c.toNat)) (decide (a.toNat < b.toNat + c.toNat)))

/-- INC's result and F: C is not written (R626). -/
def inc8 (v f : Byte) : Byte × Byte :=
  let res := v + 1#8
  (res, packF (res == 0#8) false (lowNibble v == 0xF) (flagC f))

/-- DEC's result and F: C is not written (R628). -/
def dec8 (v f : Byte) : Byte × Byte :=
  let res := v - 1#8
  (res, packF (res == 0#8) true (lowNibble v == 0x0) (flagC f))

/-- AND's result and F (R614). -/
def and8 (a b : Byte) : Byte × Byte :=
  let res := a &&& b
  (res, packF (res == 0#8) false true false)

/-- XOR's result and F (R617). -/
def xor8 (a b : Byte) : Byte × Byte :=
  let res := a ^^^ b
  (res, packF (res == 0#8) false false false)

/-- OR's result and F (R620). -/
def or8 (a b : Byte) : Byte × Byte :=
  let res := a ||| b
  (res, packF (res == 0#8) false false false)

/-- DAA's result and F (R630). -/
def daa8 (a f : Byte) : Byte × Byte :=
  let n := flagN f
  let carry := flagC f || (!n && decide (0x99 < a.toNat))
  let high := if !n && carry then a + 0x60#8 else if n && flagC f then a - 0x60#8 else a
  let res :=
    if !n && (flagH f || decide (0x09 < lowNibble high)) then high + 0x06#8
    else if n && flagH f then high - 0x06#8
    else high
  (res, packF (res == 0#8) n false carry)

/-- CPL's F: N and H set, Z and C kept (R631). -/
def cplF (f : Byte) : Byte := packF (flagZ f) true true (flagC f)

/-- SCF's F (R632). -/
def scfF (f : Byte) : Byte := packF (flagZ f) false false true

/-- CCF's F (R633). -/
def ccfF (f : Byte) : Byte := packF (flagZ f) false false (!flagC f)

/-! ### 16-bit arithmetic -/

/-- `sext_16(v)` (R11). -/
def sext16 (v : Byte) : Word := v.signExtend 16

/-- ADD HL,rr: the sum and F, H from bit 11, C from bit 15, Z kept (R700). -/
def addHl16 (a b : Word) (f : Byte) : Word × Byte :=
  let s := a.toNat + b.toNat
  (BitVec.ofNat 16 s,
    packF (flagZ f) false (decide (0x0FFF < a.toNat % 0x1000 + b.toNat % 0x1000)) (decide (0xFFFF < s)))

/-- `sp_e8(s, e)`: the sum and F, which comes from the unsigned addition of `e` to the low byte (R705). -/
def spE8 (s : Word) (e : Byte) : Word × Byte :=
  (s + sext16 e,
    packF false false (decide (0x0F < s.toNat % 16 + lowNibble e)) (decide (0xFF < s.toNat % 256 + e.toNat)))

/-! ### Rotates, shifts, bits: the result and the bit shifted out -/

/-- A flag as the bit 0 of a byte. -/
def bit0 (c : Bool) : Byte := (BitVec.ofBool c).setWidth 8

/-- RLC (R800, R805). -/
def rlc8 (v : Byte) : Byte × Bool :=
  let co := v.getLsbD 7
  ((v <<< 1) ||| bit0 co, co)

/-- RRC (R801, R807). -/
def rrc8 (v : Byte) : Byte × Bool :=
  let co := v.getLsbD 0
  ((v >>> 1) ||| (bit0 co <<< 7), co)

/-- RL through the old carry (R802, R809). -/
def rl8 (v : Byte) (cy : Bool) : Byte × Bool := ((v <<< 1) ||| bit0 cy, v.getLsbD 7)

/-- RR through the old carry (R803, R811). -/
def rr8 (v : Byte) (cy : Bool) : Byte × Bool := ((v >>> 1) ||| (bit0 cy <<< 7), v.getLsbD 0)

/-- SLA (R813). -/
def sla8 (v : Byte) : Byte × Bool := (v <<< 1, v.getLsbD 7)

/-- SRA: bit 7 is kept (R815). -/
def sra8 (v : Byte) : Byte × Bool := ((v >>> 1) ||| (v &&& 0x80#8), v.getLsbD 0)

/-- SWAP: C is always cleared (R817). -/
def swap8 (v : Byte) : Byte × Bool := ((v <<< 4) ||| (v >>> 4), false)

/-- SRL (R819). -/
def srl8 (v : Byte) : Byte × Bool := (v >>> 1, v.getLsbD 0)

/-- F after a secondary-table rotate, shift or SWAP: Z computed, N and H clear, C the bit shifted out. -/
def shiftF (r : Byte × Bool) : Byte := packF (r.1 == 0#8) false false r.2

/-- F after an accumulator rotate: Z is always cleared (R800). -/
def accRotF (r : Byte × Bool) : Byte := packF false false false r.2

/-- F after BIT: Z the complement of the bit, C kept (R821). -/
def bitF (u3 : BitVec 3) (v f : Byte) : Byte := packF (!v.getLsbD u3.toNat) false true (flagC f)

/-- `v & ~(1 << b)` (R823). -/
def resBit (u3 : BitVec 3) (v : Byte) : Byte := v &&& ~~~(1#8 <<< u3.toNat)

/-- `v | (1 << b)` (R825). -/
def setBit (u3 : BitVec 3) (v : Byte) : Byte := v ||| (1#8 <<< u3.toNat)

end Sys2Proof.Machine
end

