-- ==== Sys2Proof/Machine/Operands.lean ====
section
/-! DEFINITION. Operands: the registers and their pair views, F, the conditions, the high page. -/

namespace Sys2Proof.Machine

/-- `x[r]` for a general register (R12, R100). -/
def State.getR8 (s : State) : Reg8 → Byte
  | .b => s.b
  | .c => s.c
  | .d => s.d
  | .e => s.e
  | .h => s.h
  | .l => s.l
  | .a => s.a

/-- `x[r] <- v` for a general register: writes no flag (R12, R102). -/
def State.setR8 (s : State) (r : Reg8) (v : Byte) : State :=
  match r with
  | .b => { s with b := v }
  | .c => { s with c := v }
  | .d => { s with d := v }
  | .e => { s with e := v }
  | .h => { s with h := v }
  | .l => { s with l := v }
  | .a => { s with a := v }

/-- `x[F]`: bits 3:0 read 0 (R104). -/
def State.getF (s : State) : Byte := maskF s.f

/-- `x[F] <- v`: the low nibble is discarded (R104, D29). -/
def State.setF (s : State) (v : Byte) : State := { s with f := maskF v }

/-- The carry flag an instruction reads. -/
def State.cy (s : State) : Bool := flagC s.f

/-- A and F together: what an accumulator instruction writes. -/
def State.setAF (s : State) (r : Byte × Byte) : State := { s.setF r.2 with a := r.1 }

/-- BC (R101). -/
def State.bcPair (s : State) : Word := joinBytes s.b s.c

/-- DE (R101). -/
def State.dePair (s : State) : Word := joinBytes s.d s.e

/-- HL (R101). -/
def State.hlPair (s : State) : Word := joinBytes s.h s.l

/-- AF (R101, R104). -/
def State.afPair (s : State) : Word := joinBytes s.a s.getF

/-- `x[BC] <- v` (R101). -/
def State.setBc (s : State) (v : Word) : State := { s with b := hiByte v, c := loByte v }

/-- `x[DE] <- v` (R101). -/
def State.setDe (s : State) (v : Word) : State := { s with d := hiByte v, e := loByte v }

/-- `x[HL] <- v` (R101). -/
def State.setHl (s : State) (v : Word) : State := { s with h := hiByte v, l := loByte v }

/-- `x[AF] <- v`: R104 applies to the low half (R12, R531). -/
def State.setAf (s : State) (v : Word) : State := { s.setF (loByte v) with a := hiByte v }

/-- A 16-bit operand of table `rp` (R305). -/
def State.getRp (s : State) : Rp → Word
  | .bc => s.bcPair
  | .de => s.dePair
  | .hl => s.hlPair
  | .sp => s.sp

/-- A write to an operand of table `rp` (R305): no flag. -/
def State.setRp (s : State) (rr : Rp) (v : Word) : State :=
  match rr with
  | .bc => s.setBc v
  | .de => s.setDe v
  | .hl => s.setHl v
  | .sp => { s with sp := v }

/-- The pair PUSH reads (R305, R530). -/
def State.getRp2 (s : State) : Rp2 → Word
  | .bc => s.bcPair
  | .de => s.dePair
  | .hl => s.hlPair
  | .af => s.afPair

/-- The pair `pop rr` writes (R532). -/
def State.setPair (s : State) (rr : Pair) (v : Word) : State :=
  match rr with
  | .bc => s.setBc v
  | .de => s.setDe v
  | .hl => s.setHl v

/-- `cond(cc)`: reads F only (R900). -/
def State.cond (s : State) : Cond → Bool
  | .nz => !flagZ s.f
  | .z => flagZ s.f
  | .nc => !flagC s.f
  | .c => flagC s.f

/-- `0xFF00 + a8` (R310). -/
def highPage (n : Byte) : Word := 0xFF00#16 + n.setWidth 16

/-- The byte at HL as the operand of an instruction (R304). -/
def State.hlByte (s : State) : Byte := s.peek s.hlPair

end Sys2Proof.Machine
end

