-- ==== Sys2Proof/Machine/Ops.lean ====
section
/-! DEFINITION. The shared operations: fetching bytes, the stack, cycle accounting, the interrupt controller, taking an
interrupt or the illegal-opcode fault, and the return from an interrupt. -/

namespace Sys2Proof.Machine

/-- The cycle count a step reports and the total (R113, R409). -/
def State.charge (s : State) (n : Nat) : State := { s with stepCycles := n, cycleTotal := s.cycleTotal + n }

/-! ### Fetching (R14) -/

/-- The byte `fetch8()` returns. -/
def State.fetchByte (s : State) : Byte := s.peek s.pc

/-- The state after `fetch8()`: the byte is read, then PC advances modulo 2^16 (R14, R107). -/
def State.fetched (s : State) : State := { s.tick with pc := s.pc + 1#16 }

/-! ### The stack (R529) -/

/-- `push16(v)`: high byte first, then low byte, each pre-decrementing SP. -/
def State.push16 (s : State) (v : Word) : State :=
  let s1 := { s with sp := s.sp - 1#16 }
  let s2 := s1.write s1.sp (hiByte v)
  let s3 := { s2 with sp := s2.sp - 1#16 }
  s3.write s3.sp (loByte v)

/-- The word `pop16()` returns: low byte first, then high byte. -/
def State.popWord (s : State) : Word := joinBytes (s.tick.peek (s.sp + 1#16)) (s.peek s.sp)

/-- The state after `pop16()`: two reads, SP twice incremented. -/
def State.popped (s : State) : State := { s.tick.tick with sp := s.sp + 2#16 }

/-! ### The interrupt controller -/

/-- The bit of a kind in IE and IF (R1106). -/
def Interrupt.bit : Interrupt → Nat
  | .vblank => 0
  | .lcdStat => 1
  | .timer => 2
  | .serial => 3
  | .joypad => 4

/-- The vector of a kind: `0x0040 + 8 * k` (R1106). -/
def Interrupt.vector (k : Interrupt) : Word := 0x0040#16 + BitVec.ofNat 16 (8 * k.bit)

/-- `request(kind)` sets its IF bit (R1107). -/
def State.request (s : State) (k : Interrupt) : State := { s with iF := s.iF ||| (1#5 <<< k.bit) }

/-- `clear(kind)` clears its IF bit and no other (R1107, R1111). -/
def State.clearRequest (s : State) (k : Interrupt) : State := { s with iF := s.iF &&& ~~~(1#5 <<< k.bit) }

/-- `pending() = IE & IF & 0x1F` (R1108). -/
def State.pending (s : State) : BitVec 5 := s.ie.extractLsb' 0 5 &&& s.iF

/-- The kind of the lowest set bit of `pending()`, if any (R1109). -/
def State.highestPriority (s : State) : Option Interrupt :=
  [Interrupt.vblank, .lcdStat, .timer, .serial, .joypad].find? (fun k => s.pending.getLsbD k.bit)

/-! ### Taking an interrupt, taking the fault, returning -/

/-- Interrupt dispatch for the kind chosen before the push (R1111, D14): push PC, disable, jump to the vector, clear that one
request bit (of IF as the push leaves it; DEDUCED, assumption 23), five cycle-units. -/
def State.dispatch (s : State) (k : Interrupt) : State :=
  let t := s.push16 s.pc
  State.charge { t.clearRequest k with ime := false, imeDelay := false, pc := k.vector } 5

/-- `raise IllegalOpcode(op, addr)`: the CPU enters the faulted state and nothing else changes, no cycle is charged (R15,
R1006, R1104). -/
def State.raiseIllegal (s : State) (op : Byte) (addr : Word) : State := { s with haltState := .faulted op addr }

/-- A return: `pc <- pop16()` (R908). -/
def State.return16 (s : State) : State := { s.popped with pc := s.popWord }

/-- A return from an interrupt: a return that sets `ime` at once (R910, R1113). -/
def State.returnEnable (s : State) : State := { s.return16 with ime := true }

/-- `push16(pc); pc <- target` (R906, R911). -/
def State.callTo (s : State) (target : Word) : State := { s.push16 s.pc with pc := target }

/-- `pc <- (pc + sext_16(e)) mod 2^16` (R904). -/
def State.jumpBy (s : State) (e : Byte) : State := { s with pc := s.pc + sext16 e }

end Sys2Proof.Machine
end

