-- ==== Sys2Proof/Machine/Alu16.lean ====
section
/-! DEFINITION. 16-bit arithmetic: 43_alu16.md. Every meaning runs after the fetch of the whole instruction (R400, R411). -/

namespace Sys2Proof.Machine

/-- `add HL, rr` (R700). -/
def execAddHlRp (rr : Rp) (s : State) : Result :=
  .next (((s.setHl (addHl16 s.hlPair (s.getRp rr) s.f).1).setF (addHl16 s.hlPair (s.getRp rr) s.f).2).charge 2)

/-- `inc rr`: one 16-bit operation, no flag (R701). -/
def execIncRp (rr : Rp) (s : State) : Result :=
  .next ((s.setRp rr (s.getRp rr + 1#16)).charge 2)

/-- `dec rr`: one 16-bit operation, no flag (R702). -/
def execDecRp (rr : Rp) (s : State) : Result :=
  .next ((s.setRp rr (s.getRp rr - 1#16)).charge 2)

/-- `add SP, e8` (R703). -/
def execAddSpE (e : Byte) (s : State) : Result :=
  .next (State.charge { s.setF (spE8 s.sp e).2 with sp := (spE8 s.sp e).1 } 4)

/-- `ld HL, SP+e8`: SP is not changed (R704). -/
def execLdHlSpE (e : Byte) (s : State) : Result :=
  .next (((s.setF (spE8 s.sp e).2).setHl (spE8 s.sp e).1).charge 3)

end Sys2Proof.Machine
end

