-- ==== Sys2Proof/Machine/Alu8.lean ====
section
/-! DEFINITION. 8-bit arithmetic and logic: 42_alu8.md. Every meaning runs after the fetch of the whole instruction (R400, R411). -/

namespace Sys2Proof.Machine

/-- `add A, r` (R602). -/
def execAddR (r : Reg8) (s : State) : Result :=
  .next ((s.setAF (add8 s.a (s.getR8 r) false)).charge 1)

/-- `add A, [HL]` (R603). -/
def execAddHl (s : State) : Result :=
  .next ((s.tick.setAF (add8 s.a s.hlByte false)).charge 2)

/-- `add A, n8` (R604). -/
def execAddN (n : Byte) (s : State) : Result :=
  .next ((s.setAF (add8 s.a n false)).charge 2)

/-- `adc A, r` (R605). -/
def execAdcR (r : Reg8) (s : State) : Result :=
  .next ((s.setAF (add8 s.a (s.getR8 r) s.cy)).charge 1)

/-- `adc A, [HL]` (R606). -/
def execAdcHl (s : State) : Result :=
  .next ((s.tick.setAF (add8 s.a s.hlByte s.cy)).charge 2)

/-- `adc A, n8` (R607). -/
def execAdcN (n : Byte) (s : State) : Result :=
  .next ((s.setAF (add8 s.a n s.cy)).charge 2)

/-- `sub A, r` (R608). -/
def execSubR (r : Reg8) (s : State) : Result :=
  .next ((s.setAF (sub8 s.a (s.getR8 r) false)).charge 1)

/-- `sub A, [HL]` (R609). -/
def execSubHl (s : State) : Result :=
  .next ((s.tick.setAF (sub8 s.a s.hlByte false)).charge 2)

/-- `sub A, n8` (R610). -/
def execSubN (n : Byte) (s : State) : Result :=
  .next ((s.setAF (sub8 s.a n false)).charge 2)

/-- `sbc A, r` (R611). -/
def execSbcR (r : Reg8) (s : State) : Result :=
  .next ((s.setAF (sub8 s.a (s.getR8 r) s.cy)).charge 1)

/-- `sbc A, [HL]` (R612). -/
def execSbcHl (s : State) : Result :=
  .next ((s.tick.setAF (sub8 s.a s.hlByte s.cy)).charge 2)

/-- `sbc A, n8` (R613). -/
def execSbcN (n : Byte) (s : State) : Result :=
  .next ((s.setAF (sub8 s.a n s.cy)).charge 2)

/-- `and A, r` (R614). -/
def execAndR (r : Reg8) (s : State) : Result :=
  .next ((s.setAF (and8 s.a (s.getR8 r))).charge 1)

/-- `and A, [HL]` (R615). -/
def execAndHl (s : State) : Result :=
  .next ((s.tick.setAF (and8 s.a s.hlByte)).charge 2)

/-- `and A, n8` (R616). -/
def execAndN (n : Byte) (s : State) : Result :=
  .next ((s.setAF (and8 s.a n)).charge 2)

/-- `xor A, r` (R617). -/
def execXorR (r : Reg8) (s : State) : Result :=
  .next ((s.setAF (xor8 s.a (s.getR8 r))).charge 1)

/-- `xor A, [HL]` (R618). -/
def execXorHl (s : State) : Result :=
  .next ((s.tick.setAF (xor8 s.a s.hlByte)).charge 2)

/-- `xor A, n8` (R619). -/
def execXorN (n : Byte) (s : State) : Result :=
  .next ((s.setAF (xor8 s.a n)).charge 2)

/-- `or A, r` (R620). -/
def execOrR (r : Reg8) (s : State) : Result :=
  .next ((s.setAF (or8 s.a (s.getR8 r))).charge 1)

/-- `or A, [HL]` (R621). -/
def execOrHl (s : State) : Result :=
  .next ((s.tick.setAF (or8 s.a s.hlByte)).charge 2)

/-- `or A, n8` (R622). -/
def execOrN (n : Byte) (s : State) : Result :=
  .next ((s.setAF (or8 s.a n)).charge 2)

/-- `cp A, r`: A is not written (R623). -/
def execCpR (r : Reg8) (s : State) : Result :=
  .next ((s.setF (sub8 s.a (s.getR8 r) false).2).charge 1)

/-- `cp A, [HL]`: A is not written (R624). -/
def execCpHl (s : State) : Result :=
  .next ((s.tick.setF (sub8 s.a s.hlByte false).2).charge 2)

/-- `cp A, n8`: A is not written (R625). -/
def execCpN (n : Byte) (s : State) : Result :=
  .next ((s.setF (sub8 s.a n false).2).charge 2)

/-- `inc r` (R626). -/
def execIncR (r : Reg8) (s : State) : Result :=
  .next (((s.setR8 r (inc8 (s.getR8 r) s.f).1).setF (inc8 (s.getR8 r) s.f).2).charge 1)

/-- `inc [HL]`: one read, then one write (R627, R219). -/
def execIncHl (s : State) : Result :=
  .next (((s.tick.write s.hlPair (inc8 s.hlByte s.f).1).setF (inc8 s.hlByte s.f).2).charge 3)

/-- `dec r` (R628). -/
def execDecR (r : Reg8) (s : State) : Result :=
  .next (((s.setR8 r (dec8 (s.getR8 r) s.f).1).setF (dec8 (s.getR8 r) s.f).2).charge 1)

/-- `dec [HL]`: one read, then one write (R629, R219). -/
def execDecHl (s : State) : Result :=
  .next (((s.tick.write s.hlPair (dec8 s.hlByte s.f).1).setF (dec8 s.hlByte s.f).2).charge 3)

/-- `daa` (R630). -/
def execDaa (s : State) : Result :=
  .next ((s.setAF (daa8 s.a s.f)).charge 1)

/-- `cpl` (R631). -/
def execCpl (s : State) : Result :=
  .next ((s.setAF (~~~s.a, cplF s.f)).charge 1)

/-- `scf` (R632). -/
def execScf (s : State) : Result :=
  .next ((s.setF (scfF s.f)).charge 1)

/-- `ccf` (R633). -/
def execCcf (s : State) : Result :=
  .next ((s.setF (ccfF s.f)).charge 1)

end Sys2Proof.Machine
end

