-- ==== Sys2Proof/Machine/Control.lean ====
section
/-! DEFINITION. Jumps, calls, returns and restarts: 45_control.md. PC is past the whole instruction, immediates included, when a meaning runs,
whether or not its condition holds (R900). No flag is written. -/

namespace Sys2Proof.Machine

/-- `vec = y * 8` (R307). -/
def rstVector (y : BitVec 3) : Word := BitVec.ofNat 16 (8 * y.toNat)

/-- `jp a16` (R901). -/
def execJp (addr : Word) (s : State) : Result :=
  .next (State.charge { s with pc := addr } 4)

/-- `jp cc, a16` (R902). -/
def execJpCc (cc : Cond) (addr : Word) (s : State) : Result :=
  .next (if s.cond cc then State.charge { s with pc := addr } 4 else s.charge 3)

/-- `jp HL`: it reads no memory (R903). -/
def execJpHl (s : State) : Result :=
  .next (State.charge { s with pc := s.hlPair } 1)

/-- `jr e8` (R904). -/
def execJr (e : Byte) (s : State) : Result :=
  .next ((s.jumpBy e).charge 3)

/-- `jr cc, e8` (R905). -/
def execJrCc (cc : Cond) (e : Byte) (s : State) : Result :=
  .next (if s.cond cc then (s.jumpBy e).charge 3 else s.charge 2)

/-- `call a16` (R906). -/
def execCall (addr : Word) (s : State) : Result :=
  .next ((s.callTo addr).charge 6)

/-- `call cc, a16`: not taken, no stack access (R907). -/
def execCallCc (cc : Cond) (addr : Word) (s : State) : Result :=
  .next (if s.cond cc then (s.callTo addr).charge 6 else s.charge 3)

/-- `ret` (R908). -/
def execRet (s : State) : Result :=
  .next (s.return16.charge 4)

/-- `ret cc`: not taken, no stack access (R909). -/
def execRetCc (cc : Cond) (s : State) : Result :=
  .next (if s.cond cc then s.return16.charge 5 else s.charge 2)

/-- `reti`: `ime` at once, `ime_delay` not changed (R910). -/
def execReti (s : State) : Result :=
  .next (s.returnEnable.charge 4)

/-- `rst vec` (R911). -/
def execRst (y : BitVec 3) (s : State) : Result :=
  .next ((s.callTo (rstVector y)).charge 4)

end Sys2Proof.Machine
end

