-- ==== Sys2Proof/Machine/LoadStore.lean ====
section
/-! DEFINITION. Loads, stores and the stack: 41_load_store.md. Every meaning runs after the fetch of the whole instruction (R400, R411), so PC
already holds the address of the next one. No flag is written but by POP AF. -/

namespace Sys2Proof.Machine

/-- `ld r, r'` (R500). -/
def execLdRR (dst r : Reg8) (s : State) : Result :=
  .next ((s.setR8 dst (s.getR8 r)).charge 1)

/-- `ld r, n8` (R501). -/
def execLdRN (dst : Reg8) (n : Byte) (s : State) : Result :=
  .next ((s.setR8 dst n).charge 2)

/-- `ld r, [HL]`: the address is computed before the write (R502). -/
def execLdRHl (dst : Reg8) (s : State) : Result :=
  .next ((s.tick.setR8 dst s.hlByte).charge 2)

/-- `ld [HL], r` (R503). -/
def execLdHlR (r : Reg8) (s : State) : Result :=
  .next ((s.write s.hlPair (s.getR8 r)).charge 2)

/-- `ld [HL], n8` (R504). -/
def execLdHlN (n : Byte) (s : State) : Result :=
  .next ((s.write s.hlPair n).charge 3)

/-- `ld A, [BC]` (R505). -/
def execLdABc (s : State) : Result :=
  .next ((s.tick.setR8 .a (s.peek s.bcPair)).charge 2)

/-- `ld A, [DE]` (R506). -/
def execLdADe (s : State) : Result :=
  .next ((s.tick.setR8 .a (s.peek s.dePair)).charge 2)

/-- `ld [BC], A` (R507). -/
def execLdBcA (s : State) : Result :=
  .next ((s.write s.bcPair s.a).charge 2)

/-- `ld [DE], A` (R508). -/
def execLdDeA (s : State) : Result :=
  .next ((s.write s.dePair s.a).charge 2)

/-- `ld A, [a16]` (R509). -/
def execLdAA16 (addr : Word) (s : State) : Result :=
  .next ((s.tick.setR8 .a (s.peek addr)).charge 4)

/-- `ld [a16], A` (R510). -/
def execLdA16A (addr : Word) (s : State) : Result :=
  .next ((s.write addr s.a).charge 4)

/-- `ldh A, [a8]` (R511). -/
def execLdhAA8 (n : Byte) (s : State) : Result :=
  .next ((s.tick.setR8 .a (s.peek (highPage n))).charge 3)

/-- `ldh [a8], A` (R512). -/
def execLdhA8A (n : Byte) (s : State) : Result :=
  .next ((s.write (highPage n) s.a).charge 3)

/-- `ldh A, [C]` (R513). -/
def execLdhAC (s : State) : Result :=
  .next ((s.tick.setR8 .a (s.peek (highPage s.c))).charge 2)

/-- `ldh [C], A` (R514). -/
def execLdhCA (s : State) : Result :=
  .next ((s.write (highPage s.c) s.a).charge 2)

/-- `ld A, [HL+]` (R515). -/
def execLdAHli (s : State) : Result :=
  .next (((s.tick.setR8 .a s.hlByte).setHl (s.hlPair + 1#16)).charge 2)

/-- `ld A, [HL-]` (R516). -/
def execLdAHld (s : State) : Result :=
  .next (((s.tick.setR8 .a s.hlByte).setHl (s.hlPair - 1#16)).charge 2)

/-- `ld [HL+], A` (R517). -/
def execLdHliA (s : State) : Result :=
  .next (((s.write s.hlPair s.a).setHl (s.hlPair + 1#16)).charge 2)

/-- `ld [HL-], A` (R518). -/
def execLdHldA (s : State) : Result :=
  .next (((s.write s.hlPair s.a).setHl (s.hlPair - 1#16)).charge 2)

/-- `ld rr, n16` (R520). -/
def execLdRpN (rr : Rp) (n : Word) (s : State) : Result :=
  .next ((s.setRp rr n).charge 3)

/-- `ld [a16], SP`: low byte first, the second address modulo 2^16 (R521). -/
def execLdA16Sp (addr : Word) (s : State) : Result :=
  .next (((s.write addr (loByte s.sp)).write (addr + 1#16) (hiByte s.sp)).charge 5)

/-- `ld SP, HL` (R522). -/
def execLdSpHl (s : State) : Result :=
  .next (State.charge { s with sp := s.hlPair } 2)

/-- `push rr` (R530). -/
def execPush (rr : Rp2) (s : State) : Result :=
  .next ((s.push16 (s.getRp2 rr)).charge 4)

/-- `pop AF`: bits 3:0 of F stay 0 (R531). -/
def execPopAf (s : State) : Result :=
  .next ((s.popped.setAf s.popWord).charge 3)

/-- `pop rr` (R532). -/
def execPop (rr : Pair) (s : State) : Result :=
  .next ((s.popped.setPair rr s.popWord).charge 3)

end Sys2Proof.Machine
end

