-- ==== Sys2Proof/Machine/Bits.lean ====
section
/-! DEFINITION. Rotates, shifts and bit operations: 44_cb_rotate_shift_bit.md. Every meaning runs after the fetch of the whole instruction
(R400, R411). -/

namespace Sys2Proof.Machine

/-- An accumulator rotate (R800 to R803). -/
def State.accRotate (s : State) (r : Byte × Bool) : State := (s.setAF (r.1, accRotF r)).charge 1

/-- A rotate, shift or SWAP that writes register `r` (R804). -/
def State.shiftReg (s : State) (dst : Reg8) (r : Byte × Bool) : State := ((s.setR8 dst r.1).setF (shiftF r)).charge 2

/-- A rotate, shift or SWAP on the byte at HL: one read, then one write to the same address (R804). -/
def State.shiftHl (s : State) (r : Byte × Bool) : State := ((s.tick.write s.hlPair r.1).setF (shiftF r)).charge 4

/-- `rlca` (R800). -/
def execRlca (s : State) : Result :=
  .next (s.accRotate (rlc8 s.a))

/-- `rrca` (R801). -/
def execRrca (s : State) : Result :=
  .next (s.accRotate (rrc8 s.a))

/-- `rla` (R802). -/
def execRla (s : State) : Result :=
  .next (s.accRotate (rl8 s.a s.cy))

/-- `rra` (R803). -/
def execRra (s : State) : Result :=
  .next (s.accRotate (rr8 s.a s.cy))

/-- `rlc r` (R805). -/
def execRlcR (r : Reg8) (s : State) : Result :=
  .next (s.shiftReg r (rlc8 (s.getR8 r)))

/-- `rlc [HL]` (R806). -/
def execRlcHl (s : State) : Result :=
  .next (s.shiftHl (rlc8 s.hlByte))

/-- `rrc r` (R807). -/
def execRrcR (r : Reg8) (s : State) : Result :=
  .next (s.shiftReg r (rrc8 (s.getR8 r)))

/-- `rrc [HL]` (R808). -/
def execRrcHl (s : State) : Result :=
  .next (s.shiftHl (rrc8 s.hlByte))

/-- `rl r` (R809). -/
def execRlR (r : Reg8) (s : State) : Result :=
  .next (s.shiftReg r (rl8 (s.getR8 r) s.cy))

/-- `rl [HL]` (R810). -/
def execRlHl (s : State) : Result :=
  .next (s.shiftHl (rl8 s.hlByte s.cy))

/-- `rr r` (R811). -/
def execRrR (r : Reg8) (s : State) : Result :=
  .next (s.shiftReg r (rr8 (s.getR8 r) s.cy))

/-- `rr [HL]` (R812). -/
def execRrHl (s : State) : Result :=
  .next (s.shiftHl (rr8 s.hlByte s.cy))

/-- `sla r` (R813). -/
def execSlaR (r : Reg8) (s : State) : Result :=
  .next (s.shiftReg r (sla8 (s.getR8 r)))

/-- `sla [HL]` (R814). -/
def execSlaHl (s : State) : Result :=
  .next (s.shiftHl (sla8 s.hlByte))

/-- `sra r` (R815). -/
def execSraR (r : Reg8) (s : State) : Result :=
  .next (s.shiftReg r (sra8 (s.getR8 r)))

/-- `sra [HL]` (R816). -/
def execSraHl (s : State) : Result :=
  .next (s.shiftHl (sra8 s.hlByte))

/-- `swap r` (R817). -/
def execSwapR (r : Reg8) (s : State) : Result :=
  .next (s.shiftReg r (swap8 (s.getR8 r)))

/-- `swap [HL]` (R818). -/
def execSwapHl (s : State) : Result :=
  .next (s.shiftHl (swap8 s.hlByte))

/-- `srl r` (R819). -/
def execSrlR (r : Reg8) (s : State) : Result :=
  .next (s.shiftReg r (srl8 (s.getR8 r)))

/-- `srl [HL]` (R820). -/
def execSrlHl (s : State) : Result :=
  .next (s.shiftHl (srl8 s.hlByte))

/-- `bit b, r` (R821). -/
def execBitR (u3 : BitVec 3) (r : Reg8) (s : State) : Result :=
  .next ((s.setF (bitF u3 (s.getR8 r) s.f)).charge 2)

/-- `bit b, [HL]`: one read, no write (R822). -/
def execBitHl (u3 : BitVec 3) (s : State) : Result :=
  .next ((s.tick.setF (bitF u3 s.hlByte s.f)).charge 3)

/-- `res b, r` (R823). -/
def execResR (u3 : BitVec 3) (r : Reg8) (s : State) : Result :=
  .next ((s.setR8 r (resBit u3 (s.getR8 r))).charge 2)

/-- `res b, [HL]`: the write happens even when the bit was 0 (R824). -/
def execResHl (u3 : BitVec 3) (s : State) : Result :=
  .next ((s.tick.write s.hlPair (resBit u3 s.hlByte)).charge 4)

/-- `set b, r` (R825). -/
def execSetR (u3 : BitVec 3) (r : Reg8) (s : State) : Result :=
  .next ((s.setR8 r (setBit u3 (s.getR8 r))).charge 2)

/-- `set b, [HL]`: the write happens even when the bit was 1 (R826). -/
def execSetHl (u3 : BitVec 3) (s : State) : Result :=
  .next ((s.tick.write s.hlPair (setBit u3 s.hlByte)).charge 4)

end Sys2Proof.Machine
end

