-- ==== Sys2Proof/Machine/System.lean ====
section
/-! DEFINITION. Control of the CPU state: 46_system.md, with the escape to the secondary table. -/

namespace Sys2Proof.Machine

/-- `nop` (R1000). -/
def execNop (s : State) : Result :=
  .next (s.charge 1)

/-- `halt` (R1001): with the halt bug, `ime = 0` and a request pending it does not halt, and the next opcode byte is repeated
(R402, D8). -/
def execHalt (s : State) : Result :=
  if s.params.haltBug && !s.ime && s.pending != 0#5 then .next (State.charge { s with haltBugPending := true } 1)
  else .next (State.charge { s with haltState := .halted } 1)

/-- `stop`: the second byte, fetched with the instruction, is ignored whatever it is (R1002, R315). -/
def execStop (_n : Byte) (s : State) : Result :=
  .next (State.charge { s with haltState := .stopped } 1)

/-- `di` (R1003). -/
def execDi (s : State) : Result :=
  .next (State.charge { s with ime := false, imeDelay := false } 1)

/-- `ei`: the enable comes one instruction late (R1004, R401). -/
def execEi (s : State) : Result :=
  .next (State.charge { s with imeDelay := true } 1)

/-- An illegal opcode takes the fault of R1104: no byte after it is fetched, no cycle is charged (R1006). -/
def execIllegal (op : Byte) (s : State) : Result :=
  .next (s.raiseIllegal op s.start)

/-- Table `rot` (R309) as meanings on a register. -/
def execRotR (y : BitVec 3) (r : Reg8) (s : State) : Result :=
  match y with
  | 0#3 => execRlcR r s
  | 1#3 => execRrcR r s
  | 2#3 => execRlR r s
  | 3#3 => execRrR r s
  | 4#3 => execSlaR r s
  | 5#3 => execSraR r s
  | 6#3 => execSwapR r s
  | _ => execSrlR r s

/-- Table `rot` (R309) as meanings on the byte at HL. -/
def execRotHl (y : BitVec 3) (s : State) : Result :=
  match y with
  | 0#3 => execRlcHl s
  | 1#3 => execRrcHl s
  | 2#3 => execRlHl s
  | 3#3 => execRrHl s
  | 4#3 => execSlaHl s
  | 5#3 => execSraHl s
  | 6#3 => execSwapHl s
  | _ => execSrlHl s

/-- "execute the rule of 44_cb_rotate_shift_bit.md for op2" (R1005, R303, R313). -/
def execSecondary (op2 : Byte) (s : State) : Result :=
  match fieldX op2, r8Table (fieldZ op2) with
  | 0#2, .reg r => execRotR (fieldY op2) r s
  | 0#2, .hl => execRotHl (fieldY op2) s
  | 1#2, .reg r => execBitR (fieldY op2) r s
  | 1#2, .hl => execBitHl (fieldY op2) s
  | 2#2, .reg r => execResR (fieldY op2) r s
  | 2#2, .hl => execResHl (fieldY op2) s
  | _, .reg r => execSetR (fieldY op2) r s
  | _, .hl => execSetHl (fieldY op2) s

/-- The escape byte: `op2 <- fetch8()`, then the secondary instruction, whose cost is the pair's (R1005). The decoder reads
a whole pair as its secondary instruction, so `step` runs that one; this is the meaning of the escape alone. -/
def execPrefixCb (s : State) : Result :=
  execSecondary s.fetchByte s.fetched

end Sys2Proof.Machine
end

