-- ==== Sys2Proof/Machine/Dispatch.lean ====
section
/-! DEFINITION. One arm per instruction. -/

namespace Sys2Proof.Machine

/-- What an instruction does once it has been fetched (R400, R411). -/
def exec (i : Instr) (s : State) : Host.Outcome State Fault Refusal :=
  match i with
  | .ldRR dst r => Sys2Proof.Machine.execLdRR dst r s
  | .ldRN dst n => Sys2Proof.Machine.execLdRN dst n s
  | .ldRHl dst => Sys2Proof.Machine.execLdRHl dst s
  | .ldHlR r => Sys2Proof.Machine.execLdHlR r s
  | .ldHlN n => Sys2Proof.Machine.execLdHlN n s
  | .ldABc => Sys2Proof.Machine.execLdABc s
  | .ldADe => Sys2Proof.Machine.execLdADe s
  | .ldBcA => Sys2Proof.Machine.execLdBcA s
  | .ldDeA => Sys2Proof.Machine.execLdDeA s
  | .ldAA16 addr => Sys2Proof.Machine.execLdAA16 addr s
  | .ldA16A addr => Sys2Proof.Machine.execLdA16A addr s
  | .ldhAA8 n => Sys2Proof.Machine.execLdhAA8 n s
  | .ldhA8A n => Sys2Proof.Machine.execLdhA8A n s
  | .ldhAC => Sys2Proof.Machine.execLdhAC s
  | .ldhCA => Sys2Proof.Machine.execLdhCA s
  | .ldAHli => Sys2Proof.Machine.execLdAHli s
  | .ldAHld => Sys2Proof.Machine.execLdAHld s
  | .ldHliA => Sys2Proof.Machine.execLdHliA s
  | .ldHldA => Sys2Proof.Machine.execLdHldA s
  | .ldRpN rr n => Sys2Proof.Machine.execLdRpN rr n s
  | .ldA16Sp addr => Sys2Proof.Machine.execLdA16Sp addr s
  | .ldSpHl => Sys2Proof.Machine.execLdSpHl s
  | .push rr => Sys2Proof.Machine.execPush rr s
  | .popAf => Sys2Proof.Machine.execPopAf s
  | .pop rr => Sys2Proof.Machine.execPop rr s
  | .addR r => Sys2Proof.Machine.execAddR r s
  | .addHl => Sys2Proof.Machine.execAddHl s
  | .addN n => Sys2Proof.Machine.execAddN n s
  | .adcR r => Sys2Proof.Machine.execAdcR r s
  | .adcHl => Sys2Proof.Machine.execAdcHl s
  | .adcN n => Sys2Proof.Machine.execAdcN n s
  | .subR r => Sys2Proof.Machine.execSubR r s
  | .subHl => Sys2Proof.Machine.execSubHl s
  | .subN n => Sys2Proof.Machine.execSubN n s
  | .sbcR r => Sys2Proof.Machine.execSbcR r s
  | .sbcHl => Sys2Proof.Machine.execSbcHl s
  | .sbcN n => Sys2Proof.Machine.execSbcN n s
  | .andR r => Sys2Proof.Machine.execAndR r s
  | .andHl => Sys2Proof.Machine.execAndHl s
  | .andN n => Sys2Proof.Machine.execAndN n s
  | .xorR r => Sys2Proof.Machine.execXorR r s
  | .xorHl => Sys2Proof.Machine.execXorHl s
  | .xorN n => Sys2Proof.Machine.execXorN n s
  | .orR r => Sys2Proof.Machine.execOrR r s
  | .orHl => Sys2Proof.Machine.execOrHl s
  | .orN n => Sys2Proof.Machine.execOrN n s
  | .cpR r => Sys2Proof.Machine.execCpR r s
  | .cpHl => Sys2Proof.Machine.execCpHl s
  | .cpN n => Sys2Proof.Machine.execCpN n s
  | .incR r => Sys2Proof.Machine.execIncR r s
  | .incHl => Sys2Proof.Machine.execIncHl s
  | .decR r => Sys2Proof.Machine.execDecR r s
  | .decHl => Sys2Proof.Machine.execDecHl s
  | .daa => Sys2Proof.Machine.execDaa s
  | .cpl => Sys2Proof.Machine.execCpl s
  | .scf => Sys2Proof.Machine.execScf s
  | .ccf => Sys2Proof.Machine.execCcf s
  | .addHlRp rr => Sys2Proof.Machine.execAddHlRp rr s
  | .incRp rr => Sys2Proof.Machine.execIncRp rr s
  | .decRp rr => Sys2Proof.Machine.execDecRp rr s
  | .addSpE e => Sys2Proof.Machine.execAddSpE e s
  | .ldHlSpE e => Sys2Proof.Machine.execLdHlSpE e s
  | .rlca => Sys2Proof.Machine.execRlca s
  | .rrca => Sys2Proof.Machine.execRrca s
  | .rla => Sys2Proof.Machine.execRla s
  | .rra => Sys2Proof.Machine.execRra s
  | .rlcR r => Sys2Proof.Machine.execRlcR r s
  | .rlcHl => Sys2Proof.Machine.execRlcHl s
  | .rrcR r => Sys2Proof.Machine.execRrcR r s
  | .rrcHl => Sys2Proof.Machine.execRrcHl s
  | .rlR r => Sys2Proof.Machine.execRlR r s
  | .rlHl => Sys2Proof.Machine.execRlHl s
  | .rrR r => Sys2Proof.Machine.execRrR r s
  | .rrHl => Sys2Proof.Machine.execRrHl s
  | .slaR r => Sys2Proof.Machine.execSlaR r s
  | .slaHl => Sys2Proof.Machine.execSlaHl s
  | .sraR r => Sys2Proof.Machine.execSraR r s
  | .sraHl => Sys2Proof.Machine.execSraHl s
  | .swapR r => Sys2Proof.Machine.execSwapR r s
  | .swapHl => Sys2Proof.Machine.execSwapHl s
  | .srlR r => Sys2Proof.Machine.execSrlR r s
  | .srlHl => Sys2Proof.Machine.execSrlHl s
  | .bitR u3 r => Sys2Proof.Machine.execBitR u3 r s
  | .bitHl u3 => Sys2Proof.Machine.execBitHl u3 s
  | .resR u3 r => Sys2Proof.Machine.execResR u3 r s
  | .resHl u3 => Sys2Proof.Machine.execResHl u3 s
  | .setR u3 r => Sys2Proof.Machine.execSetR u3 r s
  | .setHl u3 => Sys2Proof.Machine.execSetHl u3 s
  | .jp addr => Sys2Proof.Machine.execJp addr s
  | .jpCc cc addr => Sys2Proof.Machine.execJpCc cc addr s
  | .jpHl => Sys2Proof.Machine.execJpHl s
  | .jr e => Sys2Proof.Machine.execJr e s
  | .jrCc cc e => Sys2Proof.Machine.execJrCc cc e s
  | .call addr => Sys2Proof.Machine.execCall addr s
  | .callCc cc addr => Sys2Proof.Machine.execCallCc cc addr s
  | .ret => Sys2Proof.Machine.execRet s
  | .retCc cc => Sys2Proof.Machine.execRetCc cc s
  | .reti => Sys2Proof.Machine.execReti s
  | .rst y => Sys2Proof.Machine.execRst y s
  | .nop => Sys2Proof.Machine.execNop s
  | .halt => Sys2Proof.Machine.execHalt s
  | .stop n => Sys2Proof.Machine.execStop n s
  | .di => Sys2Proof.Machine.execDi s
  | .ei => Sys2Proof.Machine.execEi s
  | .prefixCb => Sys2Proof.Machine.execPrefixCb s
  | .illegal op => Sys2Proof.Machine.execIllegal op s

end Sys2Proof.Machine
end

