-- ==== Sys2Proof/Machine/Fetch.lean ====
section
/-! DEFINITION. The parts of the step before an instruction runs: the environment's move, the reset event, the EI delay, the
fetch of the instruction; and the placing of an instruction where the fetch finds it. -/

namespace Sys2Proof.Machine

/-! ### The environment between two steps (R408, D21) -/

/-- An environment write to an I/O cell; an address that is no cell of another block is left alone. -/
def State.envCell (s : State) (x : Host.Cell) : State :=
  if decide (x.1 < 0x10000) && isIoCell (BitVec.ofNat 16 x.1) then { s with mem := memStore s.mem x.1 x.2 } else s

/-- An environment move: requests of interrupt kinds and new values of I/O cells (R408, R1105). -/
def State.applyMove (s : State) (m : EnvMove) : State := m.io.foldl State.envCell (m.requests.foldl State.request s)

/-- The environment takes its next move, if it has one. -/
def State.envStep (s : State) : State :=
  match s.env with
  | [] => s
  | m :: rest => State.applyMove { s with env := rest } m

/-- The input `stop_wake` as this step samples it (R404, D9); false when the environment has no move left (its default). -/
def State.stopWake (s : State) : Bool :=
  match s.env with
  | [] => false
  | m :: _ => m.stopWake

/-! ### The reset event (R1131, R1200) -/

/-- The reset event that the host's next move is, if it is one. "No reset is modelled from" the faulted state (R1104). -/
def State.resetDue (s : State) : Option ResetEvent :=
  match s.haltState, s.env with
  | .faulted _ _, _ => none
  | _, [] => none
  | _, m :: _ => m.reset

/-- What the reset event leaves: the reset state under the `boot_mode` and `boot_rom` the host chooses, every built-in memory a
fresh draw, the cartridge RAM as the event hands it over, the controller sent nothing yet (assumption 21). The image in
the cartridge ROM, the other parameters and the inputs still to come are as they were. -/
def State.resetEvent (s : State) (r : ResetEvent) : State :=
  { State.resetAt (s.resets + 1) { s.params with bootMode := r.bootMode, bootRom := r.bootRom } with
    rom := s.rom
    xram := r.cartRam
    env := s.env.tail
    ioAnswers := s.ioAnswers
    ramAnswers := s.ramAnswers
    reads := s.reads }

/-! ### The instruction part of the step (R400) -/

/-- The delayed enable: a set `ime_delay` is cleared and `ime` is set (R401). -/
def State.enableDelayed (s : State) : State :=
  if s.imeDelay then { s with ime := true, imeDelay := false } else s

/-- The state after `opcode_fetch()`: PC advances, but not when the halt bug is pending, which it then no longer is
(R402). `start` records the opcode's address (R400). -/
def State.opcodeFetched (s : State) : State :=
  if s.haltBugPending then { s.tick with start := s.pc, haltBugPending := false }
  else { s.fetched with start := s.pc }

/-- The instruction a table entry gives with the bytes at PC, and the state after their fetch (R400, R310). -/
def completeEntry (entry : Entry) (s : State) : Instr × State :=
  match entry with
  | .done i => (i, s)
  | .imm8 f => (f s.fetchByte, s.fetched)
  | .imm16 f => (f (joinBytes s.fetched.fetchByte s.fetchByte), s.fetched.fetched)
  | .escape => (secondary s.fetchByte, s.fetched)

/-- The fetch of a whole instruction, opcode first, in address order (R400, R402). -/
def State.fetchInstr (s : State) : Instr × State := completeEntry (primary s.fetchByte) s.opcodeFetched

/-! ### Placing an instruction -/

/-- Bytes placed from an address on, where fetches find them. -/
def State.pokeBytes (s : State) (addr : Word) : List Byte → State
  | [] => s
  | v :: rest => (s.poke addr v).pokeBytes (addr + 1#16) rest

/-- The state in which the next step fetches an instruction at PC: running, no environment move before it, no halt bug
pending, and `ime` off only if a pending request would be dispatched instead. -/
def State.readyToFetch (s : State) : State :=
  { s with haltState := .running, haltBugPending := false, env := [], ime := s.ime && s.pending == 0#5 }

end Sys2Proof.Machine
end

