-- ==== Sys2Proof/Machine/Step.lean ====
section
/-! DEFINITION. One step (40_step.md R400), composed of the operations of Ops.lean and Fetch.lean and of `exec`. -/

namespace Sys2Proof.Machine

/-- The instruction part of the step: the delayed enable, the fetch, the instruction (R400, R401). -/
def instrStep (s : State) : Result :=
  exec s.enableDelayed.fetchInstr.1 s.enableDelayed.fetchInstr.2

/-- A running step: dispatch when `ime = 1` and a request is pending, else one instruction (R400, R1110). -/
def runStep (s : State) : Result :=
  match s.ime, s.highestPriority with
  | true, some k => .next (s.dispatch k)
  | true, none => instrStep s
  | false, _ => instrStep s

/-- The step of a CPU whose environment has moved (R400). Stopped without `stop_wake` there is no step: nothing changes (R404,
assumption 15). -/
def stepFrom (wake : Bool) (s : State) : Result :=
  match s.haltState with
  | .running => runStep s
  | .halted => if s.pending = 0#5 then .next (s.charge 1) else runStep { s with haltState := .running }
  | .stopped => if wake then runStep { s with haltState := .running } else .next s
  | .faulted op addr => .fault (.illegalOpcode op addr)

/-- One step: the reset event where the host's move is one (R1200), else the environment's move, then the CPU's (R400, R408). -/
def step (s : State) : Result :=
  match s.resetDue with
  | some r => .next (s.resetEvent r)
  | none => stepFrom s.stopWake s.envStep

/-- `s` with the instruction of an opcode-table row placed at PC, ready to be fetched by the next step. -/
def State.withFetchWord (s : State) (nbits w : Nat) : State :=
  s.readyToFetch.pokeBytes s.pc (paddedRowBytes nbits w)

end Sys2Proof.Machine
end

