-- ==== Sys2Proof/Safety.lean ====
section
/-! DEFINITION. The terms claims are made in: the invariant of every state a run can reach, and what an
instruction leaves unchanged. -/

namespace Sys2Proof.Machine

/-- The memories that a reset event hands over are in canonical form. -/
def EnvMove.rising (m : EnvMove) : Bool := m.reset.all (fun r => memRising r.bootRom && memRising r.cartRam)

/-- What every step keeps: canonical memories, those of reset events to come among them, F's low nibble 0 (R104), no delayed
enable in a halted or stopped CPU (R1115), and the halt bug pending only where HALT can leave it so (R111, R1001). -/
structure State.Inv (s : State) : Prop where
  memWf : memWf memHas s.mem = true
  romRising : memRising s.rom = true
  xramRising : memRising s.xram = true
  bootRomRising : memRising s.params.bootRom = true
  flagsLow : s.f.toNat % 16 = 0
  haltedNoDelay : s.haltState = .halted → s.imeDelay = false
  stoppedNoDelay : s.haltState = .stopped → s.imeDelay = false
  bugNeedsParam : s.haltBugPending = true → s.params.haltBug = true
  bugIsRunning : s.haltBugPending = true → s.haltState = .running ∧ s.ime = false ∧ s.imeDelay = false
  envRising : s.env.all EnvMove.rising = true

/-- The partitions that are plain storage: a read answers the last byte written (R203, R204, R214). -/
def Region.plain : Region → Bool
  | .vram => true
  | .wram => true
  | .echo => true
  | .oam => true
  | .hram => true
  | .rom0 => false
  | .romX => false
  | .extRam => false
  | .unusable => false
  | .io => false
  | .ie => false

/-- Whether a write to `addr` can change what a read of `other` answers: the same storage byte (with its echo, R203); the OAM
for the DMA register (R207); the overlaid page for the unmap register (R208); the switchable windows for what a
controller is sent (R212, R213); nothing for the unusable region (R215). -/
def writeReaches (addr other : Word) : Bool :=
  match region addr with
  | .rom0 => decide (region other = .romX) || decide (region other = .extRam)
  | .romX => decide (region other = .romX) || decide (region other = .extRam)
  | .extRam => decide (region other = .romX) || decide (region other = .extRam)
  | .unusable => false
  | .io =>
    if addr = dmaAddr then decide (region other = .oam)
    else if addr = bootAddr then decide (other.toNat < 0x100)
    else other == addr
  | .ie => other == addr
  | .vram => memKey other == memKey addr
  | .wram => memKey other == memKey addr
  | .echo => memKey other == memKey addr
  | .oam => memKey other == memKey addr
  | .hram => memKey other == memKey addr

/-- `exec` answers a next state, and `P` holds of it. -/
def Answers (i : Instr) (s : State) (P : State → Prop) : Prop := ∃ t, exec i s = .next t ∧ P t

/-- `t`'s bus is `u`'s: the masks, the overlay, the controller, the answers to come, and every byte every read answers. -/
structure BusIs (u t : State) : Prop where
  ie : t.ie = u.ie
  iF : t.iF = u.iF
  bootMapped : t.bootMapped = u.bootMapped
  cartWrites : t.cartWrites = u.cartWrites
  ioAnswers : t.ioAnswers = u.ioAnswers
  ramAnswers : t.ramAnswers = u.ramAnswers
  bytes : ∀ n addr, t.byteAt n addr = u.byteAt n addr

/-- Everything but F, SP, PC and the bus: the general registers outside `ws`, the interrupt enables, the CPU's state, the
parameters and the model's inputs are unchanged, and the step costs `n` cycle-units. -/
structure Rest (ws : List Reg8) (n : Nat) (s t : State) : Prop where
  regs : ∀ r, r ∉ ws → t.getR8 r = s.getR8 r
  ime : t.ime = s.ime
  imeDelay : t.imeDelay = s.imeDelay
  haltState : t.haltState = s.haltState
  haltBugPending : t.haltBugPending = s.haltBugPending
  params : t.params = s.params
  start : t.start = s.start
  env : t.env = s.env
  resets : t.resets = s.resets
  stepCycles : t.stepCycles = n
  cycleTotal : t.cycleTotal = s.cycleTotal + n

/-- A form that writes registers in `ws` and perhaps F, and nothing else: SP, PC and every byte are as before. -/
structure RegisterOnly (ws : List Reg8) (n : Nat) (s t : State) : Prop where
  rest : Rest ws n s t
  sp : t.sp = s.sp
  pc : t.pc = s.pc
  bus : BusIs s t

/-- A form that stores the byte `v` at `addr` after the reads that make `u` of `s`, writes registers in `ws` and perhaps F, and
nothing else: a plain byte reads back, and every byte outside the write's reach is as before. -/
structure StoresByte (addr : Word) (v : Byte) (ws : List Reg8) (n : Nat) (u s t : State) : Prop where
  rest : Rest ws n s t
  sp : t.sp = s.sp
  pc : t.pc = s.pc
  bus : BusIs (u.write addr v) t
  stored : (region addr).plain = true → ∀ k, t.byteAt k addr = v
  others : ∀ k other, writeReaches addr other = false → t.byteAt k other = s.byteAt k other

/-- A form that pushes the word `v` and moves SP, and changes nothing else but PC. -/
structure Pushes (v : Word) (n : Nat) (s t : State) : Prop where
  rest : Rest [] n s t
  flags : t.f = s.f
  sp : t.sp = s.sp - 2#16
  bus : BusIs ((s.write (s.sp - 1#16) (hiByte v)).write (s.sp - 2#16) (loByte v)) t
  high : (region (s.sp - 1#16)).plain = true → (region (s.sp - 2#16)).plain = true →
    ∀ k, t.byteAt k (s.sp - 1#16) = hiByte v
  low : (region (s.sp - 2#16)).plain = true → ∀ k, t.byteAt k (s.sp - 2#16) = loByte v
  others : ∀ k other, writeReaches (s.sp - 1#16) other = false → writeReaches (s.sp - 2#16) other = false →
    t.byteAt k other = s.byteAt k other

/-- F holds the four flags given and a low nibble of 0. -/
structure FlagsAre (z n hf cy : Prop) (t : State) : Prop where
  z : flagZ t.f = true ↔ z
  n : flagN t.f = true ↔ n
  hf : flagH t.f = true ↔ hf
  cy : flagC t.f = true ↔ cy
  low : t.f.toNat % 16 = 0

end Sys2Proof.Machine
end

