-- ==== Sys2Proof/Certificates/Slice0/Obligations.lean ====
section
/-! DEFINITION. The statements for the provers, each about every state unless it says otherwise. The helpers under
Sys2Proof.Claims say the spec's arithmetic on numbers, apart from the model's bit operations. -/

namespace Sys2Proof.Claims

open Sys2Proof Sys2Proof.Machine

/-! ### The spec's words for encodings -/

/-- The first bytes of three-byte instructions (R316). -/
def threeByteOpcodes : List Byte :=
  [0x01#8, 0x08#8, 0x11#8, 0x21#8, 0x31#8, 0xC2#8, 0xC3#8, 0xC4#8, 0xCA#8, 0xCC#8, 0xCD#8, 0xD2#8, 0xD4#8, 0xDA#8,
   0xDC#8, 0xEA#8, 0xFA#8]

/-- The first bytes of two-byte instructions, 0xCB with its second byte among them (R316). -/
def twoByteOpcodes : List Byte :=
  [0x06#8, 0x0E#8, 0x10#8, 0x16#8, 0x18#8, 0x1E#8, 0x20#8, 0x26#8, 0x28#8, 0x2E#8, 0x30#8, 0x36#8, 0x38#8, 0x3E#8,
   0xC6#8, 0xCE#8, 0xD6#8, 0xDE#8, 0xE0#8, 0xE6#8, 0xE8#8, 0xEE#8, 0xF0#8, 0xF6#8, 0xF8#8, 0xFE#8, 0xCB#8]

/-- The bytes left of three after an instruction with this first byte (R316). -/
def bytesLeft (op b1 b2 : Byte) : List Byte :=
  if op ∈ threeByteOpcodes then [] else if op ∈ twoByteOpcodes then [b2] else [b1, b2]

/-- The opcodes that encode no instruction (R314). -/
def illegalByte (op : Byte) : Prop :=
  op = 0xD3#8 ∨ op = 0xDB#8 ∨ op = 0xDD#8 ∨ op = 0xE3#8 ∨ op = 0xE4#8 ∨ op = 0xEB#8 ∨ op = 0xEC#8 ∨ op = 0xED#8 ∨
  op = 0xF4#8 ∨ op = 0xFC#8 ∨ op = 0xFD#8

/-! ### The spec's address map -/

/-- The partitions of R202: first address, last address, partition. -/
def addressMap : List (Nat × Nat × Region) :=
  [(0x0000, 0x3FFF, .rom0), (0x4000, 0x7FFF, .romX), (0x8000, 0x9FFF, .vram), (0xA000, 0xBFFF, .extRam),
    (0xC000, 0xDFFF, .wram), (0xE000, 0xFDFF, .echo), (0xFE00, 0xFE9F, .oam), (0xFEA0, 0xFEFF, .unusable),
    (0xFF00, 0xFF7F, .io), (0xFF80, 0xFFFE, .hram), (0xFFFF, 0xFFFF, .ie)]

/-- Video RAM, work RAM, echo RAM, OAM and high RAM (R202). -/
abbrev PlainAddr (addr : Word) : Prop :=
  (0x8000 ≤ addr.toNat ∧ addr.toNat ≤ 0x9FFF) ∨ (0xC000 ≤ addr.toNat ∧ addr.toNat ≤ 0xDFFF) ∨
  (0xE000 ≤ addr.toNat ∧ addr.toNat ≤ 0xFDFF) ∨ (0xFE00 ≤ addr.toNat ∧ addr.toNat ≤ 0xFE9F) ∨
  (0xFF80 ≤ addr.toNat ∧ addr.toNat ≤ 0xFFFE)

/-- The I/O addresses that read as the byte cell a write stores into: all of the page but those of R206 to R209 (R210). -/
abbrev CellAddr (addr : Word) : Prop :=
  0xFF01 ≤ addr.toNat ∧ addr.toNat ≤ 0xFF7F ∧ addr ≠ 0xFF0F#16 ∧ addr ≠ 0xFF46#16 ∧ addr ≠ 0xFF50#16

/-- The byte of cartridge RAM that a write of `v` to external RAM stores, if any: the bus's next answer, and with no answer
left `v` at the byte the controller selects for a read (R213, assumption 9). -/
def ramStored (s : State) (addr : Word) (v : Byte) : Option Host.Cell :=
  match s.ramAnswers with
  | [] => (s.ramOffset addr).map (fun off => (off, v))
  | x :: _ => x

/-! ### The spec's words for reset -/

/-- What both columns of R116 say under the parameters `p`; under `BootRom` the registers are draws, so only F's low nibble is
said of them. -/
structure ResetValues (p : Params) (s : State) : Prop where
  both : s.ime = false ∧ s.imeDelay = false ∧ s.haltState = .running ∧ s.haltBugPending = false ∧ s.ie = 0x00#8 ∧
    s.iF = p.ifReset ∧ s.stepCycles = 0 ∧ s.cycleTotal = 0 ∧ s.params = p
  postBootDefaults : p.bootMode = .postBootDefaults →
    s.a = 0x01#8 ∧ s.f = 0xB0#8 ∧ s.b = 0x00#8 ∧ s.c = 0x13#8 ∧ s.d = 0x00#8 ∧ s.e = 0xD8#8 ∧ s.h = 0x01#8 ∧
    s.l = 0x4D#8 ∧ s.sp = 0xFFFE#16 ∧ s.pc = 0x0100#16 ∧ s.bootMapped = false
  bootRom : p.bootMode = .bootRom → s.f.toNat % 16 = 0 ∧ s.pc = 0x0000#16 ∧ s.bootMapped = true

/-! ### Fetches and operands -/

/-- The three bytes a fetch at PC reads, in order. -/
def bytesAtPc (s : State) : List Byte :=
  [s.byteAt s.reads s.pc, s.byteAt (s.reads + 1) (s.pc + 1#16), s.byteAt (s.reads + 2) (s.pc + 2#16)]

/-- The three bytes a fetch at PC reads when the opcode byte is repeated (R402). -/
def bytesAtPcRepeated (s : State) : List Byte :=
  [s.byteAt s.reads s.pc, s.byteAt (s.reads + 1) s.pc, s.byteAt (s.reads + 2) (s.pc + 1#16)]

/-- Table `r8` as numbers (R304). -/
def r8N : Reg8 → Nat
  | .b => 0
  | .c => 1
  | .d => 2
  | .e => 3
  | .h => 4
  | .l => 5
  | .a => 7

/-- Table `rp` as numbers (R305). -/
def rpN : Rp → Nat
  | .bc => 0
  | .de => 1
  | .hl => 2
  | .sp => 3

/-- Table `rp2` as numbers (R305). -/
def rp2N : Rp2 → Nat
  | .bc => 0
  | .de => 1
  | .hl => 2
  | .af => 3

/-- Table `rp2` as numbers, for the pairs of R532. -/
def pairN : Pair → Nat
  | .bc => 0
  | .de => 1
  | .hl => 2

/-- Table `cc` as numbers (R306). -/
def ccN : Cond → Nat
  | .nz => 0
  | .z => 1
  | .nc => 2
  | .c => 3

/-- The two bytes of a 16-bit immediate as numbers, low byte first in memory (R310). -/
def lowN (v : Word) : Nat := v.toNat % 256
def highN (v : Word) : Nat := v.toNat / 256

/-- The instruction's bytes are the numbers `bytes`, the encoding its rule gives, and `exec` answers a next state of which `P`
holds. -/
def Does (i : Instr) (bytes : List Nat) (s : State) (P : State → Prop) : Prop :=
  encode i = bytes.map (BitVec.ofNat 8) ∧ Answers i s P

/-! ### The spec's words for results -/

/-- The carry flag as a number. -/
def carryIn (s : State) : Nat := (flagC s.f).toNat

/-- ADD and ADC (R600): `c` is the carry-in. -/
def AddResult (b : Byte) (c n : Nat) (s t : State) : Prop :=
  t.a.toNat = (s.a.toNat + b.toNat + c) % 256 ∧
  FlagsAre (t.a = 0#8) False (15 < s.a.toNat % 16 + b.toNat % 16 + c) (255 < s.a.toNat + b.toNat + c) t ∧
  RegisterOnly [.a] n s t

/-- The flags of SUB, SBC and CP (R600). -/
def SubFlags (b : Byte) (c : Nat) (s t : State) : Prop :=
  FlagsAre (((s.a.toNat : Int) - b.toNat - c) % 256 = 0) True (s.a.toNat % 16 < b.toNat % 16 + c)
    (s.a.toNat < b.toNat + c) t

/-- SUB and SBC (R600): `c` is the carry-in. -/
def SubResult (b : Byte) (c n : Nat) (s t : State) : Prop :=
  (t.a.toNat : Int) = ((s.a.toNat : Int) - b.toNat - c) % 256 ∧ SubFlags b c s t ∧ RegisterOnly [.a] n s t

/-- CP: SUB's flags, A not written (R623). -/
def CpResult (b : Byte) (n : Nat) (s t : State) : Prop := SubFlags b 0 s t ∧ RegisterOnly [] n s t

/-- AND, XOR and OR: bit by bit through `op`, H as given, N and C clear (R614, R617, R620). -/
def LogicResult (op : Bool → Bool → Bool) (hf : Prop) (b : Byte) (n : Nat) (s t : State) : Prop :=
  (∀ i < 8, t.a.getLsbD i = op (s.a.getLsbD i) (b.getLsbD i)) ∧
  FlagsAre (t.a = 0#8) False hf False t ∧ RegisterOnly [.a] n s t

/-- DAA's accumulator, before it is taken modulo 256 (R630). -/
def daaValue (a : Nat) (n hf cy : Bool) : Int :=
  if n = false then
    (a : Int) + (if cy = true ∨ 0x99 < a then 0x60 else 0) + (if hf = true ∨ 9 < a % 16 then 0x06 else 0)
  else (a : Int) - (if cy = true then 0x60 else 0) - (if hf = true then 0x06 else 0)

/-- `e` read as two's complement (R310). -/
def signed (e : Byte) : Int := if e.toNat < 128 then (e.toNat : Int) else (e.toNat : Int) - 256

/-- A 16-bit sum with a signed byte, modulo 2^16. -/
def IsSumWith (base : Word) (e : Byte) (v : Word) : Prop := (v.toNat : Int) = ((base.toNat : Int) + signed e) % 65536

/-- The registers of a 16-bit operand. -/
def rpRegs : Rp → List Reg8
  | .bc => [.b, .c]
  | .de => [.d, .e]
  | .hl => [.h, .l]
  | .sp => []

/-- A form that writes one 16-bit operand and nothing else. -/
structure RpOnly (rr : Rp) (n : Nat) (s t : State) : Prop where
  rest : Rest (rpRegs rr) n s t
  flags : t.f = s.f
  sp : rr ≠ .sp → t.sp = s.sp
  pc : t.pc = s.pc
  bus : BusIs s t

/-- A load of A from `addr`. -/
def LoadsA (i : Instr) (bytes : List Nat) (s : State) (addr : Word) (n : Nat) : Prop :=
  Does i bytes s fun t => t.a = s.peek addr ∧ t.f = s.f ∧ RegisterOnly [.a] n s t

/-- A store of `v` at `addr` that reads nothing first. -/
def StoresAt (i : Instr) (bytes : List Nat) (s : State) (addr : Word) (v : Byte) (n : Nat) : Prop :=
  Does i bytes s fun t => t.f = s.f ∧ StoresByte addr v [] n s s t

/-- A rotate, shift or SWAP, entry `y` of table `rot`, of register `r` with result `res` and carry `co` (R804 to R820). -/
def ShiftsRegister (i : Instr) (y : Nat) (s : State) (r : Reg8) (res co : Nat) : Prop :=
  Does i [0xCB, 8 * y + r8N r] s fun t =>
    (t.getR8 r).toNat = res ∧ FlagsAre (res = 0) False False (co = 1) t ∧ RegisterOnly [r] 2 s t

/-- A rotate, shift or SWAP, entry `y` of table `rot`, of the byte at HL with result `res` and carry `co` (R804 to R820). -/
def ShiftsHl (i : Instr) (y : Nat) (s : State) (res co : Nat) : Prop :=
  Does i [0xCB, 8 * y + 6] s fun t =>
    FlagsAre (res = 0) False False (co = 1) t ∧ ∃ v : Byte, v.toNat = res ∧ StoresByte s.hlPair v [] 4 s.tick s t

/-- An accumulator rotate with result `res` and carry `co`: Z is cleared (R800 to R803). -/
def RotatesA (i : Instr) (bytes : List Nat) (s : State) (res co : Nat) : Prop :=
  Does i bytes s fun t => t.a.toNat = res ∧ FlagsAre False False False (co = 1) t ∧ RegisterOnly [.a] 1 s t

/-- Rotates and shifts on numbers below 256 (R805 to R819). -/
def rlcN (v : Nat) : Nat := (2 * v + v / 128) % 256
def rrcN (v : Nat) : Nat := v / 2 + 128 * (v % 2)
def rlN (v cy : Nat) : Nat := (2 * v + cy) % 256
def rrN (v cy : Nat) : Nat := v / 2 + 128 * cy
def slaN (v : Nat) : Nat := 2 * v % 256
def sraN (v : Nat) : Nat := v / 2 + 128 * (v / 128)
def swapN (v : Nat) : Nat := 16 * (v % 16) + v / 16
def srlN (v : Nat) : Nat := v / 2

/-- Bit `b` of a number. -/
def bitN (b v : Nat) : Nat := v / 2 ^ b % 2

/-- `cond(cc)` (R900). -/
def holds (s : State) : Cond → Bool
  | .nz => flagZ s.f == false
  | .z => flagZ s.f == true
  | .nc => flagC s.f == false
  | .c => flagC s.f == true

/-- The condition `cc` holds (R900). -/
def Holds (s : State) (cc : Cond) : Prop := holds s cc = true

/-- A form that changes PC and the cycle counters only, with cost `n`. -/
def JumpOnly (n : Nat) (s t : State) : Prop :=
  t = { s with pc := t.pc, stepCycles := n, cycleTotal := s.cycleTotal + n }

/-- A form that changes the cycle counters only, with cost `n`. -/
def CostOnly (n : Nat) (s : State) : State := { s with stepCycles := n, cycleTotal := s.cycleTotal + n }

/-- The byte pair a pop reads at SP, low byte first (R529). -/
def stackWord (s : State) : Word :=
  joinBytes (s.byteAt (s.reads + 1) (s.sp + 1#16)) (s.byteAt s.reads s.sp)

/-- A pair as a word, high register first (R101). -/
def pairWord (s : State) : Pair → Word
  | .bc => joinBytes s.b s.c
  | .de => joinBytes s.d s.e
  | .hl => joinBytes s.h s.l

/-- The registers of a pair. -/
def pairRegs : Pair → List Reg8
  | .bc => [.b, .c]
  | .de => [.d, .e]
  | .hl => [.h, .l]

/-- The word PUSH pushes: of AF, F with bits 3:0 zero (R101, R104). -/
def pushedWord (s : State) : Rp2 → Word
  | .bc => joinBytes s.b s.c
  | .de => joinBytes s.d s.e
  | .hl => joinBytes s.h s.l
  | .af => joinBytes s.a (s.f &&& 0xF0#8)

/-- The state after a pop's two reads: SP two higher (R529). -/
def afterPop (n : Nat) (s : State) : State :=
  { s with sp := s.sp + 2#16, reads := s.reads + 2, stepCycles := n, cycleTotal := s.cycleTotal + n }

/-! ### The spec's tables -/

/-- An entry of a flag pattern (R330). -/
inductive FlagEffect where
  | computed
  | clear
  | set
  | keep
  deriving DecidableEq, Repr

/-- What an entry of a flag pattern says of the flag before and after. -/
def FlagEffect.Obeyed : FlagEffect → Bool → Bool → Prop
  | .computed, _, _ => True
  | .clear, _, after => after = false
  | .set, _, after => after = true
  | .keep, before, after => after = before

/-- The pattern table of R330, entries Z, N, H, C. -/
def flagPattern : Instr → FlagEffect × FlagEffect × FlagEffect × FlagEffect
  | .addR _ | .addHl | .addN _ | .adcR _ | .adcHl | .adcN _ => (.computed, .clear, .computed, .computed)
  | .subR _ | .subHl | .subN _ | .sbcR _ | .sbcHl | .sbcN _ | .cpR _ | .cpHl | .cpN _ =>
    (.computed, .set, .computed, .computed)
  | .andR _ | .andHl | .andN _ => (.computed, .clear, .set, .clear)
  | .xorR _ | .xorHl | .xorN _ | .orR _ | .orHl | .orN _ => (.computed, .clear, .clear, .clear)
  | .incR _ | .incHl => (.computed, .clear, .computed, .keep)
  | .decR _ | .decHl => (.computed, .set, .computed, .keep)
  | .daa => (.computed, .keep, .clear, .computed)
  | .cpl => (.keep, .set, .set, .keep)
  | .scf => (.keep, .clear, .clear, .set)
  | .ccf => (.keep, .clear, .clear, .computed)
  | .rlca | .rrca | .rla | .rra => (.clear, .clear, .clear, .computed)
  | .rlcR _ | .rlcHl | .rrcR _ | .rrcHl | .rlR _ | .rlHl | .rrR _ | .rrHl | .slaR _ | .slaHl | .sraR _ | .sraHl
  | .srlR _ | .srlHl => (.computed, .clear, .clear, .computed)
  | .swapR _ | .swapHl => (.computed, .clear, .clear, .clear)
  | .bitR _ _ | .bitHl _ => (.computed, .clear, .set, .keep)
  | .addHlRp _ => (.keep, .clear, .computed, .computed)
  | .addSpE _ | .ldHlSpE _ => (.clear, .clear, .computed, .computed)
  | .popAf => (.computed, .computed, .computed, .computed)
  | .ldRR _ _ | .ldRN _ _ | .ldRHl _ | .ldHlR _ | .ldHlN _ | .ldABc | .ldADe | .ldBcA | .ldDeA | .ldAA16 _
  | .ldA16A _ | .ldhAA8 _ | .ldhA8A _ | .ldhAC | .ldhCA | .ldAHli | .ldAHld | .ldHliA | .ldHldA | .ldRpN _ _
  | .ldA16Sp _ | .ldSpHl | .push _ | .pop _ | .incRp _ | .decRp _ | .resR _ _ | .resHl _ | .setR _ _
  | .setHl _ | .jp _ | .jpCc _ _ | .jpHl | .jr _ | .jrCc _ _ | .call _ | .callCc _ _ | .ret | .retCc _ | .reti
  | .rst _ | .nop | .halt | .stop _ | .di | .ei | .prefixCb | .illegal _ => (.keep, .keep, .keep, .keep)

/-- The cost of an instruction in cycle-units (R406, R407, the table's `cycles` and `cycles_not_taken`). -/
def cost (s : State) : Instr → Nat
  | .nop | .halt | .stop _ | .di | .ei | .jpHl => 1
  | .ldRR _ _ | .addR _ | .adcR _ | .subR _ | .sbcR _ | .andR _ | .xorR _ | .orR _ | .cpR _ | .incR _ | .decR _ => 1
  | .daa | .cpl | .scf | .ccf | .rlca | .rrca | .rla | .rra => 1
  | .ldRN _ _ | .ldRHl _ | .ldHlR _ | .ldABc | .ldADe | .ldBcA | .ldDeA | .ldhAC | .ldhCA => 2
  | .ldAHli | .ldAHld | .ldHliA | .ldHldA | .ldSpHl => 2
  | .addHl | .adcHl | .subHl | .sbcHl | .andHl | .xorHl | .orHl | .cpHl => 2
  | .addN _ | .adcN _ | .subN _ | .sbcN _ | .andN _ | .xorN _ | .orN _ | .cpN _ => 2
  | .addHlRp _ | .incRp _ | .decRp _ => 2
  | .rlcR _ | .rrcR _ | .rlR _ | .rrR _ | .slaR _ | .sraR _ | .swapR _ | .srlR _ => 2
  | .bitR _ _ | .resR _ _ | .setR _ _ => 2
  | .ldHlN _ | .ldhAA8 _ | .ldhA8A _ | .ldRpN _ _ | .popAf | .pop _ | .ldHlSpE _ | .incHl | .decHl | .bitHl _ => 3
  | .jr _ => 3
  | .ldAA16 _ | .ldA16A _ | .push _ | .addSpE _ | .jp _ | .ret | .reti | .rst _ => 4
  | .rlcHl | .rrcHl | .rlHl | .rrHl | .slaHl | .sraHl | .swapHl | .srlHl | .resHl _ | .setHl _ => 4
  | .ldA16Sp _ => 5
  | .call _ => 6
  | .jrCc cc _ => if holds s cc then 3 else 2
  | .jpCc cc _ => if holds s cc then 4 else 3
  | .callCc cc _ => if holds s cc then 6 else 3
  | .retCc cc => if holds s cc then 5 else 2
  | .prefixCb | .illegal _ => 0

/-- The state an instruction can write beside the general registers and F. -/
inductive Part where
  | memory
  | sp
  | pc
  | ime
  | imeDelay
  | haltState
  | haltBug
  deriving DecidableEq, Repr

/-- SP as a 16-bit operand that is written. -/
def rpParts : Rp → List Part
  | .bc | .de | .hl => []
  | .sp => [.sp]

/-- What the spec lets an instruction write beside the general registers and F: memory (R219), SP (R106), PC beyond its own
fetch (R115), `ime` (R108), `ime_delay` (R109), the CPU's state (R110) and the halt bug's mark (R111). The escape
alone, which is no instruction (R1005), has no entry. -/
def writes : Instr → List Part
  | .ldHlR _ | .ldHlN _ | .ldBcA | .ldDeA | .ldA16A _ | .ldhA8A _ | .ldhCA | .ldHliA | .ldHldA | .ldA16Sp _
  | .incHl | .decHl | .rlcHl | .rrcHl | .rlHl | .rrHl | .slaHl | .sraHl | .swapHl | .srlHl | .resHl _
  | .setHl _ => [.memory]
  | .push _ => [.sp, .memory]
  | .call _ | .callCc _ _ | .rst _ => [.sp, .pc, .memory]
  | .popAf | .pop _ | .ldSpHl | .addSpE _ => [.sp]
  | .ret | .retCc _ => [.sp, .pc]
  | .reti => [.sp, .pc, .ime]
  | .jp _ | .jpCc _ _ | .jpHl | .jr _ | .jrCc _ _ => [.pc]
  | .di => [.ime, .imeDelay]
  | .ei => [.imeDelay]
  | .halt => [.haltState, .haltBug]
  | .stop _ | .illegal _ => [.haltState]
  | .ldRpN rr _ | .incRp rr | .decRp rr => rpParts rr
  | .ldRR _ _ | .ldRN _ _ | .ldRHl _ | .ldABc | .ldADe | .ldAA16 _ | .ldhAA8 _ | .ldhAC | .ldAHli | .ldAHld
  | .addR _ | .addHl | .addN _ | .adcR _ | .adcHl | .adcN _ | .subR _ | .subHl | .subN _ | .sbcR _ | .sbcHl
  | .sbcN _ | .andR _ | .andHl | .andN _ | .xorR _ | .xorHl | .xorN _ | .orR _ | .orHl | .orN _ | .cpR _
  | .cpHl | .cpN _ | .incR _ | .decR _ | .daa | .cpl | .scf | .ccf | .addHlRp _ | .ldHlSpE _ | .rlca | .rrca
  | .rla | .rra | .rlcR _ | .rrcR _ | .rlR _ | .rrR _ | .slaR _ | .sraR _ | .swapR _ | .srlR _ | .bitR _ _
  | .bitHl _ | .resR _ _ | .setR _ _ | .nop | .prefixCb => []

end Sys2Proof.Claims

open Sys2Proof Sys2Proof.Machine Sys2Proof.Claims

/-! ### Encoding -/

/-- R311, R313, R331: words written out from the spec's encodings decode to the instructions they stand for. -/
def Obligations.DecoderReadsTheSpecsEncodings : Prop :=
  decode [0x3E#8, 0x42#8] = .ok (.ldRN .a 0x42#8, []) ∧
  decode [0b01001000#8] = .ok (.ldRR .c .b, []) ∧
  decode [0b10001011#8] = .ok (.adcR .e, []) ∧
  decode [0b00111001#8] = .ok (.addHlRp .sp, []) ∧
  decode [0xCB#8, 0b01100101#8] = .ok (.bitR 4#3 .l, []) ∧
  decode [0b00110000#8, 0x10#8] = .ok (.jrCc .nc 0x10#8, []) ∧
  decode [0xCD#8, 0x34#8, 0x12#8] = .ok (.call 0x1234#16, []) ∧
  decode [0x76#8] = .ok (.halt, [])

/-- Decode and encode agree: every well-formed instruction's bytes, before any bytes, decode to it. -/
def Obligations.DecodingAnEncodedInstructionGivesItBack : Prop :=
  ∀ (i : Instr) (rest : List Byte), i.wellFormed = true → decode (encode i ++ rest) = .ok (i, rest)

/-- Each byte sequence has one meaning: what decodes is the encoding of what it decodes to. -/
def Obligations.EncodingADecodedInstructionGivesItsBytesBack : Prop :=
  ∀ (bytes : List Byte) (i : Instr) (rest : List Byte), decode bytes = .ok (i, rest) → bytes = encode i ++ rest

/-- R300, R316, R1103: any three bytes decode to a well-formed instruction of the length the first byte gives. -/
def Obligations.AnyThreeBytesDecodeAtTheLengthOfTheFirst : Prop :=
  ∀ op b1 b2 : Byte, ∃ i, decode [op, b1, b2] = .ok (i, bytesLeft op b1 b2) ∧ i.wellFormed = true

/-- R314, R315: exactly the eleven opcodes encode no instruction. -/
def Obligations.TheElevenOpcodesAndNoOthersAreIllegal : Prop :=
  ∀ (op : Byte) (more : List Byte) (i : Instr) (rest : List Byte), decode (op :: more) = .ok (i, rest) →
    ((i = .illegal op ↔ illegalByte op) ∧ ∀ o, i = .illegal o → o = op)

/-! ### The step -/

/-- R400, R401: a running step that dispatches nothing runs the instruction the bytes at PC decode to, with PC past it, its
address in `start`, a delayed enable done, and nothing else changed but the index of the next draw. -/
def Obligations.AStepRunsTheDecodedInstruction : Prop :=
  ∀ (s u : State) (i : Instr) (rest : List Byte), s.resetDue = none → u = s.envStep → u.haltState = .running →
    (u.ime = false ∨ u.pending = 0#5) → u.haltBugPending = false → decode (bytesAtPc u) = .ok (i, rest) →
    step s = exec i
      { u with ime := u.ime || u.imeDelay, imeDelay := false, pc := u.pc + BitVec.ofNat 16 (encode i).length,
               start := u.pc, reads := u.reads + (encode i).length }

/-- R402: under a pending halt bug the opcode byte is read without advancing PC, so it is read again, as the instruction's
next byte or by the next step. Of an illegal opcode this is the model's choice: PC stays at the opcode's own address, where
R1104 says PC = addr + 1 of an ordinary fetch (assumption 25). -/
def Obligations.TheHaltBugRepeatsTheOpcodeByte : Prop :=
  ∀ (s u : State) (i : Instr) (rest : List Byte), s.resetDue = none → u = s.envStep → u.haltState = .running →
    (u.ime = false ∨ u.pending = 0#5) → u.haltBugPending = true → decode (bytesAtPcRepeated u) = .ok (i, rest) →
    step s = exec i
      { u with ime := u.ime || u.imeDelay, imeDelay := false, pc := u.pc + BitVec.ofNat 16 ((encode i).length - 1),
               start := u.pc, reads := u.reads + (encode i).length, haltBugPending := false }

/-- R403: a halted step with nothing pending changes the cycle counters only and costs 1; with a request pending it continues
as a running step, whatever `ime` is. -/
def Obligations.AHaltedCpuIdlesUntilARequestIsPending : Prop :=
  ∀ s u : State, s.resetDue = none → u = s.envStep → u.haltState = .halted →
    (u.pending = 0#5 → step s = .next { u with stepCycles := 1, cycleTotal := u.cycleTotal + 1 }) ∧
    (u.pending ≠ 0#5 → step s = step { s with haltState := .running })

/-- R404: a stopped CPU does nothing until `stop_wake`, then continues as a running step (assumption 15: doing nothing is a
step that leaves the environment's move). -/
def Obligations.AStoppedCpuWaitsForStopWake : Prop :=
  ∀ s : State, s.resetDue = none → s.haltState = .stopped →
    (s.stopWake = false → step s = .next s.envStep) ∧
    (s.stopWake = true → step s = step { s with haltState := .running })

/-- R405: in the faulted state there is no step, and no reset leads out of it (R1104). -/
def Obligations.AFaultedCpuHasNoStep : Prop :=
  ∀ (s : State) (op : Byte) (addr : Word), s.haltState = .faulted op addr → step s = .fault (.illegalOpcode op addr)

/-- R1109: the kind dispatched is that of the lowest set bit of `pending()`, which is IE & IF & 0x1F, bit by bit (R1108), with the
kinds at bits 0 to 4 (R1106). -/
def Obligations.TheHighestPriorityIsTheLowestPendingBit : Prop :=
  [Interrupt.vblank, .lcdStat, .timer, .serial, .joypad].map Interrupt.bit = [0, 1, 2, 3, 4] ∧
  ∀ s : State,
    (∀ k : Interrupt, s.pending.getLsbD k.bit = (s.ie.getLsbD k.bit && s.iF.getLsbD k.bit)) ∧
    (s.highestPriority = none ↔ s.pending = 0#5) ∧
    ∀ k : Interrupt, s.highestPriority = some k ↔
      (s.pending.getLsbD k.bit = true ∧ ∀ j : Interrupt, j.bit < k.bit → s.pending.getLsbD j.bit = false)

/-- R1110, R1111: with `ime = 1` and a request pending a running step pushes PC, clears `ime` and `ime_delay`, goes to the
vector of the lowest pending bit, clears that request and no other, and costs 5; no register is saved or changed. That the
request is cleared in IF as the push leaves it is the model's reading of R1111's order (assumption 23). -/
def Obligations.DispatchPushesPcAndGoesToTheVector : Prop :=
  ∀ (s u w : State) (k : Interrupt), s.resetDue = none → u = s.envStep → u.haltState = .running → u.ime = true →
    u.pending.getLsbD k.bit = true → (∀ j : Interrupt, j.bit < k.bit → u.pending.getLsbD j.bit = false) →
    w = (u.write (u.sp - 1#16) (hiByte u.pc)).write (u.sp - 2#16) (loByte u.pc) →
    ∃ t, step s = .next t ∧
      t.pc.toNat = 0x40 + 8 * k.bit ∧ t.sp = u.sp - 2#16 ∧ t.ime = false ∧ t.imeDelay = false ∧
      t.haltState = .running ∧ t.haltBugPending = u.haltBugPending ∧ t.f = u.f ∧ (∀ r, t.getR8 r = u.getR8 r) ∧
      t.params = u.params ∧ t.env = u.env ∧ t.stepCycles = 5 ∧ t.cycleTotal = u.cycleTotal + 5 ∧
      (∀ j : Interrupt, t.iF.getLsbD j.bit = (w.iF.getLsbD j.bit && decide (j ≠ k))) ∧
      BusIs { w with iF := t.iF } t ∧
      (∀ n other, writeReaches (u.sp - 1#16) other = false → writeReaches (u.sp - 2#16) other = false →
        other ≠ 0xFF0F#16 → t.byteAt n other = u.byteAt n other) ∧
      ((region (u.sp - 1#16)).plain = true → (region (u.sp - 2#16)).plain = true →
        w.iF = u.iF ∧ w.ie = u.ie ∧
        ∀ n, t.byteAt n (u.sp - 1#16) = hiByte u.pc ∧ t.byteAt n (u.sp - 2#16) = loByte u.pc)

/-- R408, R1107: an environment move sets the IF bit of each kind it requests and no other, gives I/O cells of other blocks the
values it names, the last one where it names several, and changes nothing else: no CPU register, no work RAM, no high
RAM. -/
def Obligations.EnvironmentMovesTouchOnlyIfAndIoCells : Prop :=
  ∀ (s t : State) (m : EnvMove), t = s.applyMove m →
    t = { s with iF := t.iF, mem := t.mem } ∧
    (∀ k : Interrupt, t.iF.getLsbD k.bit = (s.iF.getLsbD k.bit || decide (k ∈ m.requests))) ∧
    (∀ n addr, region addr ≠ .io → t.byteAt n addr = s.byteAt n addr) ∧
    ∀ n addr, CellAddr addr →
      (∀ before after v, m.io = before ++ (addr.toNat, v) :: after → addr.toNat ∉ after.map Prod.fst →
        t.byteAt n addr = v) ∧
      (addr.toNat ∉ m.io.map Prod.fst → t.byteAt n addr = s.byteAt n addr)

/-! ### Reset and invariants -/

/-- R116, R1200 to R1202: the reset values of both columns, for every value of the parameters; under `BootRom` the registers are
draws, so only F's low nibble is said of them. -/
def Obligations.ResetLeavesTheSpecsValues : Prop :=
  ∀ p : Params, ResetValues p (State.resetWith p)

/-- The invariant holds after reset, whatever the parameters, if the boot ROM is given in canonical form. R1131, R1200: a step
whose host move is a reset event leaves the reset values under the `boot_mode` and `boot_rom` handed over and the invariant;
that it runs no instruction, keeps the cartridge image and the inputs to come, leaves the cartridge RAM it is handed and
makes the built-in memories fresh draws is the model's form of it (assumption 21). -/
def Obligations.ResetSatisfiesTheInvariant : Prop :=
  State.reset.Inv ∧ (∀ p : Params, memRising p.bootRom = true → (State.resetWith p).Inv) ∧
  ∀ (s : State) (r : ResetEvent), s.resetDue = some r → ∃ t, step s = .next t ∧
    ResetValues { s.params with bootMode := r.bootMode, bootRom := r.bootRom } t ∧ (s.Inv → t.Inv) ∧
    t.rom = s.rom ∧ t.env = s.env.tail ∧ t.ioAnswers = s.ioAnswers ∧ t.ramAnswers = s.ramAnswers ∧
    t.resets = s.resets + 1 ∧ t.cartWrites = [] ∧ t.xram = r.cartRam ∧
    ∀ n addr, PlainAddr addr → t.byteAt n addr = Config.powerUp .internal (s.resets + 1) (memKey addr)

/-- R104, R111, R1115 and the canonical form of the memories: every step keeps the invariant, from every state that has it. -/
def Obligations.EveryStepKeepsTheInvariant : Prop :=
  ∀ s t : State, s.Inv → step s = .next t → t.Inv

/-! ### The bus -/

/-- R202: the partitions have the bounds of the address map. R203, R204, R214: a byte of video RAM, work RAM, echo RAM, OAM or
high RAM reads back the last byte written, and echo RAM is work RAM 0x2000 below, for reads and for writes. R213: external
RAM reads as the byte of cartridge RAM the controller selects, or floats, and the controller is sent every write there
(assumptions 7 and 9 say what it stores). R210: an I/O cell reads as the byte the last write left in it, which is the byte
written unless the bus answers otherwise (assumption 10). -/
def Obligations.PlainMemoryReadsBackAndEchoIsWorkRam : Prop :=
  (∀ row ∈ addressMap, ∀ addr, region addr = row.2.2 ↔ row.1 ≤ addr.toNat ∧ addr.toNat ≤ row.2.1) ∧
  (∀ addr, (region addr).plain = true ↔ PlainAddr addr) ∧
  (∀ (s : State) (addr : Word) (v : Byte) (n : Nat), PlainAddr addr → (s.write addr v).byteAt n addr = v) ∧
  (∀ (s : State) (addr : Word) (v : Byte) (n : Nat), 0xE000 ≤ addr.toNat → addr.toNat < 0xFE00 →
    s.byteAt n addr = s.byteAt n (addr - 0x2000#16) ∧ s.write addr v = s.write (addr - 0x2000#16) v) ∧
  (∀ (s : State) (addr : Word) (v : Byte) (n k off : Nat), 0xA000 ≤ addr.toNat → addr.toNat ≤ 0xBFFF →
    s.byteAt n addr =
      (match s.ramOffset addr with
       | some off => memByte .cartRam s.resets s.xram off
       | none => Config.floatingByte n) ∧
    memByte .cartRam k (s.write addr v).xram off =
      (match ramStored s addr v with
       | some x => if off = x.1 then x.2 else memByte .cartRam k s.xram off
       | none => memByte .cartRam k s.xram off) ∧
    (s.write addr v).cartWrites = (addr.toNat, v) :: s.cartWrites ∧
    (s.write addr v).ramAnswers = s.ramAnswers.tail) ∧
  ∀ (s : State) (addr : Word) (v : Byte) (n : Nat), CellAddr addr →
    (s.write addr v).byteAt n addr = s.ioAnswers.headD v ∧ (s.write addr v).ioAnswers = s.ioAnswers.tail

/-- R202, R203, R221: a write changes what is read at the addresses it reaches only, and no CPU register; what a controller is
sent can move its windows (assumption 7). -/
def Obligations.AWriteReachesOnlyItsOwnBytes : Prop :=
  ∀ (s t : State) (addr : Word) (v : Byte), t = s.write addr v →
    (∀ n other, writeReaches addr other = false → t.byteAt n other = s.byteAt n other) ∧
    t = { s with ie := t.ie, iF := t.iF, bootMapped := t.bootMapped, mem := t.mem, xram := t.xram,
                 cartWrites := t.cartWrites, reads := t.reads, ioAnswers := t.ioAnswers,
                 ramAnswers := t.ramAnswers }

/-- R205, R206: 0xFFFF is IE, all eight bits; 0xFF0F is IF, whose bits 7:5 read as `if_upper_read` and are not stored. -/
def Obligations.TheMaskRegistersOnTheBus : Prop :=
  ∀ (s : State) (v : Byte) (n : Nat),
    s.byteAt n 0xFFFF#16 = s.ie ∧ s.write 0xFFFF#16 v = { s with ie := v } ∧
    (s.byteAt n 0xFF0F#16).toNat = 32 * s.params.ifUpperRead.toNat + s.iF.toNat ∧
    (s.write 0xFF0F#16 v).iF.toNat = v.toNat % 32 ∧
    s.write 0xFF0F#16 v = { s with iF := (s.write 0xFF0F#16 v).iF }

/-- R207: a write to 0xFF46 copies 160 bytes from page × 256 into OAM, byte for byte, within the write, and changes nothing
else. The model's reading for pages 0xE0 to 0xFD (echo RAM) and for a mapped boot ROM is assumption 11. -/
def Obligations.ADmaWriteCopiesAPageIntoOam : Prop :=
  ∀ (s : State) (page : Byte) (n i : Nat), page.toNat < 0xFE → i < 160 →
    (s.write 0xFF46#16 page).byteAt n (BitVec.ofNat 16 (0xFE00 + i)) =
      s.byteAt (s.reads + i) (BitVec.ofNat 16 (256 * page.toNat + i)) ∧
    s.write 0xFF46#16 page =
      { s with mem := (s.write 0xFF46#16 page).mem, reads := s.reads + 160 } ∧
    ∀ addr, region addr ≠ .oam → (s.write 0xFF46#16 page).byteAt n addr = s.byteAt n addr

/-- R208, R211: while the overlay is mapped, reads below 0x0100 answer the boot ROM, otherwise the cartridge's first ROM bytes;
a write there reaches the controller's registers only, and a write of any value to 0xFF50 unmaps the overlay. R202, R212: the
rest of the low window is bank 0, the window above it a bank that is never bank 0 (of the read-only controller, bank 1), and no
write changes a ROM byte. That the bank is a function of what the controller was sent is assumption 7. -/
def Obligations.TheBootOverlayAndItsUnmapping : Prop :=
  (∀ (s : State) (addr : Word) (v : Byte) (n : Nat), addr.toNat < 0x100 →
    (s.bootMapped = true → s.byteAt n addr = memByte .bootRom 0 s.params.bootRom addr.toNat) ∧
    (s.bootMapped = false → s.byteAt n addr = memByte .cartRom 0 s.rom addr.toNat) ∧
    s.write addr v = { s with cartWrites := (s.write addr v).cartWrites } ∧
    s.write 0xFF50#16 v = { s with bootMapped := false } ∧
    (s.write 0xFF50#16 v).byteAt n addr = memByte .cartRom 0 s.rom addr.toNat) ∧
  (∀ (s : State) (addr : Word) (n : Nat), 0x100 ≤ addr.toNat → addr.toNat ≤ 0x3FFF →
    s.byteAt n addr = memByte .cartRom 0 s.rom addr.toNat) ∧
  (∀ s : State, ∃ bank, 1 ≤ bank ∧ (s.params.cartridge = .readOnly → bank = 1) ∧
    ∀ (addr : Word) (n : Nat), 0x4000 ≤ addr.toNat → addr.toNat ≤ 0x7FFF →
      s.byteAt n addr = memByte .cartRom 0 s.rom (0x4000 * bank + (addr.toNat - 0x4000))) ∧
  ∀ (s : State) (addr : Word) (v : Byte), (s.write addr v).rom = s.rom ∧
    (s.params.cartridge = .readOnly → addr.toNat ≤ 0x7FFF → s.write addr v = s)

/-- R212, R208: no step writes a ROM byte; but for the reset event, which sets the two parameters the host chooses, no step
changes a parameter, and the overlay once unmapped stays so. -/
def Obligations.NoStepWritesRomOrMapsTheOverlayAgain : Prop :=
  ∀ s t : State, step s = .next t → t.rom = s.rom ∧
    (s.resetDue = none → t.params = s.params ∧ (s.bootMapped = false → t.bootMapped = false)) ∧
    ∀ r, s.resetDue = some r → t.params = { s.params with bootMode := r.bootMode, bootRom := r.bootRom }

/-! ### Loads, stores and the stack -/

/-- R500, R501, R520, R522: loads of registers from registers and immediates write their destination and no flag. -/
def Obligations.RegisterAndImmediateLoads : Prop :=
  ∀ (s : State) (dst r : Reg8) (n : Byte) (rr : Rp) (v : Word),
    Does (.ldRR dst r) [0x40 + 8 * r8N dst + r8N r] s (fun t =>
      t.getR8 dst = s.getR8 r ∧ t.f = s.f ∧ RegisterOnly [dst] 1 s t) ∧
    Does (.ldRN dst n) [0x06 + 8 * r8N dst, n.toNat] s (fun t =>
      t.getR8 dst = n ∧ t.f = s.f ∧ RegisterOnly [dst] 2 s t) ∧
    Does (.ldRpN rr v) [0x01 + 16 * rpN rr, lowN v, highN v] s (fun t => t.getRp rr = v ∧ RpOnly rr 3 s t) ∧
    Does .ldSpHl [0xF9] s (fun t => t.sp = joinBytes s.h s.l ∧ RpOnly .sp 2 s t)

/-- R502, R505, R506, R509, R511, R513: loads from memory write their destination and no flag, and change no byte. -/
def Obligations.LoadsFromMemory : Prop :=
  ∀ (s : State) (dst : Reg8) (n : Byte) (addr : Word),
    Does (.ldRHl dst) [0x46 + 8 * r8N dst] s
      (fun t => t.getR8 dst = s.peek (joinBytes s.h s.l) ∧ t.f = s.f ∧ RegisterOnly [dst] 2 s t) ∧
    LoadsA .ldABc [0x0A] s (joinBytes s.b s.c) 2 ∧ LoadsA .ldADe [0x1A] s (joinBytes s.d s.e) 2 ∧
    LoadsA (.ldAA16 addr) [0xFA, lowN addr, highN addr] s addr 4 ∧
    LoadsA (.ldhAA8 n) [0xF0, n.toNat] s (BitVec.ofNat 16 (0xFF00 + n.toNat)) 3 ∧
    LoadsA .ldhAC [0xF2] s (BitVec.ofNat 16 (0xFF00 + s.c.toNat)) 2

/-- R515, R516: loads of A through HL that then step HL by one, modulo 2^16. -/
def Obligations.LoadsThatStepHl : Prop :=
  ∀ s : State,
    Does .ldAHli [0x2A] s (fun t => t.a = s.peek s.hlPair ∧ t.hlPair.toNat = (s.hlPair.toNat + 1) % 65536 ∧
      t.f = s.f ∧ RegisterOnly [.a, .h, .l] 2 s t) ∧
    Does .ldAHld [0x3A] s (fun t => t.a = s.peek s.hlPair ∧ t.hlPair.toNat = (s.hlPair.toNat + 65535) % 65536 ∧
      t.f = s.f ∧ RegisterOnly [.a, .h, .l] 2 s t)

/-- R503, R504, R507, R508, R510, R512, R514: stores of one byte. -/
def Obligations.StoresOfOneByte : Prop :=
  ∀ (s : State) (r : Reg8) (n : Byte) (addr : Word),
    StoresAt (.ldHlR r) [0x70 + r8N r] s (joinBytes s.h s.l) (s.getR8 r) 2 ∧
    StoresAt (.ldHlN n) [0x36, n.toNat] s (joinBytes s.h s.l) n 3 ∧
    StoresAt .ldBcA [0x02] s (joinBytes s.b s.c) s.a 2 ∧ StoresAt .ldDeA [0x12] s (joinBytes s.d s.e) s.a 2 ∧
    StoresAt (.ldA16A addr) [0xEA, lowN addr, highN addr] s addr s.a 4 ∧
    StoresAt (.ldhA8A n) [0xE0, n.toNat] s (BitVec.ofNat 16 (0xFF00 + n.toNat)) s.a 3 ∧
    StoresAt .ldhCA [0xE2] s (BitVec.ofNat 16 (0xFF00 + s.c.toNat)) s.a 2

/-- R517, R518: stores of A through HL that then step HL by one, modulo 2^16. -/
def Obligations.StoresThatStepHl : Prop :=
  ∀ s : State,
    Does .ldHliA [0x22] s (fun t => t.hlPair.toNat = (s.hlPair.toNat + 1) % 65536 ∧ t.f = s.f ∧
      StoresByte s.hlPair s.a [.h, .l] 2 s s t) ∧
    Does .ldHldA [0x32] s (fun t => t.hlPair.toNat = (s.hlPair.toNat + 65535) % 65536 ∧ t.f = s.f ∧
      StoresByte s.hlPair s.a [.h, .l] 2 s s t)

/-- R521: `ld [a16], SP` stores SP's low byte at `a16`, then its high byte at `a16 + 1` modulo 2^16, and nothing else. -/
def Obligations.StoreOfSpWritesTheLowByteFirst : Prop :=
  ∀ (s : State) (addr : Word), Does (.ldA16Sp addr) [0x08, lowN addr, highN addr] s fun t =>
    Rest [] 5 s t ∧ t.f = s.f ∧ t.sp = s.sp ∧ t.pc = s.pc ∧
    BusIs ((s.write addr (loByte s.sp)).write (addr + 1#16) (hiByte s.sp)) t ∧
    ((region addr).plain = true → (region (addr + 1#16)).plain = true →
      ∀ k, t.byteAt k addr = loByte s.sp ∧ t.byteAt k (addr + 1#16) = hiByte s.sp) ∧
    ∀ k other, writeReaches addr other = false → writeReaches (addr + 1#16) other = false →
      t.byteAt k other = s.byteAt k other

/-- R529, R530: PUSH stores the high byte at SP - 1 and the low byte at SP - 2 and leaves SP two lower; PUSH AF pushes F with
bits 3:0 zero. -/
def Obligations.PushStoresAPair : Prop :=
  ∀ (s : State) (rr : Rp2), Does (.push rr) [0xC5 + 16 * rp2N rr] s fun t => t.pc = s.pc ∧ Pushes (pushedWord s rr) 4 s t

/-- R529, R531, R532: POP reads the low byte at SP and the high byte at SP + 1 and leaves SP two higher; POP AF loads the four
flags and leaves F's low nibble 0. -/
def Obligations.PopLoadsAPair : Prop :=
  ∀ (s : State) (rr : Pair),
    Does (.pop rr) [0xC1 + 16 * pairN rr] s (fun t =>
      pairWord t rr = stackWord s ∧
      t = { afterPop 3 s with b := t.b, c := t.c, d := t.d, e := t.e, h := t.h, l := t.l } ∧
      ∀ r, r ∉ pairRegs rr → t.getR8 r = s.getR8 r) ∧
    Does .popAf [0xF1] s (fun t =>
      t.a = s.byteAt (s.reads + 1) (s.sp + 1#16) ∧
      FlagsAre ((s.peek s.sp).getLsbD 7 = true) ((s.peek s.sp).getLsbD 6 = true) ((s.peek s.sp).getLsbD 5 = true)
        ((s.peek s.sp).getLsbD 4 = true) t ∧
      t = { afterPop 3 s with a := t.a, f := t.f })

/-- R529: "push(rr) followed by pop(rr') yields rr' == rr, and SP is unchanged", when the two stack bytes are plain storage. -/
def Obligations.PushThenPopMovesAPair : Prop :=
  ∀ (s t u : State) (rr : Rp2) (rr' : Pair), (region (s.sp - 1#16)).plain = true →
    (region (s.sp - 2#16)).plain = true → exec (.push rr) s = .next t → exec (.pop rr') t = .next u →
    u.sp = s.sp ∧ pairWord u rr' = pushedWord s rr

/-! ### 8-bit arithmetic and logic -/

/-- R600 to R607: ADD and ADC, every operand form. -/
def Obligations.AddAndAdcGiveTheSumAndItsFlags : Prop :=
  ∀ (s : State) (r : Reg8) (n : Byte),
    Does (.addR r) [0x80 + r8N r] s (AddResult (s.getR8 r) 0 1 s) ∧
    Does .addHl [0x86] s (AddResult (s.peek s.hlPair) 0 2 s) ∧
    Does (.addN n) [0xC6, n.toNat] s (AddResult n 0 2 s) ∧
    Does (.adcR r) [0x88 + r8N r] s (AddResult (s.getR8 r) (carryIn s) 1 s) ∧
    Does .adcHl [0x8E] s (AddResult (s.peek s.hlPair) (carryIn s) 2 s) ∧
    Does (.adcN n) [0xCE, n.toNat] s (AddResult n (carryIn s) 2 s)

/-- R600, R608 to R613: SUB and SBC, every operand form. -/
def Obligations.SubAndSbcGiveTheDifferenceAndItsFlags : Prop :=
  ∀ (s : State) (r : Reg8) (n : Byte),
    Does (.subR r) [0x90 + r8N r] s (SubResult (s.getR8 r) 0 1 s) ∧
    Does .subHl [0x96] s (SubResult (s.peek s.hlPair) 0 2 s) ∧
    Does (.subN n) [0xD6, n.toNat] s (SubResult n 0 2 s) ∧
    Does (.sbcR r) [0x98 + r8N r] s (SubResult (s.getR8 r) (carryIn s) 1 s) ∧
    Does .sbcHl [0x9E] s (SubResult (s.peek s.hlPair) (carryIn s) 2 s) ∧
    Does (.sbcN n) [0xDE, n.toNat] s (SubResult n (carryIn s) 2 s)

/-- R623 to R625: CP keeps only the flags of the subtraction; A is not written. -/
def Obligations.CpSetsTheFlagsAndKeepsA : Prop :=
  ∀ (s : State) (r : Reg8) (n : Byte),
    Does (.cpR r) [0xB8 + r8N r] s (CpResult (s.getR8 r) 1 s) ∧
    Does .cpHl [0xBE] s (CpResult (s.peek s.hlPair) 2 s) ∧
    Does (.cpN n) [0xFE, n.toNat] s (CpResult n 2 s)

/-- R614 to R622: AND, XOR and OR, every operand form; AND sets H, XOR and OR clear it. -/
def Obligations.AndXorOrAreBitwise : Prop :=
  ∀ (s : State) (r : Reg8) (n : Byte),
    Does (.andR r) [0xA0 + r8N r] s (LogicResult and True (s.getR8 r) 1 s) ∧
    Does .andHl [0xA6] s (LogicResult and True (s.peek s.hlPair) 2 s) ∧
    Does (.andN n) [0xE6, n.toNat] s (LogicResult and True n 2 s) ∧
    Does (.xorR r) [0xA8 + r8N r] s (LogicResult xor False (s.getR8 r) 1 s) ∧
    Does .xorHl [0xAE] s (LogicResult xor False (s.peek s.hlPair) 2 s) ∧
    Does (.xorN n) [0xEE, n.toNat] s (LogicResult xor False n 2 s) ∧
    Does (.orR r) [0xB0 + r8N r] s (LogicResult or False (s.getR8 r) 1 s) ∧
    Does .orHl [0xB6] s (LogicResult or False (s.peek s.hlPair) 2 s) ∧
    Does (.orN n) [0xF6, n.toNat] s (LogicResult or False n 2 s)

/-- R626, R628: INC and DEC of a register, modulo 2^8, C not written. -/
def Obligations.IncAndDecOfARegister : Prop :=
  ∀ (s : State) (r : Reg8),
    Does (.incR r) [0x04 + 8 * r8N r] s (fun t =>
      (t.getR8 r).toNat = ((s.getR8 r).toNat + 1) % 256 ∧
      FlagsAre (t.getR8 r = 0#8) False ((s.getR8 r).toNat % 16 = 15) (flagC s.f = true) t ∧ RegisterOnly [r] 1 s t) ∧
    Does (.decR r) [0x05 + 8 * r8N r] s (fun t =>
      (t.getR8 r).toNat = ((s.getR8 r).toNat + 255) % 256 ∧
      FlagsAre (t.getR8 r = 0#8) True ((s.getR8 r).toNat % 16 = 0) (flagC s.f = true) t ∧ RegisterOnly [r] 1 s t)

/-- R627, R629: INC and DEC of the byte at HL: one read, then one write of the result to the same address. -/
def Obligations.IncAndDecOfTheByteAtHl : Prop :=
  ∀ s : State,
    Does .incHl [0x34] s (fun t => ∃ v : Byte, v.toNat = ((s.peek s.hlPair).toNat + 1) % 256 ∧
      FlagsAre (v = 0#8) False ((s.peek s.hlPair).toNat % 16 = 15) (flagC s.f = true) t ∧
      StoresByte s.hlPair v [] 3 s.tick s t) ∧
    Does .decHl [0x35] s (fun t => ∃ v : Byte, v.toNat = ((s.peek s.hlPair).toNat + 255) % 256 ∧
      FlagsAre (v = 0#8) True ((s.peek s.hlPair).toNat % 16 = 0) (flagC s.f = true) t ∧
      StoresByte s.hlPair v [] 3 s.tick s t)

/-- R630: DAA for every A and every flags; N kept, H cleared, C never cleared after a subtraction. -/
def Obligations.DaaAdjustsTheAccumulator : Prop :=
  ∀ s : State, Does .daa [0x27] s fun t =>
    (t.a.toNat : Int) = daaValue s.a.toNat (flagN s.f) (flagH s.f) (flagC s.f) % 256 ∧
    FlagsAre (t.a = 0#8) (flagN s.f = true) False
      (flagC s.f = true ∨ (flagN s.f = false ∧ 0x99 < s.a.toNat)) t ∧
    RegisterOnly [.a] 1 s t

/-- R631 to R633: CPL complements A; SCF sets C, CCF complements it; Z is kept by all three. -/
def Obligations.CplScfAndCcf : Prop :=
  ∀ s : State,
    Does .cpl [0x2F] s (fun t => t.a.toNat = 255 - s.a.toNat ∧
      FlagsAre (flagZ s.f = true) True True (flagC s.f = true) t ∧ RegisterOnly [.a] 1 s t) ∧
    Does .scf [0x37] s (fun t => FlagsAre (flagZ s.f = true) False False True t ∧ RegisterOnly [] 1 s t) ∧
    Does .ccf [0x3F] s (fun t =>
      FlagsAre (flagZ s.f = true) False False (flagC s.f = false) t ∧ RegisterOnly [] 1 s t)

/-! ### 16-bit arithmetic -/

/-- R700: ADD HL,rr takes H from bit 11 and C from bit 15 and keeps Z. -/
def Obligations.AddHlCarriesFromBits11And15 : Prop :=
  ∀ (s : State) (rr : Rp), Does (.addHlRp rr) [0x09 + 16 * rpN rr] s fun t =>
    t.hlPair.toNat = (s.hlPair.toNat + (s.getRp rr).toNat) % 65536 ∧
    FlagsAre (flagZ s.f = true) False (4095 < s.hlPair.toNat % 4096 + (s.getRp rr).toNat % 4096)
      (65535 < s.hlPair.toNat + (s.getRp rr).toNat) t ∧
    RegisterOnly [.h, .l] 2 s t

/-- R701, R702: INC rr and DEC rr are one operation modulo 2^16 and write no flag. -/
def Obligations.IncAndDecOfAPair : Prop :=
  ∀ (s : State) (rr : Rp),
    Does (.incRp rr) [0x03 + 16 * rpN rr] s (fun t =>
      (t.getRp rr).toNat = ((s.getRp rr).toNat + 1) % 65536 ∧ RpOnly rr 2 s t) ∧
    Does (.decRp rr) [0x0B + 16 * rpN rr] s (fun t =>
      (t.getRp rr).toNat = ((s.getRp rr).toNat + 65535) % 65536 ∧ RpOnly rr 2 s t)

/-- R703 to R705: the sum with a signed offset, its flags from the unsigned sum with SP's low byte, Z and N clear. -/
def Obligations.SpPlusOffsetTakesItsFlagsFromTheLowByte : Prop :=
  ∀ (s : State) (e : Byte),
    Does (.addSpE e) [0xE8, e.toNat] s (fun t => IsSumWith s.sp e t.sp ∧
      FlagsAre False False (15 < s.sp.toNat % 16 + e.toNat % 16) (255 < s.sp.toNat % 256 + e.toNat) t ∧
      Rest [] 4 s t ∧ t.pc = s.pc ∧ BusIs s t) ∧
    Does (.ldHlSpE e) [0xF8, e.toNat] s (fun t => IsSumWith s.sp e t.hlPair ∧
      FlagsAre False False (15 < s.sp.toNat % 16 + e.toNat % 16) (255 < s.sp.toNat % 256 + e.toNat) t ∧
      RegisterOnly [.h, .l] 3 s t)

/-! ### Rotates, shifts and bit operations -/

/-- R800 to R803: the accumulator rotates; Z is cleared even when the result is 0. -/
def Obligations.AccumulatorRotates : Prop :=
  ∀ (s : State) (v : Nat), v = s.a.toNat →
    RotatesA .rlca [0x07] s (rlcN v) (v / 128) ∧ RotatesA .rrca [0x0F] s (rrcN v) (v % 2) ∧
    RotatesA .rla [0x17] s (rlN v (carryIn s)) (v / 128) ∧ RotatesA .rra [0x1F] s (rrN v (carryIn s)) (v % 2)

/-- R805, R807, R809, R811, R813, R815, R817, R819: the secondary rotates, shifts and SWAP on a register. -/
def Obligations.RotatesAndShiftsOfARegister : Prop :=
  ∀ (s : State) (r : Reg8) (v : Nat), v = (s.getR8 r).toNat →
    ShiftsRegister (.rlcR r) 0 s r (rlcN v) (v / 128) ∧ ShiftsRegister (.rrcR r) 1 s r (rrcN v) (v % 2) ∧
    ShiftsRegister (.rlR r) 2 s r (rlN v (carryIn s)) (v / 128) ∧
    ShiftsRegister (.rrR r) 3 s r (rrN v (carryIn s)) (v % 2) ∧
    ShiftsRegister (.slaR r) 4 s r (slaN v) (v / 128) ∧ ShiftsRegister (.sraR r) 5 s r (sraN v) (v % 2) ∧
    ShiftsRegister (.swapR r) 6 s r (swapN v) 0 ∧ ShiftsRegister (.srlR r) 7 s r (srlN v) (v % 2)

/-- R806, R808, R810, R812, R814, R816, R818, R820: the same on the byte at HL: one read, then one write to that address. -/
def Obligations.RotatesAndShiftsOfTheByteAtHl : Prop :=
  ∀ (s : State) (v : Nat), v = (s.peek s.hlPair).toNat →
    ShiftsHl .rlcHl 0 s (rlcN v) (v / 128) ∧ ShiftsHl .rrcHl 1 s (rrcN v) (v % 2) ∧
    ShiftsHl .rlHl 2 s (rlN v (carryIn s)) (v / 128) ∧ ShiftsHl .rrHl 3 s (rrN v (carryIn s)) (v % 2) ∧
    ShiftsHl .slaHl 4 s (slaN v) (v / 128) ∧ ShiftsHl .sraHl 5 s (sraN v) (v % 2) ∧
    ShiftsHl .swapHl 6 s (swapN v) 0 ∧ ShiftsHl .srlHl 7 s (srlN v) (v % 2)

/-- R821, R822: BIT sets Z to the complement of the bit, clears N, sets H, keeps C, and writes no operand. -/
def Obligations.BitTestsOneBit : Prop :=
  ∀ (s : State) (u3 : BitVec 3) (r : Reg8),
    Does (.bitR u3 r) [0xCB, 0x40 + 8 * u3.toNat + r8N r] s (fun t =>
      FlagsAre (bitN u3.toNat (s.getR8 r).toNat = 0) False True (flagC s.f = true) t ∧ RegisterOnly [] 2 s t) ∧
    Does (.bitHl u3) [0xCB, 0x46 + 8 * u3.toNat] s (fun t =>
      FlagsAre (bitN u3.toNat (s.peek s.hlPair).toNat = 0) False True (flagC s.f = true) t ∧ RegisterOnly [] 3 s t)

/-- R823 to R826: RES clears and SET sets one bit of a register or of the byte at HL, and no flag changes. -/
def Obligations.ResAndSetWriteOneBit : Prop :=
  ∀ (s : State) (u3 : BitVec 3) (r : Reg8),
    Does (.resR u3 r) [0xCB, 0x80 + 8 * u3.toNat + r8N r] s (fun t =>
      (t.getR8 r).toNat + 2 ^ u3.toNat * bitN u3.toNat (s.getR8 r).toNat =
      (s.getR8 r).toNat ∧ t.f = s.f ∧ RegisterOnly [r] 2 s t) ∧
    Does (.setR u3 r) [0xCB, 0xC0 + 8 * u3.toNat + r8N r] s (fun t =>
      (t.getR8 r).toNat + 2 ^ u3.toNat * bitN u3.toNat (s.getR8 r).toNat =
      (s.getR8 r).toNat + 2 ^ u3.toNat ∧ t.f = s.f ∧ RegisterOnly [r] 2 s t) ∧
    Does (.resHl u3) [0xCB, 0x86 + 8 * u3.toNat] s (fun t =>
      t.f = s.f ∧ ∃ v : Byte, StoresByte s.hlPair v [] 4 s.tick s t ∧
      v.toNat + 2 ^ u3.toNat * bitN u3.toNat (s.peek s.hlPair).toNat = (s.peek s.hlPair).toNat) ∧
    Does (.setHl u3) [0xCB, 0xC6 + 8 * u3.toNat] s (fun t =>
      t.f = s.f ∧ ∃ v : Byte, StoresByte s.hlPair v [] 4 s.tick s t ∧
      v.toNat + 2 ^ u3.toNat * bitN u3.toNat (s.peek s.hlPair).toNat = (s.peek s.hlPair).toNat + 2 ^ u3.toNat)

/-! ### Control transfer -/

/-- R900 to R905: jumps, absolute and relative, taken and not taken, with both costs; nothing else changes. -/
def Obligations.JumpsGoWhereTheirRuleSays : Prop :=
  ∀ (s : State) (addr : Word) (e : Byte) (cc : Cond),
    Does (.jp addr) [0xC3, lowN addr, highN addr] s (fun t => t.pc = addr ∧ JumpOnly 4 s t) ∧
    Does .jpHl [0xE9] s (fun t => t.pc = joinBytes s.h s.l ∧ JumpOnly 1 s t) ∧
    Does (.jr e) [0x18, e.toNat] s (fun t => IsSumWith s.pc e t.pc ∧ JumpOnly 3 s t) ∧
    Does (.jpCc cc addr) [0xC2 + 8 * ccN cc, lowN addr, highN addr] s (fun t =>
      (Holds s cc → t.pc = addr ∧ JumpOnly 4 s t) ∧ (¬Holds s cc → t = CostOnly 3 s)) ∧
    Does (.jrCc cc e) [0x20 + 8 * ccN cc, e.toNat] s (fun t =>
      (Holds s cc → IsSumWith s.pc e t.pc ∧ JumpOnly 3 s t) ∧ (¬Holds s cc → t = CostOnly 2 s))

/-- R906, R907, R911: calls and restarts push the address after the instruction and jump; a call not taken touches no stack. -/
def Obligations.CallsPushTheReturnAddress : Prop :=
  ∀ (s : State) (addr : Word) (cc : Cond) (y : BitVec 3),
    Does (.call addr) [0xCD, lowN addr, highN addr] s (fun t => t.pc = addr ∧ Pushes s.pc 6 s t) ∧
    Does (.callCc cc addr) [0xC4 + 8 * ccN cc, lowN addr, highN addr] s (fun t =>
      (Holds s cc → t.pc = addr ∧ Pushes s.pc 6 s t) ∧ (¬Holds s cc → t = CostOnly 3 s)) ∧
    Does (.rst y) [0xC7 + 8 * y.toNat] s (fun t => t.pc.toNat = 8 * y.toNat ∧ Pushes s.pc 4 s t)

/-- R908 to R910: returns pop PC; RETI also sets `ime` at once; a return not taken touches no stack. -/
def Obligations.ReturnsPopPc : Prop :=
  ∀ (s : State) (cc : Cond),
    Does .ret [0xC9] s (fun t => t = { afterPop 4 s with pc := stackWord s }) ∧
    Does .reti [0xD9] s (fun t => t = { afterPop 4 s with pc := stackWord s, ime := true }) ∧
    Does (.retCc cc) [0xC0 + 8 * ccN cc] s (fun t =>
      (Holds s cc → t = { afterPop 5 s with pc := stackWord s }) ∧ (¬Holds s cc → t = CostOnly 2 s))

/-! ### System instructions -/

/-- R1000, R1003, R1004: NOP changes nothing but the counters, DI clears `ime` and `ime_delay`, EI sets `ime_delay` only. -/
def Obligations.NopDiAndEi : Prop :=
  ∀ s : State,
    Does .nop [0x00] s (fun t => t = CostOnly 1 s) ∧
    Does .di [0xF3] s (fun t => t = { CostOnly 1 s with ime := false, imeDelay := false }) ∧
    Does .ei [0xFB] s (fun t => t = { CostOnly 1 s with imeDelay := true })

/-- R1001: HALT halts, but under the halt bug with `ime = 0` and a request pending it marks the bug and stays running. -/
def Obligations.HaltHaltsOrMarksTheBug : Prop :=
  ∀ s : State, Does .halt [0x76] s fun t =>
    (s.params.haltBug = true ∧ s.ime = false ∧ s.pending ≠ 0#5 → t = { CostOnly 1 s with haltBugPending := true }) ∧
    (¬(s.params.haltBug = true ∧ s.ime = false ∧ s.pending ≠ 0#5) → t = { CostOnly 1 s with haltState := .halted })

/-- R1002, R315: STOP enters the stopped state whatever its second byte holds. -/
def Obligations.StopStopsWhateverItsSecondByte : Prop :=
  ∀ (s : State) (n : Byte),
    Does (.stop n) [0x10, n.toNat] s fun t => t = { CostOnly 1 s with haltState := .stopped }

/-- R1006, R1104: an illegal opcode, run by a step from `addr`, leaves the faulted state with PC = addr + 1 and no cycle
charged, changes nothing else but the delayed enable of R401, and no step follows (R405). That the step into the faulted
state is a next state and the step after it the fault is the model's form of this (assumption 16). -/
def Obligations.AnIllegalOpcodeLeavesTheFaultedState : Prop :=
  (∀ (s : State) (op : Byte),
    Does (.illegal op) [op.toNat] s fun t => t = { s with haltState := .faulted op s.start }) ∧
  ∀ s u : State, s.resetDue = none → u = s.envStep → u.haltState = .running → (u.ime = false ∨ u.pending = 0#5) →
    u.haltBugPending = false → illegalByte (u.peek u.pc) →
    ∃ t, step s = .next t ∧
      t = { u with haltState := .faulted (u.peek u.pc) u.pc, pc := u.pc + 1#16, start := u.pc,
                   ime := u.ime || u.imeDelay, imeDelay := false, reads := u.reads + 1 } ∧
      step t = .fault (.illegalOpcode (u.peek u.pc) u.pc)

/-- R1005: the escape fetches one more byte and does what the secondary instruction of that byte does. -/
def Obligations.TheEscapeRunsTheSecondaryInstruction : Prop :=
  ∀ s : State, ∃ t, exec .prefixCb s = .next t ∧
    exec (secondary (s.peek s.pc)) { s with pc := s.pc + 1#16, reads := s.reads + 1 } = .next t

/-! ### Whole-machine rules -/

/-- R330: every instruction obeys its flag pattern in the entries that say set, clear and unchanged; F's low nibble stays 0. -/
def Obligations.EveryInstructionObeysItsFlagPattern : Prop :=
  ∀ (i : Instr) (s t : State), i.wellFormed = true → exec i s = .next t →
    (flagPattern i).1.Obeyed (flagZ s.f) (flagZ t.f) ∧ (flagPattern i).2.1.Obeyed (flagN s.f) (flagN t.f) ∧
    (flagPattern i).2.2.1.Obeyed (flagH s.f) (flagH t.f) ∧ (flagPattern i).2.2.2.Obeyed (flagC s.f) (flagC t.f) ∧
    (s.f.toNat % 16 = 0 → t.f.toNat % 16 = 0)

/-- R406, R407, R409: every instruction reports the cost the table gives it and adds it to the total; an illegal opcode
charges nothing. -/
def Obligations.EveryInstructionCostsWhatTheTableSays : Prop :=
  ∀ (i : Instr) (s t : State), i.wellFormed = true → exec i s = .next t →
    t.cycleTotal = s.cycleTotal + cost s i ∧ ((∀ op, i ≠ .illegal op) → t.stepCycles = cost s i)

/-- R219: an instruction that stores nothing changes no byte and no mask. -/
def Obligations.OnlyStoringInstructionsChangeMemory : Prop :=
  ∀ (i : Instr) (s t : State), i.wellFormed = true → .memory ∉ writes i → exec i s = .next t → BusIs s t

/-- R106, R108, R109, R110, R115: SP, PC, `ime`, `ime_delay` and the CPU's state are written only by the instructions the spec
names. -/
def Obligations.OnlyTheirWritersChangeControlState : Prop :=
  ∀ (i : Instr) (s t : State), i.wellFormed = true → exec i s = .next t →
    (.sp ∉ writes i → t.sp = s.sp) ∧ (.pc ∉ writes i → t.pc = s.pc) ∧ (.ime ∉ writes i → t.ime = s.ime) ∧
    (.imeDelay ∉ writes i → t.imeDelay = s.imeDelay) ∧ (.haltState ∉ writes i → t.haltState = s.haltState) ∧
    (.haltBug ∉ writes i → t.haltBugPending = s.haltBugPending) ∧ t.params = s.params ∧ t.env = s.env

/-- R1107: a step clears an IF bit only by the reset event, by a dispatch or by an instruction that stores; the environment's
move only sets bits. -/
def Obligations.OnlyDispatchAndStoresClearARequest : Prop :=
  ∀ (s t : State) (k : Interrupt), step s = .next t → s.iF.getLsbD k.bit = true → t.iF.getLsbD k.bit = false →
    (∃ r, s.resetDue = some r) ∨ (s.envStep.ime = true ∧ s.envStep.pending ≠ 0#5 ∧ t.stepCycles = 5) ∨
    .memory ∈ writes ({ s.envStep with haltState := .running } : State).enableDelayed.fetchInstr.1
end

