-- ==== Sys2Proof/Laws/Memory.lean ====
section
/-! SUPPORT. The laws of the sparse byte store: read after write, and every write keeps the canonical form. -/

namespace Sys2Proof.Machine

/-- A read after a store to the same address gives the byte stored. -/
@[simp] theorem memLookup_memStore_self (m : Memory) (addr : Nat) (v : Byte) :
    memLookup (memStore m addr v) addr = some v := by
  induction m with
  | nil => simp [memStore, memLookup]
  | cons x m ih =>
    simp only [memStore]
    split
    · simp [memLookup]
    · split
      · simp [memLookup]
      · next h => simp [memLookup, h, ih]

/-- A store leaves every other address alone. -/
theorem memLookup_memStore_of_ne (m : Memory) {addr addr' : Nat} (v : Byte) (h : addr' ≠ addr) :
    memLookup (memStore m addr v) addr' = memLookup m addr' := by
  induction m with
  | nil => simp [memStore, memLookup, h.symm]
  | cons x m ih =>
    simp only [memStore]
    split
    · simp [memLookup, h.symm]
    · split
      · next hk => simp [memLookup, hk, h.symm]
      · simp only [memLookup, ih]

/-- A read after a store to the same address gives the byte stored. -/
@[simp] theorem memByte_memStore_self (st : Store) (k : Nat) (m : Memory) (addr : Nat) (v : Byte) :
    memByte st k (memStore m addr v) addr = v := by
  simp [memByte]

/-- A store leaves every other address alone. -/
theorem memByte_memStore_of_ne (st : Store) (k : Nat) (m : Memory) {addr addr' : Nat} (v : Byte) (h : addr' ≠ addr) :
    memByte st k (memStore m addr v) addr' = memByte st k m addr' := by
  simp [memByte, memLookup_memStore_of_ne m v h]

/-- Rising is the addresses being pairwise in order. -/
theorem memRising_iff (m : Memory) : memRising m = true ↔ (m.map Prod.fst).Pairwise (· < ·) := by
  induction m with
  | nil => simp [memRising]
  | cons x m ih =>
    cases m with
    | nil => simp [memRising]
    | cons y m =>
      simp only [memRising, Bool.and_eq_true, decide_eq_true_eq, ih, List.map_cons, List.pairwise_cons]
      constructor
      · rintro ⟨hxy, hy, hm⟩
        refine ⟨?_, hy, hm⟩
        intro a ha
        rcases List.mem_cons.1 ha with rfl | ha
        · exact hxy
        · exact lt_trans hxy (hy a ha)
      · rintro ⟨hx, hy, hm⟩
        exact ⟨hx _ (List.mem_cons_self ..), hy, hm⟩

/-- The addresses after a store are the old ones and the one stored to. -/
theorem mem_map_fst_memStore {m : Memory} {addr a : Nat} {v : Byte} (h : a ∈ (memStore m addr v).map Prod.fst) :
    a = addr ∨ a ∈ m.map Prod.fst := by
  induction m with
  | nil => simp_all [memStore]
  | cons x m ih =>
    simp only [memStore] at h
    split at h
    · simpa using h
    · split at h
      · next hk => simp only [List.map_cons, List.mem_cons] at h ⊢; exact h.imp id Or.inr
      · simp only [List.map_cons, List.mem_cons] at h ⊢
        rcases h with h | h
        · exact .inr (.inl h)
        · exact (ih h).imp id Or.inr

/-- Every store keeps the addresses rising. -/
theorem memRising_memStore {m : Memory} (addr : Nat) (v : Byte) (h : memRising m = true) :
    memRising (memStore m addr v) = true := by
  rw [memRising_iff] at h ⊢
  induction m with
  | nil => simp [memStore]
  | cons x m ih =>
    obtain ⟨hx, hm⟩ := List.pairwise_cons.1 h
    simp only [memStore]
    split
    · next hlt =>
      refine List.pairwise_cons.2 ⟨?_, h⟩
      intro a ha
      rcases List.mem_cons.1 ha with rfl | ha
      · exact hlt
      · exact lt_trans hlt (hx a ha)
    · split
      · next hk => exact List.pairwise_cons.2 ⟨fun a ha => hk ▸ hx a ha, hm⟩
      · next hge hne =>
        refine List.pairwise_cons.2 ⟨fun a ha => ?_, ih hm⟩
        rcases mem_map_fst_memStore ha with rfl | ha
        · simp only at *; omega
        · exact hx a ha

/-- Every store to an address the store has keeps the canonical form. -/
theorem memWf_memStore {has : Nat → Bool} {m : Memory} (addr : Nat) (v : Byte) (ha : has addr = true)
    (h : memWf has m = true) : memWf has (memStore m addr v) = true := by
  simp only [memWf, Bool.and_eq_true, List.all_eq_true] at h ⊢
  refine ⟨memRising_memStore addr v h.1, fun x hx => ?_⟩
  rcases mem_map_fst_memStore (List.mem_map_of_mem (f := Prod.fst) hx) with he | hm
  · rw [he]; exact ha
  · obtain ⟨y, hy, he⟩ := List.mem_map.1 hm
    rw [← he]; exact h.2 y hy

end Sys2Proof.Machine
end

