-- ==== Sys2Proof/Laws/State.lean ====
section
/-! SUPPORT. One lemma per field per update of the state, so that no proof unfolds a record update. -/

namespace Sys2Proof.Machine

/-! ### `tick`: one bus read -/

@[simp] theorem State.tick_a (s : State) : (s.tick).a = s.a := rfl
@[simp] theorem State.tick_f (s : State) : (s.tick).f = s.f := rfl
@[simp] theorem State.tick_b (s : State) : (s.tick).b = s.b := rfl
@[simp] theorem State.tick_c (s : State) : (s.tick).c = s.c := rfl
@[simp] theorem State.tick_d (s : State) : (s.tick).d = s.d := rfl
@[simp] theorem State.tick_e (s : State) : (s.tick).e = s.e := rfl
@[simp] theorem State.tick_h (s : State) : (s.tick).h = s.h := rfl
@[simp] theorem State.tick_l (s : State) : (s.tick).l = s.l := rfl
@[simp] theorem State.tick_sp (s : State) : (s.tick).sp = s.sp := rfl
@[simp] theorem State.tick_pc (s : State) : (s.tick).pc = s.pc := rfl
@[simp] theorem State.tick_ime (s : State) : (s.tick).ime = s.ime := rfl
@[simp] theorem State.tick_imeDelay (s : State) : (s.tick).imeDelay = s.imeDelay := rfl
@[simp] theorem State.tick_haltState (s : State) : (s.tick).haltState = s.haltState := rfl
@[simp] theorem State.tick_haltBugPending (s : State) : (s.tick).haltBugPending = s.haltBugPending := rfl
@[simp] theorem State.tick_ie (s : State) : (s.tick).ie = s.ie := rfl
@[simp] theorem State.tick_iF (s : State) : (s.tick).iF = s.iF := rfl
@[simp] theorem State.tick_stepCycles (s : State) : (s.tick).stepCycles = s.stepCycles := rfl
@[simp] theorem State.tick_cycleTotal (s : State) : (s.tick).cycleTotal = s.cycleTotal := rfl
@[simp] theorem State.tick_bootMapped (s : State) : (s.tick).bootMapped = s.bootMapped := rfl
@[simp] theorem State.tick_mem (s : State) : (s.tick).mem = s.mem := rfl
@[simp] theorem State.tick_rom (s : State) : (s.tick).rom = s.rom := rfl
@[simp] theorem State.tick_xram (s : State) : (s.tick).xram = s.xram := rfl
@[simp] theorem State.tick_cartWrites (s : State) : (s.tick).cartWrites = s.cartWrites := rfl
@[simp] theorem State.tick_params (s : State) : (s.tick).params = s.params := rfl
@[simp] theorem State.tick_env (s : State) : (s.tick).env = s.env := rfl
@[simp] theorem State.tick_ioAnswers (s : State) : (s.tick).ioAnswers = s.ioAnswers := rfl
@[simp] theorem State.tick_ramAnswers (s : State) : (s.tick).ramAnswers = s.ramAnswers := rfl
@[simp] theorem State.tick_start (s : State) : (s.tick).start = s.start := rfl
@[simp] theorem State.tick_reads (s : State) : (s.tick).reads = s.reads + 1 := rfl
@[simp] theorem State.tick_resets (s : State) : (s.tick).resets = s.resets := rfl

/-! ### `fetched`: `fetch8()` (R14) -/

@[simp] theorem State.fetched_a (s : State) : (s.fetched).a = s.a := rfl
@[simp] theorem State.fetched_f (s : State) : (s.fetched).f = s.f := rfl
@[simp] theorem State.fetched_b (s : State) : (s.fetched).b = s.b := rfl
@[simp] theorem State.fetched_c (s : State) : (s.fetched).c = s.c := rfl
@[simp] theorem State.fetched_d (s : State) : (s.fetched).d = s.d := rfl
@[simp] theorem State.fetched_e (s : State) : (s.fetched).e = s.e := rfl
@[simp] theorem State.fetched_h (s : State) : (s.fetched).h = s.h := rfl
@[simp] theorem State.fetched_l (s : State) : (s.fetched).l = s.l := rfl
@[simp] theorem State.fetched_sp (s : State) : (s.fetched).sp = s.sp := rfl
@[simp] theorem State.fetched_pc (s : State) : (s.fetched).pc = s.pc + 1#16 := rfl
@[simp] theorem State.fetched_ime (s : State) : (s.fetched).ime = s.ime := rfl
@[simp] theorem State.fetched_imeDelay (s : State) : (s.fetched).imeDelay = s.imeDelay := rfl
@[simp] theorem State.fetched_haltState (s : State) : (s.fetched).haltState = s.haltState := rfl
@[simp] theorem State.fetched_haltBugPending (s : State) : (s.fetched).haltBugPending = s.haltBugPending := rfl
@[simp] theorem State.fetched_ie (s : State) : (s.fetched).ie = s.ie := rfl
@[simp] theorem State.fetched_iF (s : State) : (s.fetched).iF = s.iF := rfl
@[simp] theorem State.fetched_stepCycles (s : State) : (s.fetched).stepCycles = s.stepCycles := rfl
@[simp] theorem State.fetched_cycleTotal (s : State) : (s.fetched).cycleTotal = s.cycleTotal := rfl
@[simp] theorem State.fetched_bootMapped (s : State) : (s.fetched).bootMapped = s.bootMapped := rfl
@[simp] theorem State.fetched_mem (s : State) : (s.fetched).mem = s.mem := rfl
@[simp] theorem State.fetched_rom (s : State) : (s.fetched).rom = s.rom := rfl
@[simp] theorem State.fetched_xram (s : State) : (s.fetched).xram = s.xram := rfl
@[simp] theorem State.fetched_cartWrites (s : State) : (s.fetched).cartWrites = s.cartWrites := rfl
@[simp] theorem State.fetched_params (s : State) : (s.fetched).params = s.params := rfl
@[simp] theorem State.fetched_env (s : State) : (s.fetched).env = s.env := rfl
@[simp] theorem State.fetched_ioAnswers (s : State) : (s.fetched).ioAnswers = s.ioAnswers := rfl
@[simp] theorem State.fetched_ramAnswers (s : State) : (s.fetched).ramAnswers = s.ramAnswers := rfl
@[simp] theorem State.fetched_start (s : State) : (s.fetched).start = s.start := rfl
@[simp] theorem State.fetched_reads (s : State) : (s.fetched).reads = s.reads + 1 := rfl
@[simp] theorem State.fetched_resets (s : State) : (s.fetched).resets = s.resets := rfl

/-! ### `charge`: cycle accounting (R409) -/

@[simp] theorem State.charge_a (s : State) (n : Nat) : (s.charge n).a = s.a := rfl
@[simp] theorem State.charge_f (s : State) (n : Nat) : (s.charge n).f = s.f := rfl
@[simp] theorem State.charge_b (s : State) (n : Nat) : (s.charge n).b = s.b := rfl
@[simp] theorem State.charge_c (s : State) (n : Nat) : (s.charge n).c = s.c := rfl
@[simp] theorem State.charge_d (s : State) (n : Nat) : (s.charge n).d = s.d := rfl
@[simp] theorem State.charge_e (s : State) (n : Nat) : (s.charge n).e = s.e := rfl
@[simp] theorem State.charge_h (s : State) (n : Nat) : (s.charge n).h = s.h := rfl
@[simp] theorem State.charge_l (s : State) (n : Nat) : (s.charge n).l = s.l := rfl
@[simp] theorem State.charge_sp (s : State) (n : Nat) : (s.charge n).sp = s.sp := rfl
@[simp] theorem State.charge_pc (s : State) (n : Nat) : (s.charge n).pc = s.pc := rfl
@[simp] theorem State.charge_ime (s : State) (n : Nat) : (s.charge n).ime = s.ime := rfl
@[simp] theorem State.charge_imeDelay (s : State) (n : Nat) : (s.charge n).imeDelay = s.imeDelay := rfl
@[simp] theorem State.charge_haltState (s : State) (n : Nat) : (s.charge n).haltState = s.haltState := rfl
@[simp] theorem State.charge_haltBugPending (s : State) (n : Nat) : (s.charge n).haltBugPending = s.haltBugPending := rfl
@[simp] theorem State.charge_ie (s : State) (n : Nat) : (s.charge n).ie = s.ie := rfl
@[simp] theorem State.charge_iF (s : State) (n : Nat) : (s.charge n).iF = s.iF := rfl
@[simp] theorem State.charge_stepCycles (s : State) (n : Nat) : (s.charge n).stepCycles = n := rfl
@[simp] theorem State.charge_cycleTotal (s : State) (n : Nat) : (s.charge n).cycleTotal = s.cycleTotal + n := rfl
@[simp] theorem State.charge_bootMapped (s : State) (n : Nat) : (s.charge n).bootMapped = s.bootMapped := rfl
@[simp] theorem State.charge_mem (s : State) (n : Nat) : (s.charge n).mem = s.mem := rfl
@[simp] theorem State.charge_rom (s : State) (n : Nat) : (s.charge n).rom = s.rom := rfl
@[simp] theorem State.charge_xram (s : State) (n : Nat) : (s.charge n).xram = s.xram := rfl
@[simp] theorem State.charge_cartWrites (s : State) (n : Nat) : (s.charge n).cartWrites = s.cartWrites := rfl
@[simp] theorem State.charge_params (s : State) (n : Nat) : (s.charge n).params = s.params := rfl
@[simp] theorem State.charge_env (s : State) (n : Nat) : (s.charge n).env = s.env := rfl
@[simp] theorem State.charge_ioAnswers (s : State) (n : Nat) : (s.charge n).ioAnswers = s.ioAnswers := rfl
@[simp] theorem State.charge_ramAnswers (s : State) (n : Nat) : (s.charge n).ramAnswers = s.ramAnswers := rfl
@[simp] theorem State.charge_start (s : State) (n : Nat) : (s.charge n).start = s.start := rfl
@[simp] theorem State.charge_reads (s : State) (n : Nat) : (s.charge n).reads = s.reads := rfl
@[simp] theorem State.charge_resets (s : State) (n : Nat) : (s.charge n).resets = s.resets := rfl

/-! ### `setF`: a write of F (R104) -/

@[simp] theorem State.setF_a (s : State) (v : Byte) : (s.setF v).a = s.a := rfl
@[simp] theorem State.setF_f (s : State) (v : Byte) : (s.setF v).f = maskF v := rfl
@[simp] theorem State.setF_b (s : State) (v : Byte) : (s.setF v).b = s.b := rfl
@[simp] theorem State.setF_c (s : State) (v : Byte) : (s.setF v).c = s.c := rfl
@[simp] theorem State.setF_d (s : State) (v : Byte) : (s.setF v).d = s.d := rfl
@[simp] theorem State.setF_e (s : State) (v : Byte) : (s.setF v).e = s.e := rfl
@[simp] theorem State.setF_h (s : State) (v : Byte) : (s.setF v).h = s.h := rfl
@[simp] theorem State.setF_l (s : State) (v : Byte) : (s.setF v).l = s.l := rfl
@[simp] theorem State.setF_sp (s : State) (v : Byte) : (s.setF v).sp = s.sp := rfl
@[simp] theorem State.setF_pc (s : State) (v : Byte) : (s.setF v).pc = s.pc := rfl
@[simp] theorem State.setF_ime (s : State) (v : Byte) : (s.setF v).ime = s.ime := rfl
@[simp] theorem State.setF_imeDelay (s : State) (v : Byte) : (s.setF v).imeDelay = s.imeDelay := rfl
@[simp] theorem State.setF_haltState (s : State) (v : Byte) : (s.setF v).haltState = s.haltState := rfl
@[simp] theorem State.setF_haltBugPending (s : State) (v : Byte) : (s.setF v).haltBugPending = s.haltBugPending := rfl
@[simp] theorem State.setF_ie (s : State) (v : Byte) : (s.setF v).ie = s.ie := rfl
@[simp] theorem State.setF_iF (s : State) (v : Byte) : (s.setF v).iF = s.iF := rfl
@[simp] theorem State.setF_stepCycles (s : State) (v : Byte) : (s.setF v).stepCycles = s.stepCycles := rfl
@[simp] theorem State.setF_cycleTotal (s : State) (v : Byte) : (s.setF v).cycleTotal = s.cycleTotal := rfl
@[simp] theorem State.setF_bootMapped (s : State) (v : Byte) : (s.setF v).bootMapped = s.bootMapped := rfl
@[simp] theorem State.setF_mem (s : State) (v : Byte) : (s.setF v).mem = s.mem := rfl
@[simp] theorem State.setF_rom (s : State) (v : Byte) : (s.setF v).rom = s.rom := rfl
@[simp] theorem State.setF_xram (s : State) (v : Byte) : (s.setF v).xram = s.xram := rfl
@[simp] theorem State.setF_cartWrites (s : State) (v : Byte) : (s.setF v).cartWrites = s.cartWrites := rfl
@[simp] theorem State.setF_params (s : State) (v : Byte) : (s.setF v).params = s.params := rfl
@[simp] theorem State.setF_env (s : State) (v : Byte) : (s.setF v).env = s.env := rfl
@[simp] theorem State.setF_ioAnswers (s : State) (v : Byte) : (s.setF v).ioAnswers = s.ioAnswers := rfl
@[simp] theorem State.setF_ramAnswers (s : State) (v : Byte) : (s.setF v).ramAnswers = s.ramAnswers := rfl
@[simp] theorem State.setF_start (s : State) (v : Byte) : (s.setF v).start = s.start := rfl
@[simp] theorem State.setF_reads (s : State) (v : Byte) : (s.setF v).reads = s.reads := rfl
@[simp] theorem State.setF_resets (s : State) (v : Byte) : (s.setF v).resets = s.resets := rfl

/-! ### `setAF`: A and F -/

@[simp] theorem State.setAF_a (s : State) (r : Byte × Byte) : (s.setAF r).a = r.1 := rfl
@[simp] theorem State.setAF_f (s : State) (r : Byte × Byte) : (s.setAF r).f = maskF r.2 := rfl
@[simp] theorem State.setAF_b (s : State) (r : Byte × Byte) : (s.setAF r).b = s.b := rfl
@[simp] theorem State.setAF_c (s : State) (r : Byte × Byte) : (s.setAF r).c = s.c := rfl
@[simp] theorem State.setAF_d (s : State) (r : Byte × Byte) : (s.setAF r).d = s.d := rfl
@[simp] theorem State.setAF_e (s : State) (r : Byte × Byte) : (s.setAF r).e = s.e := rfl
@[simp] theorem State.setAF_h (s : State) (r : Byte × Byte) : (s.setAF r).h = s.h := rfl
@[simp] theorem State.setAF_l (s : State) (r : Byte × Byte) : (s.setAF r).l = s.l := rfl
@[simp] theorem State.setAF_sp (s : State) (r : Byte × Byte) : (s.setAF r).sp = s.sp := rfl
@[simp] theorem State.setAF_pc (s : State) (r : Byte × Byte) : (s.setAF r).pc = s.pc := rfl
@[simp] theorem State.setAF_ime (s : State) (r : Byte × Byte) : (s.setAF r).ime = s.ime := rfl
@[simp] theorem State.setAF_imeDelay (s : State) (r : Byte × Byte) : (s.setAF r).imeDelay = s.imeDelay := rfl
@[simp] theorem State.setAF_haltState (s : State) (r : Byte × Byte) : (s.setAF r).haltState = s.haltState := rfl
@[simp] theorem State.setAF_haltBugPending (s : State) (r : Byte × Byte) : (s.setAF r).haltBugPending = s.haltBugPending := rfl
@[simp] theorem State.setAF_ie (s : State) (r : Byte × Byte) : (s.setAF r).ie = s.ie := rfl
@[simp] theorem State.setAF_iF (s : State) (r : Byte × Byte) : (s.setAF r).iF = s.iF := rfl
@[simp] theorem State.setAF_stepCycles (s : State) (r : Byte × Byte) : (s.setAF r).stepCycles = s.stepCycles := rfl
@[simp] theorem State.setAF_cycleTotal (s : State) (r : Byte × Byte) : (s.setAF r).cycleTotal = s.cycleTotal := rfl
@[simp] theorem State.setAF_bootMapped (s : State) (r : Byte × Byte) : (s.setAF r).bootMapped = s.bootMapped := rfl
@[simp] theorem State.setAF_mem (s : State) (r : Byte × Byte) : (s.setAF r).mem = s.mem := rfl
@[simp] theorem State.setAF_rom (s : State) (r : Byte × Byte) : (s.setAF r).rom = s.rom := rfl
@[simp] theorem State.setAF_xram (s : State) (r : Byte × Byte) : (s.setAF r).xram = s.xram := rfl
@[simp] theorem State.setAF_cartWrites (s : State) (r : Byte × Byte) : (s.setAF r).cartWrites = s.cartWrites := rfl
@[simp] theorem State.setAF_params (s : State) (r : Byte × Byte) : (s.setAF r).params = s.params := rfl
@[simp] theorem State.setAF_env (s : State) (r : Byte × Byte) : (s.setAF r).env = s.env := rfl
@[simp] theorem State.setAF_ioAnswers (s : State) (r : Byte × Byte) : (s.setAF r).ioAnswers = s.ioAnswers := rfl
@[simp] theorem State.setAF_ramAnswers (s : State) (r : Byte × Byte) : (s.setAF r).ramAnswers = s.ramAnswers := rfl
@[simp] theorem State.setAF_start (s : State) (r : Byte × Byte) : (s.setAF r).start = s.start := rfl
@[simp] theorem State.setAF_reads (s : State) (r : Byte × Byte) : (s.setAF r).reads = s.reads := rfl
@[simp] theorem State.setAF_resets (s : State) (r : Byte × Byte) : (s.setAF r).resets = s.resets := rfl

/-! ### `setBc`: a write of BC (R101) -/

@[simp] theorem State.setBc_a (s : State) (v : Word) : (s.setBc v).a = s.a := rfl
@[simp] theorem State.setBc_f (s : State) (v : Word) : (s.setBc v).f = s.f := rfl
@[simp] theorem State.setBc_b (s : State) (v : Word) : (s.setBc v).b = hiByte v := rfl
@[simp] theorem State.setBc_c (s : State) (v : Word) : (s.setBc v).c = loByte v := rfl
@[simp] theorem State.setBc_d (s : State) (v : Word) : (s.setBc v).d = s.d := rfl
@[simp] theorem State.setBc_e (s : State) (v : Word) : (s.setBc v).e = s.e := rfl
@[simp] theorem State.setBc_h (s : State) (v : Word) : (s.setBc v).h = s.h := rfl
@[simp] theorem State.setBc_l (s : State) (v : Word) : (s.setBc v).l = s.l := rfl
@[simp] theorem State.setBc_sp (s : State) (v : Word) : (s.setBc v).sp = s.sp := rfl
@[simp] theorem State.setBc_pc (s : State) (v : Word) : (s.setBc v).pc = s.pc := rfl
@[simp] theorem State.setBc_ime (s : State) (v : Word) : (s.setBc v).ime = s.ime := rfl
@[simp] theorem State.setBc_imeDelay (s : State) (v : Word) : (s.setBc v).imeDelay = s.imeDelay := rfl
@[simp] theorem State.setBc_haltState (s : State) (v : Word) : (s.setBc v).haltState = s.haltState := rfl
@[simp] theorem State.setBc_haltBugPending (s : State) (v : Word) : (s.setBc v).haltBugPending = s.haltBugPending := rfl
@[simp] theorem State.setBc_ie (s : State) (v : Word) : (s.setBc v).ie = s.ie := rfl
@[simp] theorem State.setBc_iF (s : State) (v : Word) : (s.setBc v).iF = s.iF := rfl
@[simp] theorem State.setBc_stepCycles (s : State) (v : Word) : (s.setBc v).stepCycles = s.stepCycles := rfl
@[simp] theorem State.setBc_cycleTotal (s : State) (v : Word) : (s.setBc v).cycleTotal = s.cycleTotal := rfl
@[simp] theorem State.setBc_bootMapped (s : State) (v : Word) : (s.setBc v).bootMapped = s.bootMapped := rfl
@[simp] theorem State.setBc_mem (s : State) (v : Word) : (s.setBc v).mem = s.mem := rfl
@[simp] theorem State.setBc_rom (s : State) (v : Word) : (s.setBc v).rom = s.rom := rfl
@[simp] theorem State.setBc_xram (s : State) (v : Word) : (s.setBc v).xram = s.xram := rfl
@[simp] theorem State.setBc_cartWrites (s : State) (v : Word) : (s.setBc v).cartWrites = s.cartWrites := rfl
@[simp] theorem State.setBc_params (s : State) (v : Word) : (s.setBc v).params = s.params := rfl
@[simp] theorem State.setBc_env (s : State) (v : Word) : (s.setBc v).env = s.env := rfl
@[simp] theorem State.setBc_ioAnswers (s : State) (v : Word) : (s.setBc v).ioAnswers = s.ioAnswers := rfl
@[simp] theorem State.setBc_ramAnswers (s : State) (v : Word) : (s.setBc v).ramAnswers = s.ramAnswers := rfl
@[simp] theorem State.setBc_start (s : State) (v : Word) : (s.setBc v).start = s.start := rfl
@[simp] theorem State.setBc_reads (s : State) (v : Word) : (s.setBc v).reads = s.reads := rfl
@[simp] theorem State.setBc_resets (s : State) (v : Word) : (s.setBc v).resets = s.resets := rfl

/-! ### `setDe`: a write of DE (R101) -/

@[simp] theorem State.setDe_a (s : State) (v : Word) : (s.setDe v).a = s.a := rfl
@[simp] theorem State.setDe_f (s : State) (v : Word) : (s.setDe v).f = s.f := rfl
@[simp] theorem State.setDe_b (s : State) (v : Word) : (s.setDe v).b = s.b := rfl
@[simp] theorem State.setDe_c (s : State) (v : Word) : (s.setDe v).c = s.c := rfl
@[simp] theorem State.setDe_d (s : State) (v : Word) : (s.setDe v).d = hiByte v := rfl
@[simp] theorem State.setDe_e (s : State) (v : Word) : (s.setDe v).e = loByte v := rfl
@[simp] theorem State.setDe_h (s : State) (v : Word) : (s.setDe v).h = s.h := rfl
@[simp] theorem State.setDe_l (s : State) (v : Word) : (s.setDe v).l = s.l := rfl
@[simp] theorem State.setDe_sp (s : State) (v : Word) : (s.setDe v).sp = s.sp := rfl
@[simp] theorem State.setDe_pc (s : State) (v : Word) : (s.setDe v).pc = s.pc := rfl
@[simp] theorem State.setDe_ime (s : State) (v : Word) : (s.setDe v).ime = s.ime := rfl
@[simp] theorem State.setDe_imeDelay (s : State) (v : Word) : (s.setDe v).imeDelay = s.imeDelay := rfl
@[simp] theorem State.setDe_haltState (s : State) (v : Word) : (s.setDe v).haltState = s.haltState := rfl
@[simp] theorem State.setDe_haltBugPending (s : State) (v : Word) : (s.setDe v).haltBugPending = s.haltBugPending := rfl
@[simp] theorem State.setDe_ie (s : State) (v : Word) : (s.setDe v).ie = s.ie := rfl
@[simp] theorem State.setDe_iF (s : State) (v : Word) : (s.setDe v).iF = s.iF := rfl
@[simp] theorem State.setDe_stepCycles (s : State) (v : Word) : (s.setDe v).stepCycles = s.stepCycles := rfl
@[simp] theorem State.setDe_cycleTotal (s : State) (v : Word) : (s.setDe v).cycleTotal = s.cycleTotal := rfl
@[simp] theorem State.setDe_bootMapped (s : State) (v : Word) : (s.setDe v).bootMapped = s.bootMapped := rfl
@[simp] theorem State.setDe_mem (s : State) (v : Word) : (s.setDe v).mem = s.mem := rfl
@[simp] theorem State.setDe_rom (s : State) (v : Word) : (s.setDe v).rom = s.rom := rfl
@[simp] theorem State.setDe_xram (s : State) (v : Word) : (s.setDe v).xram = s.xram := rfl
@[simp] theorem State.setDe_cartWrites (s : State) (v : Word) : (s.setDe v).cartWrites = s.cartWrites := rfl
@[simp] theorem State.setDe_params (s : State) (v : Word) : (s.setDe v).params = s.params := rfl
@[simp] theorem State.setDe_env (s : State) (v : Word) : (s.setDe v).env = s.env := rfl
@[simp] theorem State.setDe_ioAnswers (s : State) (v : Word) : (s.setDe v).ioAnswers = s.ioAnswers := rfl
@[simp] theorem State.setDe_ramAnswers (s : State) (v : Word) : (s.setDe v).ramAnswers = s.ramAnswers := rfl
@[simp] theorem State.setDe_start (s : State) (v : Word) : (s.setDe v).start = s.start := rfl
@[simp] theorem State.setDe_reads (s : State) (v : Word) : (s.setDe v).reads = s.reads := rfl
@[simp] theorem State.setDe_resets (s : State) (v : Word) : (s.setDe v).resets = s.resets := rfl

/-! ### `setHl`: a write of HL (R101) -/

@[simp] theorem State.setHl_a (s : State) (v : Word) : (s.setHl v).a = s.a := rfl
@[simp] theorem State.setHl_f (s : State) (v : Word) : (s.setHl v).f = s.f := rfl
@[simp] theorem State.setHl_b (s : State) (v : Word) : (s.setHl v).b = s.b := rfl
@[simp] theorem State.setHl_c (s : State) (v : Word) : (s.setHl v).c = s.c := rfl
@[simp] theorem State.setHl_d (s : State) (v : Word) : (s.setHl v).d = s.d := rfl
@[simp] theorem State.setHl_e (s : State) (v : Word) : (s.setHl v).e = s.e := rfl
@[simp] theorem State.setHl_h (s : State) (v : Word) : (s.setHl v).h = hiByte v := rfl
@[simp] theorem State.setHl_l (s : State) (v : Word) : (s.setHl v).l = loByte v := rfl
@[simp] theorem State.setHl_sp (s : State) (v : Word) : (s.setHl v).sp = s.sp := rfl
@[simp] theorem State.setHl_pc (s : State) (v : Word) : (s.setHl v).pc = s.pc := rfl
@[simp] theorem State.setHl_ime (s : State) (v : Word) : (s.setHl v).ime = s.ime := rfl
@[simp] theorem State.setHl_imeDelay (s : State) (v : Word) : (s.setHl v).imeDelay = s.imeDelay := rfl
@[simp] theorem State.setHl_haltState (s : State) (v : Word) : (s.setHl v).haltState = s.haltState := rfl
@[simp] theorem State.setHl_haltBugPending (s : State) (v : Word) : (s.setHl v).haltBugPending = s.haltBugPending := rfl
@[simp] theorem State.setHl_ie (s : State) (v : Word) : (s.setHl v).ie = s.ie := rfl
@[simp] theorem State.setHl_iF (s : State) (v : Word) : (s.setHl v).iF = s.iF := rfl
@[simp] theorem State.setHl_stepCycles (s : State) (v : Word) : (s.setHl v).stepCycles = s.stepCycles := rfl
@[simp] theorem State.setHl_cycleTotal (s : State) (v : Word) : (s.setHl v).cycleTotal = s.cycleTotal := rfl
@[simp] theorem State.setHl_bootMapped (s : State) (v : Word) : (s.setHl v).bootMapped = s.bootMapped := rfl
@[simp] theorem State.setHl_mem (s : State) (v : Word) : (s.setHl v).mem = s.mem := rfl
@[simp] theorem State.setHl_rom (s : State) (v : Word) : (s.setHl v).rom = s.rom := rfl
@[simp] theorem State.setHl_xram (s : State) (v : Word) : (s.setHl v).xram = s.xram := rfl
@[simp] theorem State.setHl_cartWrites (s : State) (v : Word) : (s.setHl v).cartWrites = s.cartWrites := rfl
@[simp] theorem State.setHl_params (s : State) (v : Word) : (s.setHl v).params = s.params := rfl
@[simp] theorem State.setHl_env (s : State) (v : Word) : (s.setHl v).env = s.env := rfl
@[simp] theorem State.setHl_ioAnswers (s : State) (v : Word) : (s.setHl v).ioAnswers = s.ioAnswers := rfl
@[simp] theorem State.setHl_ramAnswers (s : State) (v : Word) : (s.setHl v).ramAnswers = s.ramAnswers := rfl
@[simp] theorem State.setHl_start (s : State) (v : Word) : (s.setHl v).start = s.start := rfl
@[simp] theorem State.setHl_reads (s : State) (v : Word) : (s.setHl v).reads = s.reads := rfl
@[simp] theorem State.setHl_resets (s : State) (v : Word) : (s.setHl v).resets = s.resets := rfl

/-! ### `setAf`: a write of AF (R531) -/

@[simp] theorem State.setAf_a (s : State) (v : Word) : (s.setAf v).a = hiByte v := rfl
@[simp] theorem State.setAf_f (s : State) (v : Word) : (s.setAf v).f = maskF (loByte v) := rfl
@[simp] theorem State.setAf_b (s : State) (v : Word) : (s.setAf v).b = s.b := rfl
@[simp] theorem State.setAf_c (s : State) (v : Word) : (s.setAf v).c = s.c := rfl
@[simp] theorem State.setAf_d (s : State) (v : Word) : (s.setAf v).d = s.d := rfl
@[simp] theorem State.setAf_e (s : State) (v : Word) : (s.setAf v).e = s.e := rfl
@[simp] theorem State.setAf_h (s : State) (v : Word) : (s.setAf v).h = s.h := rfl
@[simp] theorem State.setAf_l (s : State) (v : Word) : (s.setAf v).l = s.l := rfl
@[simp] theorem State.setAf_sp (s : State) (v : Word) : (s.setAf v).sp = s.sp := rfl
@[simp] theorem State.setAf_pc (s : State) (v : Word) : (s.setAf v).pc = s.pc := rfl
@[simp] theorem State.setAf_ime (s : State) (v : Word) : (s.setAf v).ime = s.ime := rfl
@[simp] theorem State.setAf_imeDelay (s : State) (v : Word) : (s.setAf v).imeDelay = s.imeDelay := rfl
@[simp] theorem State.setAf_haltState (s : State) (v : Word) : (s.setAf v).haltState = s.haltState := rfl
@[simp] theorem State.setAf_haltBugPending (s : State) (v : Word) : (s.setAf v).haltBugPending = s.haltBugPending := rfl
@[simp] theorem State.setAf_ie (s : State) (v : Word) : (s.setAf v).ie = s.ie := rfl
@[simp] theorem State.setAf_iF (s : State) (v : Word) : (s.setAf v).iF = s.iF := rfl
@[simp] theorem State.setAf_stepCycles (s : State) (v : Word) : (s.setAf v).stepCycles = s.stepCycles := rfl
@[simp] theorem State.setAf_cycleTotal (s : State) (v : Word) : (s.setAf v).cycleTotal = s.cycleTotal := rfl
@[simp] theorem State.setAf_bootMapped (s : State) (v : Word) : (s.setAf v).bootMapped = s.bootMapped := rfl
@[simp] theorem State.setAf_mem (s : State) (v : Word) : (s.setAf v).mem = s.mem := rfl
@[simp] theorem State.setAf_rom (s : State) (v : Word) : (s.setAf v).rom = s.rom := rfl
@[simp] theorem State.setAf_xram (s : State) (v : Word) : (s.setAf v).xram = s.xram := rfl
@[simp] theorem State.setAf_cartWrites (s : State) (v : Word) : (s.setAf v).cartWrites = s.cartWrites := rfl
@[simp] theorem State.setAf_params (s : State) (v : Word) : (s.setAf v).params = s.params := rfl
@[simp] theorem State.setAf_env (s : State) (v : Word) : (s.setAf v).env = s.env := rfl
@[simp] theorem State.setAf_ioAnswers (s : State) (v : Word) : (s.setAf v).ioAnswers = s.ioAnswers := rfl
@[simp] theorem State.setAf_ramAnswers (s : State) (v : Word) : (s.setAf v).ramAnswers = s.ramAnswers := rfl
@[simp] theorem State.setAf_start (s : State) (v : Word) : (s.setAf v).start = s.start := rfl
@[simp] theorem State.setAf_reads (s : State) (v : Word) : (s.setAf v).reads = s.reads := rfl
@[simp] theorem State.setAf_resets (s : State) (v : Word) : (s.setAf v).resets = s.resets := rfl

/-! ### `popped`: `pop16()` (R529) -/

@[simp] theorem State.popped_a (s : State) : (s.popped).a = s.a := rfl
@[simp] theorem State.popped_f (s : State) : (s.popped).f = s.f := rfl
@[simp] theorem State.popped_b (s : State) : (s.popped).b = s.b := rfl
@[simp] theorem State.popped_c (s : State) : (s.popped).c = s.c := rfl
@[simp] theorem State.popped_d (s : State) : (s.popped).d = s.d := rfl
@[simp] theorem State.popped_e (s : State) : (s.popped).e = s.e := rfl
@[simp] theorem State.popped_h (s : State) : (s.popped).h = s.h := rfl
@[simp] theorem State.popped_l (s : State) : (s.popped).l = s.l := rfl
@[simp] theorem State.popped_sp (s : State) : (s.popped).sp = s.sp + 2#16 := rfl
@[simp] theorem State.popped_pc (s : State) : (s.popped).pc = s.pc := rfl
@[simp] theorem State.popped_ime (s : State) : (s.popped).ime = s.ime := rfl
@[simp] theorem State.popped_imeDelay (s : State) : (s.popped).imeDelay = s.imeDelay := rfl
@[simp] theorem State.popped_haltState (s : State) : (s.popped).haltState = s.haltState := rfl
@[simp] theorem State.popped_haltBugPending (s : State) : (s.popped).haltBugPending = s.haltBugPending := rfl
@[simp] theorem State.popped_ie (s : State) : (s.popped).ie = s.ie := rfl
@[simp] theorem State.popped_iF (s : State) : (s.popped).iF = s.iF := rfl
@[simp] theorem State.popped_stepCycles (s : State) : (s.popped).stepCycles = s.stepCycles := rfl
@[simp] theorem State.popped_cycleTotal (s : State) : (s.popped).cycleTotal = s.cycleTotal := rfl
@[simp] theorem State.popped_bootMapped (s : State) : (s.popped).bootMapped = s.bootMapped := rfl
@[simp] theorem State.popped_mem (s : State) : (s.popped).mem = s.mem := rfl
@[simp] theorem State.popped_rom (s : State) : (s.popped).rom = s.rom := rfl
@[simp] theorem State.popped_xram (s : State) : (s.popped).xram = s.xram := rfl
@[simp] theorem State.popped_cartWrites (s : State) : (s.popped).cartWrites = s.cartWrites := rfl
@[simp] theorem State.popped_params (s : State) : (s.popped).params = s.params := rfl
@[simp] theorem State.popped_env (s : State) : (s.popped).env = s.env := rfl
@[simp] theorem State.popped_ioAnswers (s : State) : (s.popped).ioAnswers = s.ioAnswers := rfl
@[simp] theorem State.popped_ramAnswers (s : State) : (s.popped).ramAnswers = s.ramAnswers := rfl
@[simp] theorem State.popped_start (s : State) : (s.popped).start = s.start := rfl
@[simp] theorem State.popped_reads (s : State) : (s.popped).reads = s.reads + 1 + 1 := rfl
@[simp] theorem State.popped_resets (s : State) : (s.popped).resets = s.resets := rfl

/-! ### `return16`: a return (R908) -/

@[simp] theorem State.return16_a (s : State) : (s.return16).a = s.a := rfl
@[simp] theorem State.return16_f (s : State) : (s.return16).f = s.f := rfl
@[simp] theorem State.return16_b (s : State) : (s.return16).b = s.b := rfl
@[simp] theorem State.return16_c (s : State) : (s.return16).c = s.c := rfl
@[simp] theorem State.return16_d (s : State) : (s.return16).d = s.d := rfl
@[simp] theorem State.return16_e (s : State) : (s.return16).e = s.e := rfl
@[simp] theorem State.return16_h (s : State) : (s.return16).h = s.h := rfl
@[simp] theorem State.return16_l (s : State) : (s.return16).l = s.l := rfl
@[simp] theorem State.return16_sp (s : State) : (s.return16).sp = s.sp + 2#16 := rfl
@[simp] theorem State.return16_pc (s : State) : (s.return16).pc = s.popWord := rfl
@[simp] theorem State.return16_ime (s : State) : (s.return16).ime = s.ime := rfl
@[simp] theorem State.return16_imeDelay (s : State) : (s.return16).imeDelay = s.imeDelay := rfl
@[simp] theorem State.return16_haltState (s : State) : (s.return16).haltState = s.haltState := rfl
@[simp] theorem State.return16_haltBugPending (s : State) : (s.return16).haltBugPending = s.haltBugPending := rfl
@[simp] theorem State.return16_ie (s : State) : (s.return16).ie = s.ie := rfl
@[simp] theorem State.return16_iF (s : State) : (s.return16).iF = s.iF := rfl
@[simp] theorem State.return16_stepCycles (s : State) : (s.return16).stepCycles = s.stepCycles := rfl
@[simp] theorem State.return16_cycleTotal (s : State) : (s.return16).cycleTotal = s.cycleTotal := rfl
@[simp] theorem State.return16_bootMapped (s : State) : (s.return16).bootMapped = s.bootMapped := rfl
@[simp] theorem State.return16_mem (s : State) : (s.return16).mem = s.mem := rfl
@[simp] theorem State.return16_rom (s : State) : (s.return16).rom = s.rom := rfl
@[simp] theorem State.return16_xram (s : State) : (s.return16).xram = s.xram := rfl
@[simp] theorem State.return16_cartWrites (s : State) : (s.return16).cartWrites = s.cartWrites := rfl
@[simp] theorem State.return16_params (s : State) : (s.return16).params = s.params := rfl
@[simp] theorem State.return16_env (s : State) : (s.return16).env = s.env := rfl
@[simp] theorem State.return16_ioAnswers (s : State) : (s.return16).ioAnswers = s.ioAnswers := rfl
@[simp] theorem State.return16_ramAnswers (s : State) : (s.return16).ramAnswers = s.ramAnswers := rfl
@[simp] theorem State.return16_start (s : State) : (s.return16).start = s.start := rfl
@[simp] theorem State.return16_reads (s : State) : (s.return16).reads = s.reads + 1 + 1 := rfl
@[simp] theorem State.return16_resets (s : State) : (s.return16).resets = s.resets := rfl

/-! ### `returnEnable`: a return from an interrupt (R910) -/

@[simp] theorem State.returnEnable_a (s : State) : (s.returnEnable).a = s.a := rfl
@[simp] theorem State.returnEnable_f (s : State) : (s.returnEnable).f = s.f := rfl
@[simp] theorem State.returnEnable_b (s : State) : (s.returnEnable).b = s.b := rfl
@[simp] theorem State.returnEnable_c (s : State) : (s.returnEnable).c = s.c := rfl
@[simp] theorem State.returnEnable_d (s : State) : (s.returnEnable).d = s.d := rfl
@[simp] theorem State.returnEnable_e (s : State) : (s.returnEnable).e = s.e := rfl
@[simp] theorem State.returnEnable_h (s : State) : (s.returnEnable).h = s.h := rfl
@[simp] theorem State.returnEnable_l (s : State) : (s.returnEnable).l = s.l := rfl
@[simp] theorem State.returnEnable_sp (s : State) : (s.returnEnable).sp = s.sp + 2#16 := rfl
@[simp] theorem State.returnEnable_pc (s : State) : (s.returnEnable).pc = s.popWord := rfl
@[simp] theorem State.returnEnable_ime (s : State) : (s.returnEnable).ime = true := rfl
@[simp] theorem State.returnEnable_imeDelay (s : State) : (s.returnEnable).imeDelay = s.imeDelay := rfl
@[simp] theorem State.returnEnable_haltState (s : State) : (s.returnEnable).haltState = s.haltState := rfl
@[simp] theorem State.returnEnable_haltBugPending (s : State) : (s.returnEnable).haltBugPending = s.haltBugPending := rfl
@[simp] theorem State.returnEnable_ie (s : State) : (s.returnEnable).ie = s.ie := rfl
@[simp] theorem State.returnEnable_iF (s : State) : (s.returnEnable).iF = s.iF := rfl
@[simp] theorem State.returnEnable_stepCycles (s : State) : (s.returnEnable).stepCycles = s.stepCycles := rfl
@[simp] theorem State.returnEnable_cycleTotal (s : State) : (s.returnEnable).cycleTotal = s.cycleTotal := rfl
@[simp] theorem State.returnEnable_bootMapped (s : State) : (s.returnEnable).bootMapped = s.bootMapped := rfl
@[simp] theorem State.returnEnable_mem (s : State) : (s.returnEnable).mem = s.mem := rfl
@[simp] theorem State.returnEnable_rom (s : State) : (s.returnEnable).rom = s.rom := rfl
@[simp] theorem State.returnEnable_xram (s : State) : (s.returnEnable).xram = s.xram := rfl
@[simp] theorem State.returnEnable_cartWrites (s : State) : (s.returnEnable).cartWrites = s.cartWrites := rfl
@[simp] theorem State.returnEnable_params (s : State) : (s.returnEnable).params = s.params := rfl
@[simp] theorem State.returnEnable_env (s : State) : (s.returnEnable).env = s.env := rfl
@[simp] theorem State.returnEnable_ioAnswers (s : State) : (s.returnEnable).ioAnswers = s.ioAnswers := rfl
@[simp] theorem State.returnEnable_ramAnswers (s : State) : (s.returnEnable).ramAnswers = s.ramAnswers := rfl
@[simp] theorem State.returnEnable_start (s : State) : (s.returnEnable).start = s.start := rfl
@[simp] theorem State.returnEnable_reads (s : State) : (s.returnEnable).reads = s.reads + 1 + 1 := rfl
@[simp] theorem State.returnEnable_resets (s : State) : (s.returnEnable).resets = s.resets := rfl

/-! ### `jumpBy`: a relative jump (R904) -/

@[simp] theorem State.jumpBy_a (s : State) (e : Byte) : (s.jumpBy e).a = s.a := rfl
@[simp] theorem State.jumpBy_f (s : State) (e : Byte) : (s.jumpBy e).f = s.f := rfl
@[simp] theorem State.jumpBy_b (s : State) (e : Byte) : (s.jumpBy e).b = s.b := rfl
@[simp] theorem State.jumpBy_c (s : State) (e : Byte) : (s.jumpBy e).c = s.c := rfl
@[simp] theorem State.jumpBy_d (s : State) (e : Byte) : (s.jumpBy e).d = s.d := rfl
@[simp] theorem State.jumpBy_e (s : State) (e : Byte) : (s.jumpBy e).e = s.e := rfl
@[simp] theorem State.jumpBy_h (s : State) (e : Byte) : (s.jumpBy e).h = s.h := rfl
@[simp] theorem State.jumpBy_l (s : State) (e : Byte) : (s.jumpBy e).l = s.l := rfl
@[simp] theorem State.jumpBy_sp (s : State) (e : Byte) : (s.jumpBy e).sp = s.sp := rfl
@[simp] theorem State.jumpBy_pc (s : State) (e : Byte) : (s.jumpBy e).pc = s.pc + sext16 e := rfl
@[simp] theorem State.jumpBy_ime (s : State) (e : Byte) : (s.jumpBy e).ime = s.ime := rfl
@[simp] theorem State.jumpBy_imeDelay (s : State) (e : Byte) : (s.jumpBy e).imeDelay = s.imeDelay := rfl
@[simp] theorem State.jumpBy_haltState (s : State) (e : Byte) : (s.jumpBy e).haltState = s.haltState := rfl
@[simp] theorem State.jumpBy_haltBugPending (s : State) (e : Byte) : (s.jumpBy e).haltBugPending = s.haltBugPending := rfl
@[simp] theorem State.jumpBy_ie (s : State) (e : Byte) : (s.jumpBy e).ie = s.ie := rfl
@[simp] theorem State.jumpBy_iF (s : State) (e : Byte) : (s.jumpBy e).iF = s.iF := rfl
@[simp] theorem State.jumpBy_stepCycles (s : State) (e : Byte) : (s.jumpBy e).stepCycles = s.stepCycles := rfl
@[simp] theorem State.jumpBy_cycleTotal (s : State) (e : Byte) : (s.jumpBy e).cycleTotal = s.cycleTotal := rfl
@[simp] theorem State.jumpBy_bootMapped (s : State) (e : Byte) : (s.jumpBy e).bootMapped = s.bootMapped := rfl
@[simp] theorem State.jumpBy_mem (s : State) (e : Byte) : (s.jumpBy e).mem = s.mem := rfl
@[simp] theorem State.jumpBy_rom (s : State) (e : Byte) : (s.jumpBy e).rom = s.rom := rfl
@[simp] theorem State.jumpBy_xram (s : State) (e : Byte) : (s.jumpBy e).xram = s.xram := rfl
@[simp] theorem State.jumpBy_cartWrites (s : State) (e : Byte) : (s.jumpBy e).cartWrites = s.cartWrites := rfl
@[simp] theorem State.jumpBy_params (s : State) (e : Byte) : (s.jumpBy e).params = s.params := rfl
@[simp] theorem State.jumpBy_env (s : State) (e : Byte) : (s.jumpBy e).env = s.env := rfl
@[simp] theorem State.jumpBy_ioAnswers (s : State) (e : Byte) : (s.jumpBy e).ioAnswers = s.ioAnswers := rfl
@[simp] theorem State.jumpBy_ramAnswers (s : State) (e : Byte) : (s.jumpBy e).ramAnswers = s.ramAnswers := rfl
@[simp] theorem State.jumpBy_start (s : State) (e : Byte) : (s.jumpBy e).start = s.start := rfl
@[simp] theorem State.jumpBy_reads (s : State) (e : Byte) : (s.jumpBy e).reads = s.reads := rfl
@[simp] theorem State.jumpBy_resets (s : State) (e : Byte) : (s.jumpBy e).resets = s.resets := rfl

/-! ### `raiseIllegal`: the illegal-opcode fault (R1104) -/

@[simp] theorem State.raiseIllegal_a (s : State) (op : Byte) (addr : Word) : (s.raiseIllegal op addr).a = s.a := rfl
@[simp] theorem State.raiseIllegal_f (s : State) (op : Byte) (addr : Word) : (s.raiseIllegal op addr).f = s.f := rfl
@[simp] theorem State.raiseIllegal_b (s : State) (op : Byte) (addr : Word) : (s.raiseIllegal op addr).b = s.b := rfl
@[simp] theorem State.raiseIllegal_c (s : State) (op : Byte) (addr : Word) : (s.raiseIllegal op addr).c = s.c := rfl
@[simp] theorem State.raiseIllegal_d (s : State) (op : Byte) (addr : Word) : (s.raiseIllegal op addr).d = s.d := rfl
@[simp] theorem State.raiseIllegal_e (s : State) (op : Byte) (addr : Word) : (s.raiseIllegal op addr).e = s.e := rfl
@[simp] theorem State.raiseIllegal_h (s : State) (op : Byte) (addr : Word) : (s.raiseIllegal op addr).h = s.h := rfl
@[simp] theorem State.raiseIllegal_l (s : State) (op : Byte) (addr : Word) : (s.raiseIllegal op addr).l = s.l := rfl
@[simp] theorem State.raiseIllegal_sp (s : State) (op : Byte) (addr : Word) : (s.raiseIllegal op addr).sp = s.sp := rfl
@[simp] theorem State.raiseIllegal_pc (s : State) (op : Byte) (addr : Word) : (s.raiseIllegal op addr).pc = s.pc := rfl
@[simp] theorem State.raiseIllegal_ime (s : State) (op : Byte) (addr : Word) : (s.raiseIllegal op addr).ime = s.ime := rfl
@[simp] theorem State.raiseIllegal_imeDelay (s : State) (op : Byte) (addr : Word) : (s.raiseIllegal op addr).imeDelay = s.imeDelay := rfl
@[simp] theorem State.raiseIllegal_haltState (s : State) (op : Byte) (addr : Word) : (s.raiseIllegal op addr).haltState = .faulted op addr := rfl
@[simp] theorem State.raiseIllegal_haltBugPending (s : State) (op : Byte) (addr : Word) : (s.raiseIllegal op addr).haltBugPending = s.haltBugPending := rfl
@[simp] theorem State.raiseIllegal_ie (s : State) (op : Byte) (addr : Word) : (s.raiseIllegal op addr).ie = s.ie := rfl
@[simp] theorem State.raiseIllegal_iF (s : State) (op : Byte) (addr : Word) : (s.raiseIllegal op addr).iF = s.iF := rfl
@[simp] theorem State.raiseIllegal_stepCycles (s : State) (op : Byte) (addr : Word) : (s.raiseIllegal op addr).stepCycles = s.stepCycles := rfl
@[simp] theorem State.raiseIllegal_cycleTotal (s : State) (op : Byte) (addr : Word) : (s.raiseIllegal op addr).cycleTotal = s.cycleTotal := rfl
@[simp] theorem State.raiseIllegal_bootMapped (s : State) (op : Byte) (addr : Word) : (s.raiseIllegal op addr).bootMapped = s.bootMapped := rfl
@[simp] theorem State.raiseIllegal_mem (s : State) (op : Byte) (addr : Word) : (s.raiseIllegal op addr).mem = s.mem := rfl
@[simp] theorem State.raiseIllegal_rom (s : State) (op : Byte) (addr : Word) : (s.raiseIllegal op addr).rom = s.rom := rfl
@[simp] theorem State.raiseIllegal_xram (s : State) (op : Byte) (addr : Word) : (s.raiseIllegal op addr).xram = s.xram := rfl
@[simp] theorem State.raiseIllegal_cartWrites (s : State) (op : Byte) (addr : Word) : (s.raiseIllegal op addr).cartWrites = s.cartWrites := rfl
@[simp] theorem State.raiseIllegal_params (s : State) (op : Byte) (addr : Word) : (s.raiseIllegal op addr).params = s.params := rfl
@[simp] theorem State.raiseIllegal_env (s : State) (op : Byte) (addr : Word) : (s.raiseIllegal op addr).env = s.env := rfl
@[simp] theorem State.raiseIllegal_ioAnswers (s : State) (op : Byte) (addr : Word) : (s.raiseIllegal op addr).ioAnswers = s.ioAnswers := rfl
@[simp] theorem State.raiseIllegal_ramAnswers (s : State) (op : Byte) (addr : Word) : (s.raiseIllegal op addr).ramAnswers = s.ramAnswers := rfl
@[simp] theorem State.raiseIllegal_start (s : State) (op : Byte) (addr : Word) : (s.raiseIllegal op addr).start = s.start := rfl
@[simp] theorem State.raiseIllegal_reads (s : State) (op : Byte) (addr : Word) : (s.raiseIllegal op addr).reads = s.reads := rfl
@[simp] theorem State.raiseIllegal_resets (s : State) (op : Byte) (addr : Word) : (s.raiseIllegal op addr).resets = s.resets := rfl

/-! ### `request`: a request of a kind (R1107) -/

@[simp] theorem State.request_a (s : State) (k : Interrupt) : (s.request k).a = s.a := rfl
@[simp] theorem State.request_f (s : State) (k : Interrupt) : (s.request k).f = s.f := rfl
@[simp] theorem State.request_b (s : State) (k : Interrupt) : (s.request k).b = s.b := rfl
@[simp] theorem State.request_c (s : State) (k : Interrupt) : (s.request k).c = s.c := rfl
@[simp] theorem State.request_d (s : State) (k : Interrupt) : (s.request k).d = s.d := rfl
@[simp] theorem State.request_e (s : State) (k : Interrupt) : (s.request k).e = s.e := rfl
@[simp] theorem State.request_h (s : State) (k : Interrupt) : (s.request k).h = s.h := rfl
@[simp] theorem State.request_l (s : State) (k : Interrupt) : (s.request k).l = s.l := rfl
@[simp] theorem State.request_sp (s : State) (k : Interrupt) : (s.request k).sp = s.sp := rfl
@[simp] theorem State.request_pc (s : State) (k : Interrupt) : (s.request k).pc = s.pc := rfl
@[simp] theorem State.request_ime (s : State) (k : Interrupt) : (s.request k).ime = s.ime := rfl
@[simp] theorem State.request_imeDelay (s : State) (k : Interrupt) : (s.request k).imeDelay = s.imeDelay := rfl
@[simp] theorem State.request_haltState (s : State) (k : Interrupt) : (s.request k).haltState = s.haltState := rfl
@[simp] theorem State.request_haltBugPending (s : State) (k : Interrupt) : (s.request k).haltBugPending = s.haltBugPending := rfl
@[simp] theorem State.request_ie (s : State) (k : Interrupt) : (s.request k).ie = s.ie := rfl
@[simp] theorem State.request_iF (s : State) (k : Interrupt) : (s.request k).iF = s.iF ||| (1#5 <<< k.bit) := rfl
@[simp] theorem State.request_stepCycles (s : State) (k : Interrupt) : (s.request k).stepCycles = s.stepCycles := rfl
@[simp] theorem State.request_cycleTotal (s : State) (k : Interrupt) : (s.request k).cycleTotal = s.cycleTotal := rfl
@[simp] theorem State.request_bootMapped (s : State) (k : Interrupt) : (s.request k).bootMapped = s.bootMapped := rfl
@[simp] theorem State.request_mem (s : State) (k : Interrupt) : (s.request k).mem = s.mem := rfl
@[simp] theorem State.request_rom (s : State) (k : Interrupt) : (s.request k).rom = s.rom := rfl
@[simp] theorem State.request_xram (s : State) (k : Interrupt) : (s.request k).xram = s.xram := rfl
@[simp] theorem State.request_cartWrites (s : State) (k : Interrupt) : (s.request k).cartWrites = s.cartWrites := rfl
@[simp] theorem State.request_params (s : State) (k : Interrupt) : (s.request k).params = s.params := rfl
@[simp] theorem State.request_env (s : State) (k : Interrupt) : (s.request k).env = s.env := rfl
@[simp] theorem State.request_ioAnswers (s : State) (k : Interrupt) : (s.request k).ioAnswers = s.ioAnswers := rfl
@[simp] theorem State.request_ramAnswers (s : State) (k : Interrupt) : (s.request k).ramAnswers = s.ramAnswers := rfl
@[simp] theorem State.request_start (s : State) (k : Interrupt) : (s.request k).start = s.start := rfl
@[simp] theorem State.request_reads (s : State) (k : Interrupt) : (s.request k).reads = s.reads := rfl
@[simp] theorem State.request_resets (s : State) (k : Interrupt) : (s.request k).resets = s.resets := rfl

/-! ### `clearRequest`: the clearing of a kind (R1107) -/

@[simp] theorem State.clearRequest_a (s : State) (k : Interrupt) : (s.clearRequest k).a = s.a := rfl
@[simp] theorem State.clearRequest_f (s : State) (k : Interrupt) : (s.clearRequest k).f = s.f := rfl
@[simp] theorem State.clearRequest_b (s : State) (k : Interrupt) : (s.clearRequest k).b = s.b := rfl
@[simp] theorem State.clearRequest_c (s : State) (k : Interrupt) : (s.clearRequest k).c = s.c := rfl
@[simp] theorem State.clearRequest_d (s : State) (k : Interrupt) : (s.clearRequest k).d = s.d := rfl
@[simp] theorem State.clearRequest_e (s : State) (k : Interrupt) : (s.clearRequest k).e = s.e := rfl
@[simp] theorem State.clearRequest_h (s : State) (k : Interrupt) : (s.clearRequest k).h = s.h := rfl
@[simp] theorem State.clearRequest_l (s : State) (k : Interrupt) : (s.clearRequest k).l = s.l := rfl
@[simp] theorem State.clearRequest_sp (s : State) (k : Interrupt) : (s.clearRequest k).sp = s.sp := rfl
@[simp] theorem State.clearRequest_pc (s : State) (k : Interrupt) : (s.clearRequest k).pc = s.pc := rfl
@[simp] theorem State.clearRequest_ime (s : State) (k : Interrupt) : (s.clearRequest k).ime = s.ime := rfl
@[simp] theorem State.clearRequest_imeDelay (s : State) (k : Interrupt) : (s.clearRequest k).imeDelay = s.imeDelay := rfl
@[simp] theorem State.clearRequest_haltState (s : State) (k : Interrupt) : (s.clearRequest k).haltState = s.haltState := rfl
@[simp] theorem State.clearRequest_haltBugPending (s : State) (k : Interrupt) : (s.clearRequest k).haltBugPending = s.haltBugPending := rfl
@[simp] theorem State.clearRequest_ie (s : State) (k : Interrupt) : (s.clearRequest k).ie = s.ie := rfl
@[simp] theorem State.clearRequest_iF (s : State) (k : Interrupt) : (s.clearRequest k).iF = s.iF &&& ~~~(1#5 <<< k.bit) := rfl
@[simp] theorem State.clearRequest_stepCycles (s : State) (k : Interrupt) : (s.clearRequest k).stepCycles = s.stepCycles := rfl
@[simp] theorem State.clearRequest_cycleTotal (s : State) (k : Interrupt) : (s.clearRequest k).cycleTotal = s.cycleTotal := rfl
@[simp] theorem State.clearRequest_bootMapped (s : State) (k : Interrupt) : (s.clearRequest k).bootMapped = s.bootMapped := rfl
@[simp] theorem State.clearRequest_mem (s : State) (k : Interrupt) : (s.clearRequest k).mem = s.mem := rfl
@[simp] theorem State.clearRequest_rom (s : State) (k : Interrupt) : (s.clearRequest k).rom = s.rom := rfl
@[simp] theorem State.clearRequest_xram (s : State) (k : Interrupt) : (s.clearRequest k).xram = s.xram := rfl
@[simp] theorem State.clearRequest_cartWrites (s : State) (k : Interrupt) : (s.clearRequest k).cartWrites = s.cartWrites := rfl
@[simp] theorem State.clearRequest_params (s : State) (k : Interrupt) : (s.clearRequest k).params = s.params := rfl
@[simp] theorem State.clearRequest_env (s : State) (k : Interrupt) : (s.clearRequest k).env = s.env := rfl
@[simp] theorem State.clearRequest_ioAnswers (s : State) (k : Interrupt) : (s.clearRequest k).ioAnswers = s.ioAnswers := rfl
@[simp] theorem State.clearRequest_ramAnswers (s : State) (k : Interrupt) : (s.clearRequest k).ramAnswers = s.ramAnswers := rfl
@[simp] theorem State.clearRequest_start (s : State) (k : Interrupt) : (s.clearRequest k).start = s.start := rfl
@[simp] theorem State.clearRequest_reads (s : State) (k : Interrupt) : (s.clearRequest k).reads = s.reads := rfl
@[simp] theorem State.clearRequest_resets (s : State) (k : Interrupt) : (s.clearRequest k).resets = s.resets := rfl

/-! ### `sentCart`: a write the controller is sent (R212, R213) -/

@[simp] theorem State.sentCart_a (s : State) (addr : Word) (v : Byte) : (s.sentCart addr v).a = s.a := rfl
@[simp] theorem State.sentCart_f (s : State) (addr : Word) (v : Byte) : (s.sentCart addr v).f = s.f := rfl
@[simp] theorem State.sentCart_b (s : State) (addr : Word) (v : Byte) : (s.sentCart addr v).b = s.b := rfl
@[simp] theorem State.sentCart_c (s : State) (addr : Word) (v : Byte) : (s.sentCart addr v).c = s.c := rfl
@[simp] theorem State.sentCart_d (s : State) (addr : Word) (v : Byte) : (s.sentCart addr v).d = s.d := rfl
@[simp] theorem State.sentCart_e (s : State) (addr : Word) (v : Byte) : (s.sentCart addr v).e = s.e := rfl
@[simp] theorem State.sentCart_h (s : State) (addr : Word) (v : Byte) : (s.sentCart addr v).h = s.h := rfl
@[simp] theorem State.sentCart_l (s : State) (addr : Word) (v : Byte) : (s.sentCart addr v).l = s.l := rfl
@[simp] theorem State.sentCart_sp (s : State) (addr : Word) (v : Byte) : (s.sentCart addr v).sp = s.sp := rfl
@[simp] theorem State.sentCart_pc (s : State) (addr : Word) (v : Byte) : (s.sentCart addr v).pc = s.pc := rfl
@[simp] theorem State.sentCart_ime (s : State) (addr : Word) (v : Byte) : (s.sentCart addr v).ime = s.ime := rfl
@[simp] theorem State.sentCart_imeDelay (s : State) (addr : Word) (v : Byte) : (s.sentCart addr v).imeDelay = s.imeDelay := rfl
@[simp] theorem State.sentCart_haltState (s : State) (addr : Word) (v : Byte) : (s.sentCart addr v).haltState = s.haltState := rfl
@[simp] theorem State.sentCart_haltBugPending (s : State) (addr : Word) (v : Byte) : (s.sentCart addr v).haltBugPending = s.haltBugPending := rfl
@[simp] theorem State.sentCart_ie (s : State) (addr : Word) (v : Byte) : (s.sentCart addr v).ie = s.ie := rfl
@[simp] theorem State.sentCart_iF (s : State) (addr : Word) (v : Byte) : (s.sentCart addr v).iF = s.iF := rfl
@[simp] theorem State.sentCart_stepCycles (s : State) (addr : Word) (v : Byte) : (s.sentCart addr v).stepCycles = s.stepCycles := rfl
@[simp] theorem State.sentCart_cycleTotal (s : State) (addr : Word) (v : Byte) : (s.sentCart addr v).cycleTotal = s.cycleTotal := rfl
@[simp] theorem State.sentCart_bootMapped (s : State) (addr : Word) (v : Byte) : (s.sentCart addr v).bootMapped = s.bootMapped := rfl
@[simp] theorem State.sentCart_mem (s : State) (addr : Word) (v : Byte) : (s.sentCart addr v).mem = s.mem := rfl
@[simp] theorem State.sentCart_rom (s : State) (addr : Word) (v : Byte) : (s.sentCart addr v).rom = s.rom := rfl
@[simp] theorem State.sentCart_xram (s : State) (addr : Word) (v : Byte) : (s.sentCart addr v).xram = s.xram := rfl
@[simp] theorem State.sentCart_cartWrites (s : State) (addr : Word) (v : Byte) : (s.sentCart addr v).cartWrites = (addr.toNat, v) :: s.cartWrites := rfl
@[simp] theorem State.sentCart_params (s : State) (addr : Word) (v : Byte) : (s.sentCart addr v).params = s.params := rfl
@[simp] theorem State.sentCart_env (s : State) (addr : Word) (v : Byte) : (s.sentCart addr v).env = s.env := rfl
@[simp] theorem State.sentCart_ioAnswers (s : State) (addr : Word) (v : Byte) : (s.sentCart addr v).ioAnswers = s.ioAnswers := rfl
@[simp] theorem State.sentCart_ramAnswers (s : State) (addr : Word) (v : Byte) : (s.sentCart addr v).ramAnswers = s.ramAnswers := rfl
@[simp] theorem State.sentCart_start (s : State) (addr : Word) (v : Byte) : (s.sentCart addr v).start = s.start := rfl
@[simp] theorem State.sentCart_reads (s : State) (addr : Word) (v : Byte) : (s.sentCart addr v).reads = s.reads := rfl
@[simp] theorem State.sentCart_resets (s : State) (addr : Word) (v : Byte) : (s.sentCart addr v).resets = s.resets := rfl

/-! ### `setR8`: a write of a general register (R100, R102) -/

@[simp] theorem State.setR8_f (s : State) (r : Reg8) (v : Byte) : (s.setR8 r v).f = s.f := by cases r <;> rfl
@[simp] theorem State.setR8_sp (s : State) (r : Reg8) (v : Byte) : (s.setR8 r v).sp = s.sp := by cases r <;> rfl
@[simp] theorem State.setR8_pc (s : State) (r : Reg8) (v : Byte) : (s.setR8 r v).pc = s.pc := by cases r <;> rfl
@[simp] theorem State.setR8_ime (s : State) (r : Reg8) (v : Byte) : (s.setR8 r v).ime = s.ime := by cases r <;> rfl
@[simp] theorem State.setR8_imeDelay (s : State) (r : Reg8) (v : Byte) : (s.setR8 r v).imeDelay = s.imeDelay := by cases r <;> rfl
@[simp] theorem State.setR8_haltState (s : State) (r : Reg8) (v : Byte) : (s.setR8 r v).haltState = s.haltState := by cases r <;> rfl
@[simp] theorem State.setR8_haltBugPending (s : State) (r : Reg8) (v : Byte) : (s.setR8 r v).haltBugPending = s.haltBugPending := by cases r <;> rfl
@[simp] theorem State.setR8_ie (s : State) (r : Reg8) (v : Byte) : (s.setR8 r v).ie = s.ie := by cases r <;> rfl
@[simp] theorem State.setR8_iF (s : State) (r : Reg8) (v : Byte) : (s.setR8 r v).iF = s.iF := by cases r <;> rfl
@[simp] theorem State.setR8_stepCycles (s : State) (r : Reg8) (v : Byte) : (s.setR8 r v).stepCycles = s.stepCycles := by cases r <;> rfl
@[simp] theorem State.setR8_cycleTotal (s : State) (r : Reg8) (v : Byte) : (s.setR8 r v).cycleTotal = s.cycleTotal := by cases r <;> rfl
@[simp] theorem State.setR8_bootMapped (s : State) (r : Reg8) (v : Byte) : (s.setR8 r v).bootMapped = s.bootMapped := by cases r <;> rfl
@[simp] theorem State.setR8_mem (s : State) (r : Reg8) (v : Byte) : (s.setR8 r v).mem = s.mem := by cases r <;> rfl
@[simp] theorem State.setR8_rom (s : State) (r : Reg8) (v : Byte) : (s.setR8 r v).rom = s.rom := by cases r <;> rfl
@[simp] theorem State.setR8_xram (s : State) (r : Reg8) (v : Byte) : (s.setR8 r v).xram = s.xram := by cases r <;> rfl
@[simp] theorem State.setR8_cartWrites (s : State) (r : Reg8) (v : Byte) : (s.setR8 r v).cartWrites = s.cartWrites := by cases r <;> rfl
@[simp] theorem State.setR8_params (s : State) (r : Reg8) (v : Byte) : (s.setR8 r v).params = s.params := by cases r <;> rfl
@[simp] theorem State.setR8_env (s : State) (r : Reg8) (v : Byte) : (s.setR8 r v).env = s.env := by cases r <;> rfl
@[simp] theorem State.setR8_ioAnswers (s : State) (r : Reg8) (v : Byte) : (s.setR8 r v).ioAnswers = s.ioAnswers := by cases r <;> rfl
@[simp] theorem State.setR8_ramAnswers (s : State) (r : Reg8) (v : Byte) : (s.setR8 r v).ramAnswers = s.ramAnswers := by cases r <;> rfl
@[simp] theorem State.setR8_start (s : State) (r : Reg8) (v : Byte) : (s.setR8 r v).start = s.start := by cases r <;> rfl
@[simp] theorem State.setR8_reads (s : State) (r : Reg8) (v : Byte) : (s.setR8 r v).reads = s.reads := by cases r <;> rfl
@[simp] theorem State.setR8_resets (s : State) (r : Reg8) (v : Byte) : (s.setR8 r v).resets = s.resets := by cases r <;> rfl

/-- A register reads back what was written to it. -/
@[simp] theorem State.getR8_setR8_self (s : State) (r : Reg8) (v : Byte) : (s.setR8 r v).getR8 r = v := by
  cases r <;> rfl

/-- A write of one register leaves every other register alone. -/
theorem State.getR8_setR8_of_ne (s : State) {r r' : Reg8} (v : Byte) (h : r' ≠ r) :
    (s.setR8 r v).getR8 r' = s.getR8 r' := by
  cases r <;> cases r' <;> first | rfl | exact absurd rfl h

/-! ### `setRp` and `setPair`: a write of a 16-bit operand (R305) -/

@[simp] theorem State.setRp_a (s : State) (rr : Rp) (v : Word) : (s.setRp rr v).a = s.a := by cases rr <;> rfl
@[simp] theorem State.setRp_f (s : State) (rr : Rp) (v : Word) : (s.setRp rr v).f = s.f := by cases rr <;> rfl
@[simp] theorem State.setRp_pc (s : State) (rr : Rp) (v : Word) : (s.setRp rr v).pc = s.pc := by cases rr <;> rfl
@[simp] theorem State.setRp_ime (s : State) (rr : Rp) (v : Word) : (s.setRp rr v).ime = s.ime := by cases rr <;> rfl
@[simp] theorem State.setRp_imeDelay (s : State) (rr : Rp) (v : Word) : (s.setRp rr v).imeDelay = s.imeDelay := by cases rr <;> rfl
@[simp] theorem State.setRp_haltState (s : State) (rr : Rp) (v : Word) : (s.setRp rr v).haltState = s.haltState := by cases rr <;> rfl
@[simp] theorem State.setRp_haltBugPending (s : State) (rr : Rp) (v : Word) : (s.setRp rr v).haltBugPending = s.haltBugPending := by cases rr <;> rfl
@[simp] theorem State.setRp_ie (s : State) (rr : Rp) (v : Word) : (s.setRp rr v).ie = s.ie := by cases rr <;> rfl
@[simp] theorem State.setRp_iF (s : State) (rr : Rp) (v : Word) : (s.setRp rr v).iF = s.iF := by cases rr <;> rfl
@[simp] theorem State.setRp_stepCycles (s : State) (rr : Rp) (v : Word) : (s.setRp rr v).stepCycles = s.stepCycles := by cases rr <;> rfl
@[simp] theorem State.setRp_cycleTotal (s : State) (rr : Rp) (v : Word) : (s.setRp rr v).cycleTotal = s.cycleTotal := by cases rr <;> rfl
@[simp] theorem State.setRp_bootMapped (s : State) (rr : Rp) (v : Word) : (s.setRp rr v).bootMapped = s.bootMapped := by cases rr <;> rfl
@[simp] theorem State.setRp_mem (s : State) (rr : Rp) (v : Word) : (s.setRp rr v).mem = s.mem := by cases rr <;> rfl
@[simp] theorem State.setRp_rom (s : State) (rr : Rp) (v : Word) : (s.setRp rr v).rom = s.rom := by cases rr <;> rfl
@[simp] theorem State.setRp_xram (s : State) (rr : Rp) (v : Word) : (s.setRp rr v).xram = s.xram := by cases rr <;> rfl
@[simp] theorem State.setRp_cartWrites (s : State) (rr : Rp) (v : Word) : (s.setRp rr v).cartWrites = s.cartWrites := by cases rr <;> rfl
@[simp] theorem State.setRp_params (s : State) (rr : Rp) (v : Word) : (s.setRp rr v).params = s.params := by cases rr <;> rfl
@[simp] theorem State.setRp_env (s : State) (rr : Rp) (v : Word) : (s.setRp rr v).env = s.env := by cases rr <;> rfl
@[simp] theorem State.setRp_ioAnswers (s : State) (rr : Rp) (v : Word) : (s.setRp rr v).ioAnswers = s.ioAnswers := by cases rr <;> rfl
@[simp] theorem State.setRp_ramAnswers (s : State) (rr : Rp) (v : Word) : (s.setRp rr v).ramAnswers = s.ramAnswers := by cases rr <;> rfl
@[simp] theorem State.setRp_start (s : State) (rr : Rp) (v : Word) : (s.setRp rr v).start = s.start := by cases rr <;> rfl
@[simp] theorem State.setRp_reads (s : State) (rr : Rp) (v : Word) : (s.setRp rr v).reads = s.reads := by cases rr <;> rfl
@[simp] theorem State.setRp_resets (s : State) (rr : Rp) (v : Word) : (s.setRp rr v).resets = s.resets := by cases rr <;> rfl

@[simp] theorem State.setPair_a (s : State) (rr : Pair) (v : Word) : (s.setPair rr v).a = s.a := by cases rr <;> rfl
@[simp] theorem State.setPair_f (s : State) (rr : Pair) (v : Word) : (s.setPair rr v).f = s.f := by cases rr <;> rfl
@[simp] theorem State.setPair_sp (s : State) (rr : Pair) (v : Word) : (s.setPair rr v).sp = s.sp := by cases rr <;> rfl
@[simp] theorem State.setPair_pc (s : State) (rr : Pair) (v : Word) : (s.setPair rr v).pc = s.pc := by cases rr <;> rfl
@[simp] theorem State.setPair_ime (s : State) (rr : Pair) (v : Word) : (s.setPair rr v).ime = s.ime := by cases rr <;> rfl
@[simp] theorem State.setPair_imeDelay (s : State) (rr : Pair) (v : Word) : (s.setPair rr v).imeDelay = s.imeDelay := by cases rr <;> rfl
@[simp] theorem State.setPair_haltState (s : State) (rr : Pair) (v : Word) : (s.setPair rr v).haltState = s.haltState := by cases rr <;> rfl
@[simp] theorem State.setPair_haltBugPending (s : State) (rr : Pair) (v : Word) : (s.setPair rr v).haltBugPending = s.haltBugPending := by cases rr <;> rfl
@[simp] theorem State.setPair_ie (s : State) (rr : Pair) (v : Word) : (s.setPair rr v).ie = s.ie := by cases rr <;> rfl
@[simp] theorem State.setPair_iF (s : State) (rr : Pair) (v : Word) : (s.setPair rr v).iF = s.iF := by cases rr <;> rfl
@[simp] theorem State.setPair_stepCycles (s : State) (rr : Pair) (v : Word) : (s.setPair rr v).stepCycles = s.stepCycles := by cases rr <;> rfl
@[simp] theorem State.setPair_cycleTotal (s : State) (rr : Pair) (v : Word) : (s.setPair rr v).cycleTotal = s.cycleTotal := by cases rr <;> rfl
@[simp] theorem State.setPair_bootMapped (s : State) (rr : Pair) (v : Word) : (s.setPair rr v).bootMapped = s.bootMapped := by cases rr <;> rfl
@[simp] theorem State.setPair_mem (s : State) (rr : Pair) (v : Word) : (s.setPair rr v).mem = s.mem := by cases rr <;> rfl
@[simp] theorem State.setPair_rom (s : State) (rr : Pair) (v : Word) : (s.setPair rr v).rom = s.rom := by cases rr <;> rfl
@[simp] theorem State.setPair_xram (s : State) (rr : Pair) (v : Word) : (s.setPair rr v).xram = s.xram := by cases rr <;> rfl
@[simp] theorem State.setPair_cartWrites (s : State) (rr : Pair) (v : Word) : (s.setPair rr v).cartWrites = s.cartWrites := by cases rr <;> rfl
@[simp] theorem State.setPair_params (s : State) (rr : Pair) (v : Word) : (s.setPair rr v).params = s.params := by cases rr <;> rfl
@[simp] theorem State.setPair_env (s : State) (rr : Pair) (v : Word) : (s.setPair rr v).env = s.env := by cases rr <;> rfl
@[simp] theorem State.setPair_ioAnswers (s : State) (rr : Pair) (v : Word) : (s.setPair rr v).ioAnswers = s.ioAnswers := by cases rr <;> rfl
@[simp] theorem State.setPair_ramAnswers (s : State) (rr : Pair) (v : Word) : (s.setPair rr v).ramAnswers = s.ramAnswers := by cases rr <;> rfl
@[simp] theorem State.setPair_start (s : State) (rr : Pair) (v : Word) : (s.setPair rr v).start = s.start := by cases rr <;> rfl
@[simp] theorem State.setPair_reads (s : State) (rr : Pair) (v : Word) : (s.setPair rr v).reads = s.reads := by cases rr <;> rfl
@[simp] theorem State.setPair_resets (s : State) (rr : Pair) (v : Word) : (s.setPair rr v).resets = s.resets := by cases rr <;> rfl

/-- A word is its two bytes (R101). -/
@[simp] theorem joinBytes_hi_lo (v : Word) : joinBytes (hiByte v) (loByte v) = v := by
  simp only [joinBytes, hiByte, loByte]
  ext i hi
  simp only [BitVec.getElem_append, BitVec.getElem_extractLsb']
  split
  · simp [BitVec.getLsbD_eq_getElem (show i < 16 from hi)]
  · rw [show 8 + (i - 8) = i by omega, BitVec.getLsbD_eq_getElem (show i < 16 from hi)]

@[simp] theorem hiByte_join (hi lo : Byte) : hiByte (joinBytes hi lo) = hi := by
  ext i h
  simp only [joinBytes, hiByte, BitVec.getElem_extractLsb', BitVec.getLsbD_append]
  have : ¬ 8 + i < 8 := by omega
  simp [this, BitVec.getLsbD_eq_getElem h]

@[simp] theorem loByte_join (hi lo : Byte) : loByte (joinBytes hi lo) = lo := by
  ext i h
  simp only [joinBytes, loByte, BitVec.getElem_extractLsb', BitVec.getLsbD_append]
  simp [h]

/-- "after `x[rr] <- v`, `x[rr] = v`" (R101). -/
@[simp] theorem State.getRp_setRp (s : State) (rr : Rp) (v : Word) : (s.setRp rr v).getRp rr = v := by
  cases rr
  · exact joinBytes_hi_lo v
  · exact joinBytes_hi_lo v
  · exact joinBytes_hi_lo v
  · rfl

@[simp] theorem State.hlPair_setHl (s : State) (v : Word) : (s.setHl v).hlPair = v := joinBytes_hi_lo v

end Sys2Proof.Machine
end

