-- ==== Sys2Proof/Laws/Bus.lean ====
section
/-! SUPPORT. The laws of the bus: what a read depends on, and everything a write can do. -/

namespace Sys2Proof.Machine

/-! ### A read depends on the bus's own state alone -/

/-- Two states with the same bus state answer every read alike. -/
theorem State.byteAt_congr {s t : State} (hm : t.mem = s.mem) (hr : t.rom = s.rom) (hx : t.xram = s.xram)
    (hc : t.cartWrites = s.cartWrites) (hp : t.params = s.params) (hb : t.bootMapped = s.bootMapped)
    (he : t.ie = s.ie) (hi : t.iF = s.iF) (hk : t.resets = s.resets) (n : Nat) (addr : Word) :
    t.byteAt n addr = s.byteAt n addr := by
  simp only [State.byteAt, State.romByte, State.romOffset, State.ramOffset, State.ioByte, hm, hr, hx, hc, hp, hb, he, hi,
    hk]

@[simp] theorem State.byteAt_tick (s : State) (n : Nat) (addr : Word) :
    (s.tick).byteAt n addr = s.byteAt n addr :=
  State.byteAt_congr (by simp) (by simp) (by simp) (by simp) (by simp) (by simp) (by simp) (by simp) (by simp) n addr

@[simp] theorem State.byteAt_fetched (s : State) (n : Nat) (addr : Word) :
    (s.fetched).byteAt n addr = s.byteAt n addr :=
  State.byteAt_congr (by simp) (by simp) (by simp) (by simp) (by simp) (by simp) (by simp) (by simp) (by simp) n addr

@[simp] theorem State.byteAt_charge (s : State) (k : Nat) (n : Nat) (addr : Word) :
    (s.charge k).byteAt n addr = s.byteAt n addr :=
  State.byteAt_congr (by simp) (by simp) (by simp) (by simp) (by simp) (by simp) (by simp) (by simp) (by simp) n addr

@[simp] theorem State.byteAt_setF (s : State) (v : Byte) (n : Nat) (addr : Word) :
    (s.setF v).byteAt n addr = s.byteAt n addr :=
  State.byteAt_congr (by simp) (by simp) (by simp) (by simp) (by simp) (by simp) (by simp) (by simp) (by simp) n addr

@[simp] theorem State.byteAt_setAF (s : State) (r : Byte × Byte) (n : Nat) (addr : Word) :
    (s.setAF r).byteAt n addr = s.byteAt n addr :=
  State.byteAt_congr (by simp) (by simp) (by simp) (by simp) (by simp) (by simp) (by simp) (by simp) (by simp) n addr

@[simp] theorem State.byteAt_setHl (s : State) (v : Word) (n : Nat) (addr : Word) :
    (s.setHl v).byteAt n addr = s.byteAt n addr :=
  State.byteAt_congr (by simp) (by simp) (by simp) (by simp) (by simp) (by simp) (by simp) (by simp) (by simp) n addr

@[simp] theorem State.byteAt_setAf (s : State) (v : Word) (n : Nat) (addr : Word) :
    (s.setAf v).byteAt n addr = s.byteAt n addr :=
  State.byteAt_congr (by simp) (by simp) (by simp) (by simp) (by simp) (by simp) (by simp) (by simp) (by simp) n addr

@[simp] theorem State.byteAt_popped (s : State) (n : Nat) (addr : Word) :
    (s.popped).byteAt n addr = s.byteAt n addr :=
  State.byteAt_congr (by simp) (by simp) (by simp) (by simp) (by simp) (by simp) (by simp) (by simp) (by simp) n addr

@[simp] theorem State.byteAt_return16 (s : State) (n : Nat) (addr : Word) :
    (s.return16).byteAt n addr = s.byteAt n addr :=
  State.byteAt_congr (by simp) (by simp) (by simp) (by simp) (by simp) (by simp) (by simp) (by simp) (by simp) n addr

@[simp] theorem State.byteAt_returnEnable (s : State) (n : Nat) (addr : Word) :
    (s.returnEnable).byteAt n addr = s.byteAt n addr :=
  State.byteAt_congr (by simp) (by simp) (by simp) (by simp) (by simp) (by simp) (by simp) (by simp) (by simp) n addr

@[simp] theorem State.byteAt_jumpBy (s : State) (x : Byte) (n : Nat) (addr : Word) :
    (s.jumpBy x).byteAt n addr = s.byteAt n addr :=
  State.byteAt_congr (by simp) (by simp) (by simp) (by simp) (by simp) (by simp) (by simp) (by simp) (by simp) n addr

@[simp] theorem State.byteAt_setR8 (s : State) (r : Reg8) (v : Byte) (n : Nat) (addr : Word) :
    (s.setR8 r v).byteAt n addr = s.byteAt n addr :=
  State.byteAt_congr (by simp) (by simp) (by simp) (by simp) (by simp) (by simp) (by simp) (by simp) (by simp) n addr

@[simp] theorem State.byteAt_setRp (s : State) (rr : Rp) (v : Word) (n : Nat) (addr : Word) :
    (s.setRp rr v).byteAt n addr = s.byteAt n addr :=
  State.byteAt_congr (by simp) (by simp) (by simp) (by simp) (by simp) (by simp) (by simp) (by simp) (by simp) n addr

@[simp] theorem State.byteAt_setPair (s : State) (rr : Pair) (v : Word) (n : Nat) (addr : Word) :
    (s.setPair rr v).byteAt n addr = s.byteAt n addr :=
  State.byteAt_congr (by simp) (by simp) (by simp) (by simp) (by simp) (by simp) (by simp) (by simp) (by simp) n addr

@[simp] theorem State.byteAt_raiseIllegal (s : State) (op : Byte) (at_ : Word) (n : Nat) (addr : Word) :
    (s.raiseIllegal op at_).byteAt n addr = s.byteAt n addr :=
  State.byteAt_congr (by simp) (by simp) (by simp) (by simp) (by simp) (by simp) (by simp) (by simp) (by simp) n addr

@[simp] theorem State.peek_tick (s : State) (addr : Word) : s.tick.peek addr = s.byteAt (s.reads + 1) addr := by
  simp [State.peek]

/-! ### What the DMA copy does (R207) -/

/-- A DMA copy changes OAM bytes and the index of the next draw, nothing else. -/
theorem State.dmaCopy_shape (page : Byte) (n : Nat) (s : State) :
    ∃ mem, s.dmaCopy page n = { s with mem := mem, reads := s.reads + n } := by
  induction n with
  | zero => exact ⟨s.mem, rfl⟩
  | succ n ih =>
    obtain ⟨mem, h⟩ := ih
    exact ⟨(s.dmaCopy page (n + 1)).mem, by simp only [State.dmaCopy, h]; rfl⟩

/-! ### Everything a write can do (R221) -/

/-- What a write to external RAM stores is a byte of the cartridge RAM; an answer may be used up. -/
theorem State.extRamStore_shape (s : State) (addr : Word) (v : Byte) :
    ∃ xram ramAnswers, s.extRamStore addr v = { s with xram := xram, ramAnswers := ramAnswers } := by
  unfold State.extRamStore State.extRamPut
  split
  · split <;> exact ⟨_, _, rfl⟩
  all_goals exact ⟨_, _, rfl⟩

/-- A write of an I/O cell stores the next answer, the byte written if there is none, and uses it up. -/
theorem State.ioCellWrite_eq (s : State) (addr : Word) (v : Byte) :
    s.ioCellWrite addr v =
      { s with mem := memStore s.mem addr.toNat (s.ioAnswers.headD v), ioAnswers := s.ioAnswers.tail } := by
  unfold State.ioCellWrite
  split <;> next h => simp [h]; try rw [← h]

/-- A write of an I/O cell changes memory; an answer may be used up. -/
theorem State.ioCellWrite_shape (s : State) (addr : Word) (v : Byte) :
    ∃ mem ioAnswers, s.ioCellWrite addr v = { s with mem := mem, ioAnswers := ioAnswers } := by
  unfold State.ioCellWrite
  split <;> exact ⟨_, _, rfl⟩

/-- A write changes memory, the cartridge's RAM and what its controller was sent, the interrupt masks, the overlay flag, the
answers to come and (by a DMA copy) the index of the next draw, nothing else. -/
theorem State.write_shape (s : State) (addr : Word) (v : Byte) :
    ∃ mem xram cartWrites ie iF bootMapped reads ioAnswers ramAnswers, s.write addr v =
      { s with mem := mem, xram := xram, cartWrites := cartWrites, ie := ie, iF := iF, bootMapped := bootMapped,
               reads := reads, ioAnswers := ioAnswers, ramAnswers := ramAnswers } := by
  unfold State.write
  split
  case h_1 | h_2 =>
    unfold State.cartWrite
    split <;> exact ⟨_, _, _, _, _, _, _, _, _, rfl⟩
  case h_4 =>
    obtain ⟨_, _, h⟩ := s.extRamStore_shape addr v
    rw [State.extRamWrite, h]
    exact ⟨_, _, _, _, _, _, _, _, _, rfl⟩
  case h_9 =>
    unfold State.ioWrite
    split
    · exact ⟨_, _, _, _, _, _, _, _, _, rfl⟩
    · split
      · obtain ⟨mem, h⟩ := State.dmaCopy_shape v 160 s
        exact ⟨mem, s.xram, s.cartWrites, s.ie, s.iF, s.bootMapped, _, s.ioAnswers, s.ramAnswers, h⟩
      · split
        · exact ⟨_, _, _, _, _, _, _, _, _, rfl⟩
        · obtain ⟨_, _, h⟩ := s.ioCellWrite_shape addr v
          rw [h]
          exact ⟨_, _, _, _, _, _, _, _, _, rfl⟩
  all_goals exact ⟨_, _, _, _, _, _, _, _, _, rfl⟩

@[simp] theorem State.write_a (s : State) (addr : Word) (v : Byte) : (s.write addr v).a = s.a := by
  obtain ⟨_, _, _, _, _, _, _, _, _, h⟩ := s.write_shape addr v; rw [h]

@[simp] theorem State.write_f (s : State) (addr : Word) (v : Byte) : (s.write addr v).f = s.f := by
  obtain ⟨_, _, _, _, _, _, _, _, _, h⟩ := s.write_shape addr v; rw [h]

@[simp] theorem State.write_b (s : State) (addr : Word) (v : Byte) : (s.write addr v).b = s.b := by
  obtain ⟨_, _, _, _, _, _, _, _, _, h⟩ := s.write_shape addr v; rw [h]

@[simp] theorem State.write_c (s : State) (addr : Word) (v : Byte) : (s.write addr v).c = s.c := by
  obtain ⟨_, _, _, _, _, _, _, _, _, h⟩ := s.write_shape addr v; rw [h]

@[simp] theorem State.write_d (s : State) (addr : Word) (v : Byte) : (s.write addr v).d = s.d := by
  obtain ⟨_, _, _, _, _, _, _, _, _, h⟩ := s.write_shape addr v; rw [h]

@[simp] theorem State.write_e (s : State) (addr : Word) (v : Byte) : (s.write addr v).e = s.e := by
  obtain ⟨_, _, _, _, _, _, _, _, _, h⟩ := s.write_shape addr v; rw [h]

@[simp] theorem State.write_h (s : State) (addr : Word) (v : Byte) : (s.write addr v).h = s.h := by
  obtain ⟨_, _, _, _, _, _, _, _, _, h⟩ := s.write_shape addr v; rw [h]

@[simp] theorem State.write_l (s : State) (addr : Word) (v : Byte) : (s.write addr v).l = s.l := by
  obtain ⟨_, _, _, _, _, _, _, _, _, h⟩ := s.write_shape addr v; rw [h]

@[simp] theorem State.write_sp (s : State) (addr : Word) (v : Byte) : (s.write addr v).sp = s.sp := by
  obtain ⟨_, _, _, _, _, _, _, _, _, h⟩ := s.write_shape addr v; rw [h]

@[simp] theorem State.write_pc (s : State) (addr : Word) (v : Byte) : (s.write addr v).pc = s.pc := by
  obtain ⟨_, _, _, _, _, _, _, _, _, h⟩ := s.write_shape addr v; rw [h]

@[simp] theorem State.write_ime (s : State) (addr : Word) (v : Byte) : (s.write addr v).ime = s.ime := by
  obtain ⟨_, _, _, _, _, _, _, _, _, h⟩ := s.write_shape addr v; rw [h]

@[simp] theorem State.write_imeDelay (s : State) (addr : Word) (v : Byte) : (s.write addr v).imeDelay = s.imeDelay := by
  obtain ⟨_, _, _, _, _, _, _, _, _, h⟩ := s.write_shape addr v; rw [h]

@[simp] theorem State.write_haltState (s : State) (addr : Word) (v : Byte) : (s.write addr v).haltState = s.haltState := by
  obtain ⟨_, _, _, _, _, _, _, _, _, h⟩ := s.write_shape addr v; rw [h]

@[simp] theorem State.write_haltBugPending (s : State) (addr : Word) (v : Byte) : (s.write addr v).haltBugPending = s.haltBugPending := by
  obtain ⟨_, _, _, _, _, _, _, _, _, h⟩ := s.write_shape addr v; rw [h]

@[simp] theorem State.write_stepCycles (s : State) (addr : Word) (v : Byte) : (s.write addr v).stepCycles = s.stepCycles := by
  obtain ⟨_, _, _, _, _, _, _, _, _, h⟩ := s.write_shape addr v; rw [h]

@[simp] theorem State.write_cycleTotal (s : State) (addr : Word) (v : Byte) : (s.write addr v).cycleTotal = s.cycleTotal := by
  obtain ⟨_, _, _, _, _, _, _, _, _, h⟩ := s.write_shape addr v; rw [h]

@[simp] theorem State.write_rom (s : State) (addr : Word) (v : Byte) : (s.write addr v).rom = s.rom := by
  obtain ⟨_, _, _, _, _, _, _, _, _, h⟩ := s.write_shape addr v; rw [h]

@[simp] theorem State.write_params (s : State) (addr : Word) (v : Byte) : (s.write addr v).params = s.params := by
  obtain ⟨_, _, _, _, _, _, _, _, _, h⟩ := s.write_shape addr v; rw [h]

@[simp] theorem State.write_env (s : State) (addr : Word) (v : Byte) : (s.write addr v).env = s.env := by
  obtain ⟨_, _, _, _, _, _, _, _, _, h⟩ := s.write_shape addr v; rw [h]

@[simp] theorem State.write_start (s : State) (addr : Word) (v : Byte) : (s.write addr v).start = s.start := by
  obtain ⟨_, _, _, _, _, _, _, _, _, h⟩ := s.write_shape addr v; rw [h]

@[simp] theorem State.write_resets (s : State) (addr : Word) (v : Byte) : (s.write addr v).resets = s.resets := by
  obtain ⟨_, _, _, _, _, _, _, _, _, h⟩ := s.write_shape addr v; rw [h]

@[simp] theorem State.getR8_write (s : State) (addr : Word) (v : Byte) (r : Reg8) :
    (s.write addr v).getR8 r = s.getR8 r := by
  cases r <;> simp [State.getR8]

/-- A write does not look at the registers: moving SP first or last is the same. -/
theorem State.write_with_sp (s : State) (sp : Word) (addr : Word) (v : Byte) :
    State.write { s with sp := sp } addr v = { s.write addr v with sp := sp } := by
  have hdma : ∀ n, State.dmaCopy v n { s with sp := sp } = { s.dmaCopy v n with sp := sp } := by
    intro n
    induction n with
    | zero => rfl
    | succ n ih => simp only [State.dmaCopy, ih]; rfl
  have hram : State.extRamStore { s with sp := sp } addr v = { s.extRamStore addr v with sp := sp } := by
    have hput : State.extRamPut { s with sp := sp } addr v = { s.extRamPut addr v with sp := sp } := by
      show (match s.ramOffset addr with | some off => _ | none => _) = _
      unfold State.extRamPut
      cases s.ramOffset addr <;> rfl
    unfold State.extRamStore
    rw [hput]
    generalize s.extRamPut addr v = u
    cases s
    dsimp only
    split <;> rfl
  have hio : State.ioCellWrite { s with sp := sp } addr v = { s.ioCellWrite addr v with sp := sp } := by
    unfold State.ioCellWrite
    cases s
    dsimp only
    split <;> rfl
  simp only [State.write, State.cartWrite, State.extRamWrite, State.ioWrite, hdma, hram, hio]
  cases region addr <;> simp only
  case rom0 | romX => split <;> rfl
  case io => split; rfl; split; rfl; split <;> rfl
  all_goals rfl

/-! ### `push16` (R529) -/

/-- A push is two writes below SP, high byte first, and SP two lower. -/
theorem State.push16_eq (s : State) (v : Word) :
    s.push16 v =
      { (s.write (s.sp - 1#16) (hiByte v)).write (s.sp - 2#16) (loByte v) with sp := s.sp - 2#16 } := by
  have h2 : s.sp - 1#16 - 1#16 = s.sp - 2#16 := by bv_omega
  simp only [State.push16, State.write_with_sp, h2]

@[simp] theorem State.push16_a (s : State) (v : Word) : (s.push16 v).a = s.a := by
  rw [s.push16_eq v]; simp

@[simp] theorem State.push16_f (s : State) (v : Word) : (s.push16 v).f = s.f := by
  rw [s.push16_eq v]; simp

@[simp] theorem State.push16_b (s : State) (v : Word) : (s.push16 v).b = s.b := by
  rw [s.push16_eq v]; simp

@[simp] theorem State.push16_c (s : State) (v : Word) : (s.push16 v).c = s.c := by
  rw [s.push16_eq v]; simp

@[simp] theorem State.push16_d (s : State) (v : Word) : (s.push16 v).d = s.d := by
  rw [s.push16_eq v]; simp

@[simp] theorem State.push16_e (s : State) (v : Word) : (s.push16 v).e = s.e := by
  rw [s.push16_eq v]; simp

@[simp] theorem State.push16_h (s : State) (v : Word) : (s.push16 v).h = s.h := by
  rw [s.push16_eq v]; simp

@[simp] theorem State.push16_l (s : State) (v : Word) : (s.push16 v).l = s.l := by
  rw [s.push16_eq v]; simp

@[simp] theorem State.push16_sp (s : State) (v : Word) : (s.push16 v).sp = s.sp - 2#16 := by
  rw [s.push16_eq v]

@[simp] theorem State.push16_pc (s : State) (v : Word) : (s.push16 v).pc = s.pc := by
  rw [s.push16_eq v]; simp

@[simp] theorem State.push16_ime (s : State) (v : Word) : (s.push16 v).ime = s.ime := by
  rw [s.push16_eq v]; simp

@[simp] theorem State.push16_imeDelay (s : State) (v : Word) : (s.push16 v).imeDelay = s.imeDelay := by
  rw [s.push16_eq v]; simp

@[simp] theorem State.push16_haltState (s : State) (v : Word) : (s.push16 v).haltState = s.haltState := by
  rw [s.push16_eq v]; simp

@[simp] theorem State.push16_haltBugPending (s : State) (v : Word) : (s.push16 v).haltBugPending = s.haltBugPending := by
  rw [s.push16_eq v]; simp

@[simp] theorem State.push16_stepCycles (s : State) (v : Word) : (s.push16 v).stepCycles = s.stepCycles := by
  rw [s.push16_eq v]; simp

@[simp] theorem State.push16_cycleTotal (s : State) (v : Word) : (s.push16 v).cycleTotal = s.cycleTotal := by
  rw [s.push16_eq v]; simp

@[simp] theorem State.push16_rom (s : State) (v : Word) : (s.push16 v).rom = s.rom := by
  rw [s.push16_eq v]; simp

@[simp] theorem State.push16_params (s : State) (v : Word) : (s.push16 v).params = s.params := by
  rw [s.push16_eq v]; simp

@[simp] theorem State.push16_env (s : State) (v : Word) : (s.push16 v).env = s.env := by
  rw [s.push16_eq v]; simp

@[simp] theorem State.push16_start (s : State) (v : Word) : (s.push16 v).start = s.start := by
  rw [s.push16_eq v]; simp

@[simp] theorem State.push16_resets (s : State) (v : Word) : (s.push16 v).resets = s.resets := by
  rw [s.push16_eq v]; simp

@[simp] theorem State.getR8_push16 (s : State) (v : Word) (r : Reg8) : (s.push16 v).getR8 r = s.getR8 r := by
  cases r <;> simp [State.getR8]

end Sys2Proof.Machine
end

