-- ==== Sys2Proof/Laws/Exec.lean ====
section
/-! SUPPORT. No instruction faults or is refused: `exec` always answers a next state (R1100, R1103). -/

namespace Sys2Proof.Machine

theorem execRotR_answers (y : BitVec 3) (r : Reg8) (s : State) : ∃ t, execRotR y r s = .next t := by
  unfold execRotR
  split <;> exact ⟨_, rfl⟩

theorem execRotHl_answers (y : BitVec 3) (s : State) : ∃ t, execRotHl y s = .next t := by
  unfold execRotHl
  split <;> exact ⟨_, rfl⟩

theorem execSecondary_answers (op2 : Byte) (s : State) : ∃ t, execSecondary op2 s = .next t := by
  unfold execSecondary
  split
  · exact execRotR_answers ..
  · exact execRotHl_answers ..
  all_goals exact ⟨_, rfl⟩

/-- Every instruction answers a next state from every state. -/
theorem exec_answers (i : Instr) (s : State) : ∃ t, exec i s = .next t := by
  cases i
  case halt =>
    show ∃ t, execHalt s = .next t
    unfold execHalt
    split <;> exact ⟨_, rfl⟩
  case prefixCb => exact execSecondary_answers s.fetchByte s.fetched
  all_goals exact ⟨_, rfl⟩

end Sys2Proof.Machine
end

