-- ==== Sys2Proof/Laws/Flags.lean ====
section
/-! SUPPORT. F packed and unpacked: each flag reads back, the low nibble is 0, and masking a packed F changes nothing. -/

namespace Sys2Proof.Machine

@[simp] theorem flagZ_packF (z n hf cy : Bool) : flagZ (packF z n hf cy) = z := by
  cases z <;> cases n <;> cases hf <;> cases cy <;> rfl

@[simp] theorem flagN_packF (z n hf cy : Bool) : flagN (packF z n hf cy) = n := by
  cases z <;> cases n <;> cases hf <;> cases cy <;> rfl

@[simp] theorem flagH_packF (z n hf cy : Bool) : flagH (packF z n hf cy) = hf := by
  cases z <;> cases n <;> cases hf <;> cases cy <;> rfl

@[simp] theorem flagC_packF (z n hf cy : Bool) : flagC (packF z n hf cy) = cy := by
  cases z <;> cases n <;> cases hf <;> cases cy <;> rfl

/-- A packed F is an F that R104 leaves alone. -/
@[simp] theorem maskF_packF (z n hf cy : Bool) : maskF (packF z n hf cy) = packF z n hf cy := by
  cases z <;> cases n <;> cases hf <;> cases cy <;> rfl

@[simp] theorem packF_low (z n hf cy : Bool) : (packF z n hf cy).toNat % 16 = 0 := by
  cases z <;> cases n <;> cases hf <;> cases cy <;> rfl

@[simp] theorem flagZ_maskF (v : Byte) : flagZ (maskF v) = flagZ v := by simp [flagZ, maskF]

@[simp] theorem flagN_maskF (v : Byte) : flagN (maskF v) = flagN v := by simp [flagN, maskF]

@[simp] theorem flagH_maskF (v : Byte) : flagH (maskF v) = flagH v := by simp [flagH, maskF]

@[simp] theorem flagC_maskF (v : Byte) : flagC (maskF v) = flagC v := by simp [flagC, maskF]

/-- "Bits 3:0 of F are always 0" after a masked write (R104). -/
@[simp] theorem maskF_low (v : Byte) : (maskF v).toNat % 16 = 0 := by
  revert v
  decide +kernel

end Sys2Proof.Machine
end

