-- ==== Sys2Proof/Laws/Region.lean ====
section
/-! SUPPORT. The bounds of every partition of the address map (R202). -/

namespace Sys2Proof.Machine

theorem region_rom0_iff (addr : Word) : region addr = .rom0 ↔ addr.toNat < 0x4000 := by
  unfold region
  simp only
  split_ifs <;> simp only [true_iff, false_iff] <;> omega

theorem region_romX_iff (addr : Word) : region addr = .romX ↔ 0x4000 ≤ addr.toNat ∧ addr.toNat < 0x8000 := by
  unfold region
  simp only
  split_ifs <;> simp only [true_iff, false_iff] <;> omega

theorem region_vram_iff (addr : Word) : region addr = .vram ↔ 0x8000 ≤ addr.toNat ∧ addr.toNat < 0xA000 := by
  unfold region
  simp only
  split_ifs <;> simp only [true_iff, false_iff] <;> omega

theorem region_extRam_iff (addr : Word) : region addr = .extRam ↔ 0xA000 ≤ addr.toNat ∧ addr.toNat < 0xC000 := by
  unfold region
  simp only
  split_ifs <;> simp only [true_iff, false_iff] <;> omega

theorem region_wram_iff (addr : Word) : region addr = .wram ↔ 0xC000 ≤ addr.toNat ∧ addr.toNat < 0xE000 := by
  unfold region
  simp only
  split_ifs <;> simp only [true_iff, false_iff] <;> omega

theorem region_echo_iff (addr : Word) : region addr = .echo ↔ 0xE000 ≤ addr.toNat ∧ addr.toNat < 0xFE00 := by
  unfold region
  simp only
  split_ifs <;> simp only [true_iff, false_iff] <;> omega

theorem region_oam_iff (addr : Word) : region addr = .oam ↔ 0xFE00 ≤ addr.toNat ∧ addr.toNat < 0xFEA0 := by
  unfold region
  simp only
  split_ifs <;> simp only [true_iff, false_iff] <;> omega

theorem region_unusable_iff (addr : Word) : region addr = .unusable ↔ 0xFEA0 ≤ addr.toNat ∧ addr.toNat < 0xFF00 := by
  unfold region
  simp only
  split_ifs <;> simp only [true_iff, false_iff] <;> omega

theorem region_io_iff (addr : Word) : region addr = .io ↔ 0xFF00 ≤ addr.toNat ∧ addr.toNat < 0xFF80 := by
  unfold region
  simp only
  split_ifs <;> simp only [true_iff, false_iff] <;> omega

theorem region_hram_iff (addr : Word) : region addr = .hram ↔ 0xFF80 ≤ addr.toNat ∧ addr.toNat < 0xFFFF := by
  unfold region
  simp only
  split_ifs <;> simp only [true_iff, false_iff] <;> omega

theorem region_ie_iff (addr : Word) : region addr = .ie ↔ addr.toNat = 0xFFFF := by
  have hlt : addr.toNat < 0x10000 := addr.isLt
  unfold region
  simp only
  split_ifs <;> simp only [true_iff, false_iff] <;> omega

end Sys2Proof.Machine
end

