-- ==== Sys2Proof/Laws/Ops.lean ====
section
/-! SUPPORT. The laws of the shared operations: what dispatch and a call leave, and that every bus write keeps the memories in
canonical form. -/

namespace Sys2Proof.Machine

/-! ### Dispatch (R1111) and calls (R906) -/

@[simp] theorem State.dispatch_pc (s : State) (k : Interrupt) : (s.dispatch k).pc = k.vector := rfl

@[simp] theorem State.dispatch_ime (s : State) (k : Interrupt) : (s.dispatch k).ime = false := rfl

@[simp] theorem State.dispatch_imeDelay (s : State) (k : Interrupt) : (s.dispatch k).imeDelay = false := rfl

@[simp] theorem State.dispatch_stepCycles (s : State) (k : Interrupt) : (s.dispatch k).stepCycles = 5 := rfl

/-- A dispatch is the push of PC, the interrupts off, the vector in PC, the request of that kind cleared, five cycle-units. -/
theorem State.dispatch_eq (s : State) (k : Interrupt) :
    s.dispatch k =
      { s.push16 s.pc with
        iF := (s.push16 s.pc).iF &&& ~~~(1#5 <<< k.bit), ime := false, imeDelay := false, pc := k.vector,
        stepCycles := 5, cycleTotal := s.cycleTotal + 5 } := by
  simp only [State.dispatch, State.charge, State.clearRequest, State.push16_cycleTotal]

/-- A call is the push of PC and the target in PC. -/
theorem State.callTo_eq (s : State) (target : Word) : s.callTo target = { s.push16 s.pc with pc := target } := rfl

/-! ### The memories stay canonical -/

/-- The OAM addresses are addresses `mem` has. -/
theorem memHas_oam {n : Nat} (h : n < 160) : memHas (0xFE00 + n) = true := by
  have hb : (BitVec.ofNat 16 (0xFE00 + n)).toNat = 0xFE00 + n := by simp only [BitVec.toNat_ofNat]; omega
  have hr : region (BitVec.ofNat 16 (0xFE00 + n)) = .oam := (region_oam_iff _).2 (by omega)
  simp only [memHas, hr, Bool.and_true, decide_eq_true_eq]
  omega

/-- Echo RAM is kept in work RAM (R203). -/
theorem memHas_memKey_echo {addr : Word} (h : region addr = .echo) : memHas (memKey addr) = true := by
  obtain ⟨h1, h2⟩ := (region_echo_iff addr).1 h
  have hk : memKey addr = addr.toNat - 0x2000 := by simp only [memKey, h]
  have hb : (BitVec.ofNat 16 (addr.toNat - 0x2000)).toNat = addr.toNat - 0x2000 := by
    simp only [BitVec.toNat_ofNat]; omega
  have hr : region (BitVec.ofNat 16 (addr.toNat - 0x2000)) = .wram := (region_wram_iff _).2 (by omega)
  rw [hk]
  simp only [memHas, hr, Bool.and_true, decide_eq_true_eq]
  omega

/-- The other plain partitions are kept at their own addresses. -/
theorem memHas_memKey {addr : Word}
    (h : region addr = .vram ∨ region addr = .wram ∨ region addr = .oam ∨ region addr = .hram) :
    memHas (memKey addr) = true := by
  have hlt : addr.toNat < 0x10000 := addr.isLt
  have hk : memKey addr = addr.toNat := by unfold memKey; rcases h with h | h | h | h <;> simp only [h]
  rw [hk]
  simp only [memHas, BitVec.ofNat_toNat, BitVec.setWidth_eq, hlt, decide_true, Bool.true_and]
  rcases h with h | h | h | h <;> simp only [h]

/-- A DMA copy of at most the OAM's bytes keeps `mem` canonical. -/
theorem State.dmaCopy_keeps_memWf (page : Byte) (n : Nat) (s : State) (hn : n ≤ 160) (h : memWf memHas s.mem = true) :
    memWf memHas (s.dmaCopy page n).mem = true := by
  induction n with
  | zero => exact h
  | succ n ih => exact memWf_memStore _ _ (memHas_oam (by omega)) (ih (by omega))

/-- Every bus write keeps `mem` canonical. -/
theorem State.write_keeps_memWf (s : State) (addr : Word) (v : Byte) (h : memWf memHas s.mem = true) :
    memWf memHas (s.write addr v).mem = true := by
  unfold State.write
  split
  case h_1 | h_2 => unfold State.cartWrite; split <;> exact h
  case h_4 => obtain ⟨_, _, he⟩ := s.extRamStore_shape addr v; rw [State.extRamWrite, he]; exact h
  case h_8 => exact h
  case h_11 => exact h
  case h_9 hr =>
    unfold State.ioWrite
    split
    · exact h
    · next hi =>
      split
      · exact State.dmaCopy_keeps_memWf v 160 s le_rfl h
      · next hd =>
        split
        · exact h
        · next hb =>
          have hlt := addr.isLt
          have hc : memHas addr.toNat = true := by
            simp only [memHas, BitVec.ofNat_toNat, BitVec.setWidth_eq, hr, isIoCell]
            simp [hi, hd, hb]
            omega
          unfold State.ioCellWrite
          split <;> exact memWf_memStore _ _ hc h
  case h_3 hr => exact memWf_memStore _ _ (memHas_memKey (.inl hr)) h
  case h_5 hr => exact memWf_memStore _ _ (memHas_memKey (.inr (.inl hr))) h
  case h_6 hr => exact memWf_memStore _ _ (memHas_memKey_echo hr) h
  case h_7 hr => exact memWf_memStore _ _ (memHas_memKey (.inr (.inr (.inl hr)))) h
  case h_10 hr => exact memWf_memStore _ _ (memHas_memKey (.inr (.inr (.inr hr)))) h

/-- Every bus write keeps the cartridge RAM canonical. -/
theorem State.write_keeps_xramRising (s : State) (addr : Word) (v : Byte) (h : memRising s.xram = true) :
    memRising (s.write addr v).xram = true := by
  unfold State.write
  split
  case h_1 | h_2 => unfold State.cartWrite; split <;> exact h
  case h_4 =>
    show memRising (s.extRamStore addr v).xram = true
    unfold State.extRamStore State.extRamPut
    split
    · split
      · exact memRising_memStore _ _ h
      · exact h
    · exact memRising_memStore _ _ h
    · exact h
  case h_9 =>
    unfold State.ioWrite
    split
    · exact h
    · split
      · obtain ⟨mem, he⟩ := State.dmaCopy_shape v 160 s; rw [he]; exact h
      · split
        · exact h
        · obtain ⟨_, _, he⟩ := s.ioCellWrite_shape addr v; rw [he]; exact h
  all_goals exact h

/-- An environment move keeps `mem` canonical. -/
theorem State.envCell_keeps_memWf (s : State) (x : Host.Cell) (h : memWf memHas s.mem = true) :
    memWf memHas (s.envCell x).mem = true := by
  unfold State.envCell
  split
  · next hx =>
    refine memWf_memStore _ _ ?_ h
    simp only [Bool.and_eq_true, decide_eq_true_eq] at hx
    have hr : region (BitVec.ofNat 16 x.1) = .io := by
      have := hx.2; simp only [isIoCell, Bool.and_eq_true, decide_eq_true_eq] at this; exact this.1.1.1
    simp only [memHas, hr, hx.2, Bool.and_true, decide_eq_true_eq]
    exact hx.1
  · exact h

/-- The memory of the state after reset is canonical. -/
theorem reset_memWf : memWf memHas State.reset.mem = true := by decide

end Sys2Proof.Machine
end

