-- ==== Sys2Proof/Laws/PerInstr.lean ====
section
/-! SUPPORT. Statements made per instruction. `EncodeLength`: an instruction's encoding is 1, 2 or 3 bytes long (R300), starts
with a byte of its own table and has the length R316 gives its first byte. -/

namespace Sys2Proof.Laws.EncodeLength

/-- The length R316 gives a first byte, read off the dispatch tables. -/
def lengthOf (op : Byte) : Nat :=
  match primary op with
  | .done _ => 1
  | .imm8 _ => 2
  | .imm16 _ => 3
  | .escape => 2

/-- A well-formed instruction's encoding has the length of its first byte. -/
def Statement (i : Instr) : Prop :=
  i.wellFormed = true → ∃ op rest, encode i = op :: rest ∧ (encode i).length = lengthOf op

theorem ldRR (dst r : Reg8) : Statement (.ldRR dst r) := fun _ => by cases dst <;> cases r <;> exact ⟨_, _, rfl, rfl⟩

theorem ldRN (dst : Reg8) (n : Byte) : Statement (.ldRN dst n) := fun _ => by cases dst <;> exact ⟨_, _, rfl, rfl⟩

theorem ldRHl (dst : Reg8) : Statement (.ldRHl dst) := fun _ => by cases dst <;> exact ⟨_, _, rfl, rfl⟩

theorem ldHlR (r : Reg8) : Statement (.ldHlR r) := fun _ => by cases r <;> exact ⟨_, _, rfl, rfl⟩

theorem ldHlN (n : Byte) : Statement (.ldHlN n) := fun _ => ⟨_, _, rfl, rfl⟩

theorem ldABc : Statement .ldABc := fun _ => ⟨_, _, rfl, rfl⟩

theorem ldADe : Statement .ldADe := fun _ => ⟨_, _, rfl, rfl⟩

theorem ldBcA : Statement .ldBcA := fun _ => ⟨_, _, rfl, rfl⟩

theorem ldDeA : Statement .ldDeA := fun _ => ⟨_, _, rfl, rfl⟩

theorem ldAA16 (addr : Word) : Statement (.ldAA16 addr) := fun _ => ⟨_, _, rfl, rfl⟩

theorem ldA16A (addr : Word) : Statement (.ldA16A addr) := fun _ => ⟨_, _, rfl, rfl⟩

theorem ldhAA8 (n : Byte) : Statement (.ldhAA8 n) := fun _ => ⟨_, _, rfl, rfl⟩

theorem ldhA8A (n : Byte) : Statement (.ldhA8A n) := fun _ => ⟨_, _, rfl, rfl⟩

theorem ldhAC : Statement .ldhAC := fun _ => ⟨_, _, rfl, rfl⟩

theorem ldhCA : Statement .ldhCA := fun _ => ⟨_, _, rfl, rfl⟩

theorem ldAHli : Statement .ldAHli := fun _ => ⟨_, _, rfl, rfl⟩

theorem ldAHld : Statement .ldAHld := fun _ => ⟨_, _, rfl, rfl⟩

theorem ldHliA : Statement .ldHliA := fun _ => ⟨_, _, rfl, rfl⟩

theorem ldHldA : Statement .ldHldA := fun _ => ⟨_, _, rfl, rfl⟩

theorem ldRpN (rr : Rp) (n : Word) : Statement (.ldRpN rr n) := fun _ => by cases rr <;> exact ⟨_, _, rfl, rfl⟩

theorem ldA16Sp (addr : Word) : Statement (.ldA16Sp addr) := fun _ => ⟨_, _, rfl, rfl⟩

theorem ldSpHl : Statement .ldSpHl := fun _ => ⟨_, _, rfl, rfl⟩

theorem push (rr : Rp2) : Statement (.push rr) := fun _ => by cases rr <;> exact ⟨_, _, rfl, rfl⟩

theorem popAf : Statement .popAf := fun _ => ⟨_, _, rfl, rfl⟩

theorem pop (rr : Pair) : Statement (.pop rr) := fun _ => by cases rr <;> exact ⟨_, _, rfl, rfl⟩

theorem addR (r : Reg8) : Statement (.addR r) := fun _ => by cases r <;> exact ⟨_, _, rfl, rfl⟩

theorem addHl : Statement .addHl := fun _ => ⟨_, _, rfl, rfl⟩

theorem addN (n : Byte) : Statement (.addN n) := fun _ => ⟨_, _, rfl, rfl⟩

theorem adcR (r : Reg8) : Statement (.adcR r) := fun _ => by cases r <;> exact ⟨_, _, rfl, rfl⟩

theorem adcHl : Statement .adcHl := fun _ => ⟨_, _, rfl, rfl⟩

theorem adcN (n : Byte) : Statement (.adcN n) := fun _ => ⟨_, _, rfl, rfl⟩

theorem subR (r : Reg8) : Statement (.subR r) := fun _ => by cases r <;> exact ⟨_, _, rfl, rfl⟩

theorem subHl : Statement .subHl := fun _ => ⟨_, _, rfl, rfl⟩

theorem subN (n : Byte) : Statement (.subN n) := fun _ => ⟨_, _, rfl, rfl⟩

theorem sbcR (r : Reg8) : Statement (.sbcR r) := fun _ => by cases r <;> exact ⟨_, _, rfl, rfl⟩

theorem sbcHl : Statement .sbcHl := fun _ => ⟨_, _, rfl, rfl⟩

theorem sbcN (n : Byte) : Statement (.sbcN n) := fun _ => ⟨_, _, rfl, rfl⟩

theorem andR (r : Reg8) : Statement (.andR r) := fun _ => by cases r <;> exact ⟨_, _, rfl, rfl⟩

theorem andHl : Statement .andHl := fun _ => ⟨_, _, rfl, rfl⟩

theorem andN (n : Byte) : Statement (.andN n) := fun _ => ⟨_, _, rfl, rfl⟩

theorem xorR (r : Reg8) : Statement (.xorR r) := fun _ => by cases r <;> exact ⟨_, _, rfl, rfl⟩

theorem xorHl : Statement .xorHl := fun _ => ⟨_, _, rfl, rfl⟩

theorem xorN (n : Byte) : Statement (.xorN n) := fun _ => ⟨_, _, rfl, rfl⟩

theorem orR (r : Reg8) : Statement (.orR r) := fun _ => by cases r <;> exact ⟨_, _, rfl, rfl⟩

theorem orHl : Statement .orHl := fun _ => ⟨_, _, rfl, rfl⟩

theorem orN (n : Byte) : Statement (.orN n) := fun _ => ⟨_, _, rfl, rfl⟩

theorem cpR (r : Reg8) : Statement (.cpR r) := fun _ => by cases r <;> exact ⟨_, _, rfl, rfl⟩

theorem cpHl : Statement .cpHl := fun _ => ⟨_, _, rfl, rfl⟩

theorem cpN (n : Byte) : Statement (.cpN n) := fun _ => ⟨_, _, rfl, rfl⟩

theorem incR (r : Reg8) : Statement (.incR r) := fun _ => by cases r <;> exact ⟨_, _, rfl, rfl⟩

theorem incHl : Statement .incHl := fun _ => ⟨_, _, rfl, rfl⟩

theorem decR (r : Reg8) : Statement (.decR r) := fun _ => by cases r <;> exact ⟨_, _, rfl, rfl⟩

theorem decHl : Statement .decHl := fun _ => ⟨_, _, rfl, rfl⟩

theorem daa : Statement .daa := fun _ => ⟨_, _, rfl, rfl⟩

theorem cpl : Statement .cpl := fun _ => ⟨_, _, rfl, rfl⟩

theorem scf : Statement .scf := fun _ => ⟨_, _, rfl, rfl⟩

theorem ccf : Statement .ccf := fun _ => ⟨_, _, rfl, rfl⟩

theorem addHlRp (rr : Rp) : Statement (.addHlRp rr) := fun _ => by cases rr <;> exact ⟨_, _, rfl, rfl⟩

theorem incRp (rr : Rp) : Statement (.incRp rr) := fun _ => by cases rr <;> exact ⟨_, _, rfl, rfl⟩

theorem decRp (rr : Rp) : Statement (.decRp rr) := fun _ => by cases rr <;> exact ⟨_, _, rfl, rfl⟩

theorem addSpE (e : Byte) : Statement (.addSpE e) := fun _ => ⟨_, _, rfl, rfl⟩

theorem ldHlSpE (e : Byte) : Statement (.ldHlSpE e) := fun _ => ⟨_, _, rfl, rfl⟩

theorem rlca : Statement .rlca := fun _ => ⟨_, _, rfl, rfl⟩

theorem rrca : Statement .rrca := fun _ => ⟨_, _, rfl, rfl⟩

theorem rla : Statement .rla := fun _ => ⟨_, _, rfl, rfl⟩

theorem rra : Statement .rra := fun _ => ⟨_, _, rfl, rfl⟩

theorem rlcR (r : Reg8) : Statement (.rlcR r) := fun _ => ⟨_, _, rfl, rfl⟩

theorem rlcHl : Statement .rlcHl := fun _ => ⟨_, _, rfl, rfl⟩

theorem rrcR (r : Reg8) : Statement (.rrcR r) := fun _ => ⟨_, _, rfl, rfl⟩

theorem rrcHl : Statement .rrcHl := fun _ => ⟨_, _, rfl, rfl⟩

theorem rlR (r : Reg8) : Statement (.rlR r) := fun _ => ⟨_, _, rfl, rfl⟩

theorem rlHl : Statement .rlHl := fun _ => ⟨_, _, rfl, rfl⟩

theorem rrR (r : Reg8) : Statement (.rrR r) := fun _ => ⟨_, _, rfl, rfl⟩

theorem rrHl : Statement .rrHl := fun _ => ⟨_, _, rfl, rfl⟩

theorem slaR (r : Reg8) : Statement (.slaR r) := fun _ => ⟨_, _, rfl, rfl⟩

theorem slaHl : Statement .slaHl := fun _ => ⟨_, _, rfl, rfl⟩

theorem sraR (r : Reg8) : Statement (.sraR r) := fun _ => ⟨_, _, rfl, rfl⟩

theorem sraHl : Statement .sraHl := fun _ => ⟨_, _, rfl, rfl⟩

theorem swapR (r : Reg8) : Statement (.swapR r) := fun _ => ⟨_, _, rfl, rfl⟩

theorem swapHl : Statement .swapHl := fun _ => ⟨_, _, rfl, rfl⟩

theorem srlR (r : Reg8) : Statement (.srlR r) := fun _ => ⟨_, _, rfl, rfl⟩

theorem srlHl : Statement .srlHl := fun _ => ⟨_, _, rfl, rfl⟩

theorem bitR (u3 : BitVec 3) (r : Reg8) : Statement (.bitR u3 r) := fun _ => ⟨_, _, rfl, rfl⟩

theorem bitHl (u3 : BitVec 3) : Statement (.bitHl u3) := fun _ => ⟨_, _, rfl, rfl⟩

theorem resR (u3 : BitVec 3) (r : Reg8) : Statement (.resR u3 r) := fun _ => ⟨_, _, rfl, rfl⟩

theorem resHl (u3 : BitVec 3) : Statement (.resHl u3) := fun _ => ⟨_, _, rfl, rfl⟩

theorem setR (u3 : BitVec 3) (r : Reg8) : Statement (.setR u3 r) := fun _ => ⟨_, _, rfl, rfl⟩

theorem setHl (u3 : BitVec 3) : Statement (.setHl u3) := fun _ => ⟨_, _, rfl, rfl⟩

theorem jp (addr : Word) : Statement (.jp addr) := fun _ => ⟨_, _, rfl, rfl⟩

theorem jpCc (cc : Cond) (addr : Word) : Statement (.jpCc cc addr) := fun _ => by cases cc <;> exact ⟨_, _, rfl, rfl⟩

theorem jpHl : Statement .jpHl := fun _ => ⟨_, _, rfl, rfl⟩

theorem jr (e : Byte) : Statement (.jr e) := fun _ => ⟨_, _, rfl, rfl⟩

theorem jrCc (cc : Cond) (e : Byte) : Statement (.jrCc cc e) := fun _ => by cases cc <;> exact ⟨_, _, rfl, rfl⟩

theorem call (addr : Word) : Statement (.call addr) := fun _ => ⟨_, _, rfl, rfl⟩

theorem callCc (cc : Cond) (addr : Word) : Statement (.callCc cc addr) := fun _ => by cases cc <;> exact ⟨_, _, rfl, rfl⟩

theorem ret : Statement .ret := fun _ => ⟨_, _, rfl, rfl⟩

theorem retCc (cc : Cond) : Statement (.retCc cc) := fun _ => by cases cc <;> exact ⟨_, _, rfl, rfl⟩

theorem reti : Statement .reti := fun _ => ⟨_, _, rfl, rfl⟩

theorem rst (y : BitVec 3) : Statement (.rst y) := fun _ => ⟨_, _, rfl, by revert y; decide⟩

theorem nop : Statement .nop := fun _ => ⟨_, _, rfl, rfl⟩

theorem halt : Statement .halt := fun _ => ⟨_, _, rfl, rfl⟩

theorem stop (n : Byte) : Statement (.stop n) := fun _ => ⟨_, _, rfl, rfl⟩

theorem di : Statement .di := fun _ => ⟨_, _, rfl, rfl⟩

theorem ei : Statement .ei := fun _ => ⟨_, _, rfl, rfl⟩

theorem prefixCb : Statement .prefixCb := fun h => absurd h (by decide)

theorem illegal (op : Byte) : Statement (.illegal op) := fun h => ⟨op, [], rfl, by
    have h : op ∈ illegalOpcodes := by simpa [Instr.wellFormed] using h
    fin_cases h <;> rfl⟩

end Sys2Proof.Laws.EncodeLength
end

