-- ==== Sys2Proof/Laws/Step.lean ====
section
/-! SUPPORT. What the parts of the step can do: the environment's move, the fetch, and the cases of a step. -/

namespace Sys2Proof.Machine

/-! ### The environment (R408) -/

theorem State.requests_shape (ks : List Interrupt) (s : State) :
    ∃ iF, ks.foldl State.request s = { s with iF := iF } := by
  induction ks generalizing s with
  | nil => exact ⟨s.iF, rfl⟩
  | cons k ks ih =>
    obtain ⟨iF, h⟩ := ih (s.request k)
    exact ⟨iF, h⟩

theorem State.envCells_shape (cells : List Host.Cell) (s : State) :
    ∃ mem, cells.foldl State.envCell s = { s with mem := mem } := by
  induction cells generalizing s with
  | nil => exact ⟨s.mem, rfl⟩
  | cons x cells ih =>
    obtain ⟨mem, h⟩ := ih (s.envCell x)
    refine ⟨mem, h.trans ?_⟩
    unfold State.envCell
    split <;> rfl

/-- An environment move changes IF and memory cells, nothing else. -/
theorem State.applyMove_shape (s : State) (m : EnvMove) :
    ∃ iF mem, s.applyMove m = { s with iF := iF, mem := mem } := by
  obtain ⟨iF, h⟩ := State.requests_shape m.requests s
  obtain ⟨mem, h'⟩ := State.envCells_shape m.io { s with iF := iF }
  exact ⟨iF, mem, by rw [State.applyMove, h, h']⟩

/-- The environment's part of a step changes IF, memory cells and the moves left, nothing else. -/
theorem State.envStep_shape (s : State) :
    ∃ iF mem env, s.envStep = { s with iF := iF, mem := mem, env := env } := by
  unfold State.envStep
  split
  · exact ⟨s.iF, s.mem, s.env, rfl⟩
  · next m rest _ =>
    obtain ⟨iF, mem, h⟩ := State.applyMove_shape { s with env := rest } m
    exact ⟨iF, mem, rest, h⟩

/-! ### The reset event (R1131, R1200) -/

/-- A reset event is due only from the host's next move. -/
theorem State.env_of_resetDue {s : State} {r : ResetEvent} (h : s.resetDue = some r) :
    ∃ m rest, s.env = m :: rest ∧ m.reset = some r := by
  unfold State.resetDue at h
  split at h
  · simp at h
  · simp at h
  · exact ⟨_, _, by assumption, h⟩

@[simp] theorem State.resetAt_params (k : Nat) (p : Params) : (State.resetAt k p).params = p := by
  unfold State.resetAt; split <;> rfl

@[simp] theorem State.resetAt_resets (k : Nat) (p : Params) : (State.resetAt k p).resets = k := by
  unfold State.resetAt; split <;> rfl

@[simp] theorem State.resetAt_mem (k : Nat) (p : Params) : (State.resetAt k p).mem = [] := by
  unfold State.resetAt; split <;> rfl

@[simp] theorem State.resetAt_cartWrites (k : Nat) (p : Params) : (State.resetAt k p).cartWrites = [] := by
  unfold State.resetAt; split <;> rfl

@[simp] theorem State.resetEvent_rom (s : State) (r : ResetEvent) : (s.resetEvent r).rom = s.rom := rfl

@[simp] theorem State.resetEvent_env (s : State) (r : ResetEvent) : (s.resetEvent r).env = s.env.tail := rfl

@[simp] theorem State.resetEvent_reads (s : State) (r : ResetEvent) : (s.resetEvent r).reads = s.reads := rfl

@[simp] theorem State.resetEvent_ioAnswers (s : State) (r : ResetEvent) : (s.resetEvent r).ioAnswers = s.ioAnswers := rfl

@[simp] theorem State.resetEvent_ramAnswers (s : State) (r : ResetEvent) :
    (s.resetEvent r).ramAnswers = s.ramAnswers := rfl

@[simp] theorem State.resetEvent_params (s : State) (r : ResetEvent) :
    (s.resetEvent r).params = { s.params with bootMode := r.bootMode, bootRom := r.bootRom } := by
  simp [State.resetEvent]

@[simp] theorem State.resetEvent_resets (s : State) (r : ResetEvent) : (s.resetEvent r).resets = s.resets + 1 := by
  simp [State.resetEvent]

@[simp] theorem State.resetEvent_mem (s : State) (r : ResetEvent) : (s.resetEvent r).mem = [] := by
  simp [State.resetEvent]

@[simp] theorem State.resetEvent_xram (s : State) (r : ResetEvent) : (s.resetEvent r).xram = r.cartRam := rfl

@[simp] theorem State.resetEvent_cartWrites (s : State) (r : ResetEvent) : (s.resetEvent r).cartWrites = [] := by
  simp [State.resetEvent]

/-! ### The fetch (R400 to R402) -/

/-- The opcode fetch moves PC (or not, under the halt bug), records `start` and leaves no halt bug pending. -/
theorem State.opcodeFetched_shape (s : State) :
    ∃ pc, s.opcodeFetched =
      { s with pc := pc, reads := s.reads + 1, start := s.pc, haltBugPending := false } := by
  unfold State.opcodeFetched
  split
  · exact ⟨s.pc, rfl⟩
  · next h => exact ⟨s.pc + 1#16, by simp only [Bool.not_eq_true] at h; simp [State.fetched, State.tick, h]⟩

/-- The fetch of an instruction moves PC, records `start` and leaves no halt bug pending, nothing else. -/
theorem State.fetchInstr_shape (s : State) :
    ∃ pc reads, s.fetchInstr.2 =
      { s with pc := pc, reads := reads, start := s.pc, haltBugPending := false } := by
  obtain ⟨pc, h⟩ := s.opcodeFetched_shape
  unfold State.fetchInstr completeEntry
  rw [h]
  split <;> exact ⟨_, _, rfl⟩

/-- The delayed enable changes `ime` and `ime_delay`, and leaves the latter clear (R401). -/
theorem State.enableDelayed_eq (s : State) :
    s.enableDelayed = { s with ime := s.ime || s.imeDelay, imeDelay := false } := by
  unfold State.enableDelayed
  split
  · next h => simp [h]
  · next h => simp only [Bool.not_eq_true] at h; simp [h]; rw [← h]

/-! ### The step (R400) -/

/-- What a running step does: it dispatches the kind of highest priority, or runs the instruction it fetches. -/
theorem runStep_cases {s t : State} (h : runStep s = .next t) :
    (∃ k, s.ime = true ∧ s.highestPriority = some k ∧ t = s.dispatch k) ∨
    ((s.ime = false ∨ s.highestPriority = none) ∧
      exec s.enableDelayed.fetchInstr.1 s.enableDelayed.fetchInstr.2 = .next t) := by
  unfold runStep at h
  split at h
  · next k hi hk => exact .inl ⟨k, hi, hk, (Host.Outcome.next.inj h).symm⟩
  · next _ hk => exact .inr ⟨.inr hk, h⟩
  · next hi => exact .inr ⟨.inl hi, h⟩

/-- The three ways of a step that no reset event takes: idling, doing nothing, running. -/
def StepRuns (s t : State) : Prop :=
  (s.envStep.haltState = .halted ∧ s.envStep.pending = 0#5 ∧ t = s.envStep.charge 1) ∨
  (s.envStep.haltState = .stopped ∧ s.stopWake = false ∧ t = s.envStep) ∨
  (∃ u : State, u = { s.envStep with haltState := .running } ∧
    ((∃ k, u.ime = true ∧ u.highestPriority = some k ∧ t = u.dispatch k) ∨
     ((u.ime = false ∨ u.highestPriority = none) ∧
       exec u.enableDelayed.fetchInstr.1 u.enableDelayed.fetchInstr.2 = .next t)))

/-- What a step that no reset event takes can do. -/
theorem stepFrom_cases {s t : State} (h : stepFrom s.stopWake s.envStep = .next t) : StepRuns s t := by
  unfold stepFrom at h
  split at h
  · next hs =>
    refine .inr (.inr ⟨_, rfl, ?_⟩)
    have he : ({ s.envStep with haltState := .running } : State) = s.envStep := by rw [← hs]
    rw [he]; exact runStep_cases h
  · next hs =>
    split at h
    · next hp => exact .inl ⟨hs, hp, (Host.Outcome.next.inj h).symm⟩
    · exact .inr (.inr ⟨_, rfl, runStep_cases h⟩)
  · next hs =>
    split at h
    · exact .inr (.inr ⟨_, rfl, runStep_cases h⟩)
    · next hw => exact .inr (.inl ⟨hs, by simpa using hw, (Host.Outcome.next.inj h).symm⟩)
  · simp at h

/-- With no reset event due a step is the environment's move, then the CPU's part (R400). -/
theorem step_of_noReset {s : State} (h : s.resetDue = none) : step s = stepFrom s.stopWake s.envStep := by
  unfold step; rw [h]

/-- With a reset event due a step is that event (R1200). -/
theorem step_of_reset {s : State} {r : ResetEvent} (h : s.resetDue = some r) : step s = .next (s.resetEvent r) := by
  unfold step; rw [h]

/-- What a step that answers a next state does: the reset event; or, after the environment's move, a halted CPU idles, a
stopped one does nothing, or the CPU runs: it dispatches, or runs the instruction it fetches. -/
theorem step_cases {s t : State} (h : step s = .next t) :
    (∃ r, s.resetDue = some r ∧ t = s.resetEvent r) ∨ (s.resetDue = none ∧ StepRuns s t) := by
  cases hr : s.resetDue with
  | some r => exact .inl ⟨r, rfl, Host.Outcome.next.inj ((step_of_reset hr).symm.trans h) |>.symm⟩
  | none => exact .inr ⟨rfl, stepFrom_cases ((step_of_noReset hr).symm.trans h)⟩

end Sys2Proof.Machine
end

