-- ==== Sys2Proof/Laws/Storage.lean ====
section
/-! SUPPORT. Which cell of which store an address names, and that reads and writes of plain bytes are reads and writes
of it. -/

namespace Sys2Proof.Machine

/-- Outside echo RAM the key is the address. -/
theorem memKey_not_echo {a : Word} (h : region a ≠ .echo) : memKey a = a.toNat := by
  unfold memKey; split <;> simp_all

/-- A byte depends on `mem` through its own cell only. -/
theorem State.byteAt_mem_congr (s : State) (m : Memory) (n : Nat) (other : Word)
    (h : memByte .internal s.resets m (memKey other) = memByte .internal s.resets s.mem (memKey other)) :
    State.byteAt { s with mem := m } n other = s.byteAt n other := by
  unfold State.byteAt
  cases hr : region other <;> simp only
  case io =>
    have hk : memKey other = other.toNat := memKey_not_echo (by simp [hr])
    rw [hk] at h
    unfold State.ioByte
    simp only [h]
  all_goals first | exact h | rfl

/-- What a plain byte reads as. -/
theorem State.byteAt_plain {s : State} {a : Word} (h : (region a).plain = true) (n : Nat) :
    s.byteAt n a = memByte .internal s.resets s.mem (memKey a) := by
  unfold State.byteAt
  cases hr : region a <;> simp_all [Region.plain]

/-- What a write of a plain byte does. -/
theorem State.write_plain {s : State} {a : Word} {v : Byte} (h : (region a).plain = true) :
    s.write a v = s.memWrite a v := by
  unfold State.write
  cases hr : region a <;> simp_all [Region.plain]

/-- The OAM copy changes OAM cells only. -/
theorem State.dmaCopy_memByte (page : Byte) (s : State) (k : Nat) (i : Nat) (h : ∀ j < k, i ≠ 0xFE00 + j) :
   memByte .internal s.resets (s.dmaCopy page k).mem i = memByte .internal s.resets s.mem i := by
  induction k with
  | zero => rfl
  | succ k ih =>
    show memByte .internal s.resets (memStore _ _ _) i = _
    rw [memByte_memStore_of_ne _ _ _ _ (h k (by omega))]
    exact ih fun j hj => h j (by omega)

/-- The OAM copy changes no byte outside OAM. -/
theorem State.dmaCopy_byteAt (page : Byte) (s : State) (n k : Nat) (hk : k ≤ 160) (a : Word) (h : region a ≠ .oam) :
    (s.dmaCopy page k).byteAt n a = s.byteAt n a := by
  obtain ⟨mem, he⟩ := s.dmaCopy_shape page k
  have hm : mem = (s.dmaCopy page k).mem := by rw [he]
  rw [he]
  have : State.byteAt { s with mem := mem, reads := s.reads + k } n a = State.byteAt { s with mem := mem } n a := rfl
  rw [this]
  by_cases hio : (region a).plain = true ∨ region a = .io
  · apply State.byteAt_mem_congr
    rw [hm]
    apply State.dmaCopy_memByte
    intro j hj hc
    have hlt := a.isLt
    by_cases hecho : region a = .echo
    · have := (region_echo_iff a).1 hecho
      have hk : memKey a = a.toNat - 0x2000 := by simp only [memKey, hecho]
      omega
    · rw [memKey_not_echo hecho] at hc
      exact h ((region_oam_iff a).2 (by omega))
  · unfold State.byteAt
    cases hr : region a <;> rw [hr] at h hio <;>
      first | exact absurd rfl h | exact absurd (.inl rfl) hio | exact absurd (.inr rfl) hio | rfl

/-- No other address shares an I/O cell. -/
theorem memKey_io_inj {a b : Word} (ha : region a = .io) (h : memKey b = a.toNat) : b = a := by
  have h1 := (region_io_iff a).1 ha
  have hlt := b.isLt
  by_cases hecho : region b = .echo
  · have := (region_echo_iff b).1 hecho
    have hk : memKey b = b.toNat - 0x2000 := by simp only [memKey, hecho]
    omega
  · rw [memKey_not_echo hecho] at h
    exact BitVec.eq_of_toNat_eq h

/-- The low ROM window is bank 0. -/
theorem State.romOffset_low {s : State} {a : Word} (h : a.toNat < 0x4000) : s.romOffset a = a.toNat := by
  unfold State.romOffset
  have : decide (romBankSize ≤ a.toNat) = false := decide_eq_false (by unfold romBankSize; omega)
  rw [if_neg (by rw [this]; simp)]

/-- An echo address shares the cell 0x2000 below (R203). -/
theorem echo_memKey {a : Word} (h1 : 0xE000 ≤ a.toNat) (h2 : a.toNat < 0xFE00) :
    region a = .echo ∧ region (a - 0x2000#16) = .wram ∧ memKey (a - 0x2000#16) = memKey a := by
  have e : (a - 0x2000#16).toNat = a.toNat - 0x2000 := by bv_omega
  have r1 := (region_echo_iff a).2 ⟨h1, h2⟩
  have r2 := (region_wram_iff (a - 0x2000#16)).2 (by omega)
  refine ⟨r1, r2, ?_⟩
  rw [memKey_not_echo (by simp [r2]), e]; simp only [memKey, r1]

end Sys2Proof.Machine
end

