-- ==== Sys2Proof/Tests/Slice0.lean ====
section
/-! SUPPORT. Small tests of one decode or one instruction each, with results from the spec's examples and vectors
(95_test_vectors.md) or computed by hand from its rules, and for every statement with hypotheses a witness that meets them. -/

namespace Sys2Proof.Tests

open Sys2Proof Sys2Proof.Machine Sys2Proof.Claims

/-! ### Well-formedness: one ill-formed term for each check -/

/-- R1005: the escape alone is no instruction. -/
theorem test_escape_alone_is_ill_formed : Instr.prefixCb.wellFormed = false := by decide

/-- R314: 0x00 is not one of the eleven. -/
theorem test_legal_opcode_as_illegal_is_ill_formed : (Instr.illegal 0x00#8).wellFormed = false := by decide

/-- R314: 0xD3 is, and a plain instruction has nothing to check. -/
theorem test_well_formed_terms : (Instr.illegal 0xD3#8).wellFormed = true ∧ (Instr.addR .b).wellFormed = true := by decide

/-! ### Decoding: every constructor from a word written out from its encoding -/

/-- 41_load_store.md R500 to R510. -/
theorem test_decode_loads :
    [[0b01000001#8], [0b00111110#8, 0x42#8], [0b01111110#8], [0b01110111#8], [0b00110110#8, 0xAB#8], [0b00001010#8],
      [0b00011010#8], [0b00000010#8], [0b00010010#8], [0b11111010#8, 0x34#8, 0xC2#8], [0b11101010#8, 0x00#8, 0xC0#8]].map
      decoded =
    [some (.ldRR .b .c), some (.ldRN .a 0x42#8), some (.ldRHl .a), some (.ldHlR .a), some (.ldHlN 0xAB#8), some .ldABc,
      some .ldADe, some .ldBcA, some .ldDeA, some (.ldAA16 0xC234#16), some (.ldA16A 0xC000#16)] := by decide

/-- R511 to R522. -/
theorem test_decode_high_and_wide_loads :
    [[0b11110000#8, 0x80#8], [0b11100000#8, 0x80#8], [0b11110010#8], [0b11100010#8], [0b00101010#8], [0b00111010#8],
      [0b00100010#8], [0b00110010#8], [0b00100001#8, 0x34#8, 0x12#8], [0b00001000#8, 0x00#8, 0xC0#8], [0b11111001#8]].map
      decoded =
    [some (.ldhAA8 0x80#8), some (.ldhA8A 0x80#8), some .ldhAC, some .ldhCA, some .ldAHli, some .ldAHld, some .ldHliA,
      some .ldHldA, some (.ldRpN .hl 0x1234#16), some (.ldA16Sp 0xC000#16), some .ldSpHl] := by decide

/-- R530 to R532. -/
theorem test_decode_stack :
    [[0b11000101#8], [0b11110101#8], [0b11110001#8], [0b11010001#8]].map decoded =
    [some (.push .bc), some (.push .af), some .popAf, some (.pop .de)] := by decide

/-- R602 to R613: `10yyyzzz`, `11yyy110`. -/
theorem test_decode_add_and_subtract :
    [[0b10000000#8], [0b10000110#8], [0b11000110#8, 0x01#8], [0b10001001#8], [0b10001110#8], [0b11001110#8, 0x02#8],
      [0b10010010#8], [0b10010110#8], [0b11010110#8, 0x03#8], [0b10011011#8], [0b10011110#8], [0b11011110#8, 0x04#8]].map
      decoded =
    [some (.addR .b), some .addHl, some (.addN 0x01#8), some (.adcR .c), some .adcHl, some (.adcN 0x02#8),
      some (.subR .d), some .subHl, some (.subN 0x03#8), some (.sbcR .e), some .sbcHl, some (.sbcN 0x04#8)] := by decide

/-- R614 to R625. -/
theorem test_decode_logic_and_compare :
    [[0b10100100#8], [0b10100110#8], [0b11100110#8, 0xF0#8], [0b10101101#8], [0b10101110#8], [0b11101110#8, 0x0F#8],
      [0b10110111#8], [0b10110110#8], [0b11110110#8, 0x01#8], [0b10111000#8], [0b10111110#8], [0b11111110#8, 0x90#8]].map
      decoded =
    [some (.andR .h), some .andHl, some (.andN 0xF0#8), some (.xorR .l), some .xorHl, some (.xorN 0x0F#8),
      some (.orR .a), some .orHl, some (.orN 0x01#8), some (.cpR .b), some .cpHl, some (.cpN 0x90#8)] := by decide

/-- R626 to R633. -/
theorem test_decode_inc_dec_and_adjust :
    [[0b00111100#8], [0b00110100#8], [0b00000101#8], [0b00110101#8], [0b00100111#8], [0b00101111#8], [0b00110111#8],
      [0b00111111#8]].map decoded =
    [some (.incR .a), some .incHl, some (.decR .b), some .decHl, some .daa, some .cpl, some .scf, some .ccf] := by decide

/-- 43_alu16.md: `00pp1001`, `00pp0011`, `00pp1011`. -/
theorem test_decode_16_bit_arithmetic :
    [[0b00001001#8], [0b00110011#8], [0b00011011#8], [0b11101000#8, 0xFE#8], [0b11111000#8, 0x02#8]].map decoded =
    [some (.addHlRp .bc), some (.incRp .sp), some (.decRp .de), some (.addSpE 0xFE#8), some (.ldHlSpE 0x02#8)] := by
  decide

/-- R800 to R812. -/
theorem test_decode_rotates :
    [[0b00000111#8], [0b00001111#8], [0b00010111#8], [0b00011111#8], [0xCB#8, 0b00000000#8], [0xCB#8, 0b00000110#8],
      [0xCB#8, 0b00001001#8], [0xCB#8, 0b00001110#8], [0xCB#8, 0b00010101#8], [0xCB#8, 0b00010110#8],
      [0xCB#8, 0b00011111#8], [0xCB#8, 0b00011110#8]].map decoded =
    [some .rlca, some .rrca, some .rla, some .rra, some (.rlcR .b), some .rlcHl, some (.rrcR .c), some .rrcHl,
      some (.rlR .l), some .rlHl, some (.rrR .a), some .rrHl] := by decide

/-- R813 to R826. -/
theorem test_decode_shifts_and_bits :
    [[0xCB#8, 0b00100010#8], [0xCB#8, 0b00100110#8], [0xCB#8, 0b00101111#8], [0xCB#8, 0b00101110#8],
      [0xCB#8, 0b00110111#8], [0xCB#8, 0b00110110#8], [0xCB#8, 0b00111111#8], [0xCB#8, 0b00111110#8],
      [0xCB#8, 0b01111111#8], [0xCB#8, 0b01000110#8], [0xCB#8, 0b10111111#8], [0xCB#8, 0b10001110#8],
      [0xCB#8, 0b11011111#8], [0xCB#8, 0b11011110#8]].map decoded =
    [some (.slaR .d), some .slaHl, some (.sraR .a), some .sraHl, some (.swapR .a), some .swapHl, some (.srlR .a),
      some .srlHl, some (.bitR 7#3 .a), some (.bitHl 0#3), some (.resR 7#3 .a), some (.resHl 1#3), some (.setR 3#3 .a),
      some (.setHl 3#3)] := by decide

/-- 45_control.md. -/
theorem test_decode_control_transfer :
    [[0b11000011#8, 0x34#8, 0x12#8], [0b11001010#8, 0x34#8, 0x12#8], [0b11101001#8], [0b00011000#8, 0xFE#8],
      [0b00110000#8, 0x10#8], [0b11001101#8, 0x34#8, 0x12#8], [0b11011100#8, 0x34#8, 0x12#8], [0b11001001#8],
      [0b11001000#8], [0b11011001#8], [0b11111111#8]].map decoded =
    [some (.jp 0x1234#16), some (.jpCc .z 0x1234#16), some .jpHl, some (.jr 0xFE#8), some (.jrCc .nc 0x10#8),
      some (.call 0x1234#16), some (.callCc .c 0x1234#16), some .ret, some (.retCc .z), some .reti,
      some (.rst 7#3)] := by decide

/-- 46_system.md; the last two bytes are an illegal opcode and the escape alone. -/
theorem test_decode_system :
    [[0b00000000#8], [0b01110110#8], [0b00010000#8, 0x00#8], [0b11110011#8], [0b11111011#8], [0xD3#8], [0xCB#8]].map
      decoded =
    [some .nop, some .halt, some (.stop 0x00#8), some .di, some .ei, some (.illegal 0xD3#8), some .prefixCb] := by decide

/-- A truncated instruction and an empty list are refused by name. -/
theorem test_truncated_is_refused :
    decode [0xC3#8, 0x34#8] = .error (.truncated 0xC3#8) ∧ decode [] = .error .empty := by decide

/-- The table's number of `bit 7, H`, 0xCB7C, is the escape followed by 0x7C. -/
theorem test_table_word_of_a_pair : decodeTableWord 16 0xCB7C = some (.bitR 7#3 .h) := by decide

/-- `ld A, $42` laid out first byte lowest. -/
theorem test_table_word_of_an_immediate : decodeTableWord 16 0x423E = some (.ldRN .a 0x42#8) := by decide

/-- `step` fetches what `withFetchWord` places (L1.5's instruction): A = 0x42 and two cycle-units. -/
theorem test_step_runs_the_placed_word :
    (match step (State.reset.withFetchWord 16 0x423E) with
      | .next t => decide (t.a = 0x42#8 ∧ t.pc = 0x0102#16 ∧ t.cycleTotal = 2)
      | _ => false) = true := by decide

/-! ### One step of each instruction -/

/-- A state after reset with these registers. -/
def cpu (a f : Byte) (bc de hl : Word) : State :=
  { State.reset with a := a, f := f, b := hiByte bc, c := loByte bc, d := hiByte de, e := loByte de, h := hiByte hl,
                     l := loByte hl }

/-- `cpu` with one byte of built-in memory. -/
def cpuMem (a f : Byte) (bc de hl addr : Word) (v : Byte) : State := (cpu a f bc de hl).write addr v

/-- What `g` reads of the state after `i`. -/
def after {α : Type} (i : Instr) (s : State) (g : State → α) : Option α :=
  match exec i s with
  | .next t => some (g t)
  | .fault _ => none
  | .refused _ => none

/-- A and F. -/
def af (t : State) : Byte × Byte := (t.a, t.f)

/-- A, F and the step's cost. -/
def afc (t : State) : Byte × Byte × Nat := (t.a, t.f, t.stepCycles)

/-- A byte of built-in memory, F and the step's cost. -/
def mfc (addr : Word) (t : State) : Byte × Byte × Nat := (t.peek addr, t.f, t.stepCycles)

/-- L2.1, L2.2 (R602 to R604): the carry-in is ignored. -/
theorem test_add :
    after (.addR .b) (cpu 0xFF 0x10 0x0000 0 0) afc = some (0xFF, 0x00, 1) ∧
    after .addHl (cpuMem 0x01 0x00 0 0 0xC000 0xC000 0x0F) afc = some (0x10, 0x20, 2) ∧
    after (.addN 0x01) (cpu 0xFF 0x00 0 0 0) afc = some (0x00, 0xB0, 2) := by decide

/-- L2.1; R606's and R607's corner: the carry-in counts in H. -/
theorem test_adc :
    after (.adcR .b) (cpu 0x0F 0x10 0x0000 0 0) afc = some (0x10, 0x20, 1) ∧
    after .adcHl (cpuMem 0xFF 0x10 0 0 0xC000 0xC000 0x00) afc = some (0x00, 0xB0, 2) ∧
    after (.adcN 0x00) (cpu 0x0F 0x10 0 0 0) afc = some (0x10, 0x20, 2) := by decide

/-- L2.1 and by hand: borrow in bit 4, none on equality. -/
theorem test_sub :
    after (.subR .b) (cpu 0x3E 0x00 0x4000 0 0) afc = some (0xFE, 0x50, 1) ∧
    after .subHl (cpuMem 0x80 0x00 0 0 0xC000 0xC000 0x80) afc = some (0x00, 0xC0, 2) ∧
    after (.subN 0x01) (cpu 0x10 0x10 0 0 0) afc = some (0x0F, 0x60, 2) := by decide

/-- L2.1, L2.2: the borrow-in counts in H and C. -/
theorem test_sbc :
    after (.sbcR .b) (cpu 0x00 0x10 0xFF00 0 0) afc = some (0x00, 0xF0, 1) ∧
    after .sbcHl (cpuMem 0x0F 0x10 0 0 0xC000 0xC000 0x00) afc = some (0x0E, 0x40, 2) ∧
    after (.sbcN 0x01) (cpu 0x00 0x10 0 0 0) afc = some (0xFE, 0x70, 2) := by decide

/-- L2.1, L2.2: AND sets H. -/
theorem test_and :
    after (.andR .b) (cpu 0x3A 0x00 0xC600 0 0) afc = some (0x02, 0x20, 1) ∧
    after .andHl (cpuMem 0x5A 0x10 0 0 0xC000 0xC000 0xA5) afc = some (0x00, 0xA0, 2) ∧
    after (.andN 0xF0) (cpu 0x0F 0x00 0 0 0) afc = some (0x00, 0xA0, 2) := by decide

/-- L2.1: XOR clears N, H and C. -/
theorem test_xor :
    after (.xorR .b) (cpu 0x3A 0x00 0xC600 0 0) afc = some (0xFC, 0x00, 1) ∧
    after .xorHl (cpuMem 0x80 0x70 0 0 0xC000 0xC000 0x80) afc = some (0x00, 0x80, 2) ∧
    after (.xorN 0x00) (cpu 0xFF 0x10 0 0 0) afc = some (0xFF, 0x00, 2) := by decide

/-- L2.1: OR clears N, H and C. -/
theorem test_or :
    after (.orR .b) (cpu 0x0F 0x10 0x0000 0 0) afc = some (0x0F, 0x00, 1) ∧
    after .orHl (cpuMem 0x3A 0x00 0 0 0xC000 0xC000 0xC6) afc = some (0xFE, 0x00, 2) ∧
    after (.orN 0x00) (cpu 0x00 0x10 0 0 0) afc = some (0x00, 0x80, 2) := by decide

/-- L2.1, L2.2: CP keeps A. -/
theorem test_cp :
    after (.cpR .b) (cpu 0x00 0x10 0xFF00 0 0) afc = some (0x00, 0x70, 1) ∧
    after .cpHl (cpuMem 0x42 0x00 0 0 0xC000 0xC000 0x42) afc = some (0x42, 0xC0, 2) ∧
    after (.cpN 0x90) (cpu 0x80 0x00 0 0 0) afc = some (0x80, 0x50, 2) := by decide

/-- L2.3 (R626 to R629): C is kept. -/
theorem test_inc_and_dec :
    after (.incR .a) (cpu 0xFF 0x00 0 0 0) afc = some (0x00, 0xA0, 1) ∧
    after (.decR .a) (cpu 0x10 0x10 0 0 0) afc = some (0x0F, 0x70, 1) ∧
    after .incHl (cpuMem 0 0x00 0 0 0xC000 0xC000 0xFF) (mfc 0xC000) = some (0x00, 0xA0, 3) ∧
    after .decHl (cpuMem 0 0x00 0 0 0xC000 0xC000 0x00) (mfc 0xC000) = some (0xFF, 0x60, 3) := by decide

/-- L2.3 (R630). -/
theorem test_daa :
    after .daa (cpu 0x9A 0x00 0 0 0) afc = some (0x00, 0x90, 1) ∧
    after .daa (cpu 0x66 0x70 0 0 0) af = some (0x00, 0xD0) := by decide

/-- L2.3 (R631 to R633): Z is kept. -/
theorem test_cpl_scf_ccf :
    after .cpl (cpu 0xFF 0x80 0 0 0) afc = some (0x00, 0xE0, 1) ∧
    after .scf (cpu 0x00 0xE0 0 0 0) afc = some (0x00, 0x90, 1) ∧
    after .ccf (cpu 0x00 0x70 0 0 0) afc = some (0x00, 0x00, 1) := by decide

/-- L2.4 (R500 to R502): the address is taken before the write. -/
theorem test_loads :
    after (.ldRR .b .c) (cpu 0 0 0x005A 0 0) (fun t => (t.b, t.stepCycles)) = some (0x5A, 1) ∧
    after (.ldRN .a 0x42) (cpu 0 0 0 0 0) afc = some (0x42, 0x00, 2) ∧
    after (.ldRHl .h) (cpuMem 0 0 0 0 0xC123 0xC123 0x99) (fun t => (t.hlPair, t.stepCycles)) = some (0x9923, 2) := by
  decide

/-- L2.4 (R503, R504): `ld [HL], H` stores a half of the address. -/
theorem test_stores :
    after (.ldHlR .h) (cpu 0 0 0 0 0xC123) (mfc 0xC123) = some (0xC1, 0x00, 2) ∧
    after (.ldHlN 0xAB) (cpu 0 0 0 0 0xC010) (mfc 0xC010) = some (0xAB, 0x00, 3) := by decide

/-- L2.4 (R505 to R508). -/
theorem test_loads_and_stores_by_pairs :
    after .ldABc (cpuMem 0 0 0xC005 0 0 0xC005 0x11) afc = some (0x11, 0x00, 2) ∧
    after .ldADe (cpuMem 0 0 0 0xC006 0 0xC006 0x12) afc = some (0x12, 0x00, 2) ∧
    after .ldBcA (cpu 0x21 0 0xC005 0 0) (mfc 0xC005) = some (0x21, 0x00, 2) ∧
    after .ldDeA (cpu 0x22 0 0 0xC006 0) (mfc 0xC006) = some (0x22, 0x00, 2) := by decide

/-- L2.4 (R509 to R514). -/
theorem test_absolute_and_high_page :
    after (.ldAA16 0xC234) (cpuMem 0 0 0 0 0 0xC234 0xAA) afc = some (0xAA, 0x00, 4) ∧
    after (.ldA16A 0xC000) (cpu 0x99 0 0 0 0) (mfc 0xC000) = some (0x99, 0x00, 4) ∧
    after (.ldhAA8 0x0F) { cpu 0 0 0 0 0 with iF := 0x01 } afc = some (0xE1, 0x00, 3) ∧
    after (.ldhA8A 0x80) (cpu 0x55 0 0 0 0) (mfc 0xFF80) = some (0x55, 0x00, 3) ∧
    after .ldhAC (cpuMem 0 0 0x0082 0 0 0xFF82 0x88) afc = some (0x88, 0x00, 2) ∧
    after .ldhCA (cpu 0x77 0 0x0081 0 0) (mfc 0xFF81) = some (0x77, 0x00, 2) := by decide

/-- L2.4 (R515 to R518): HL steps across its halves and wraps. -/
theorem test_loads_that_step_hl :
    after .ldAHli (cpu 0x01 0 0 0 0xFFFF) (fun t => (t.a, t.hlPair)) = some (0x00, 0x0000) ∧
    after .ldAHld (cpuMem 0 0 0 0 0xC100 0xC100 0x44) (fun t => (t.a, t.hlPair)) = some (0x44, 0xC0FF) ∧
    after .ldHliA (cpu 0x33 0 0 0 0xC0FF) (fun t => (t.peek 0xC0FF, t.hlPair)) = some (0x33, 0xC100) ∧
    after .ldHldA (cpu 0x34 0 0 0 0xC000) (fun t => (t.peek 0xC000, t.hlPair)) = some (0x34, 0xBFFF) := by decide

/-- L2.4 (R520 to R522). -/
theorem test_wide_loads :
    after (.ldRpN .hl 0x1234) (cpu 0 0 0 0 0) (fun t => (t.h, t.l, t.stepCycles)) = some (0x12, 0x34, 3) ∧
    after (.ldA16Sp 0xC000) (cpu 0 0 0 0 0) (fun t => (t.peek 0xC000, t.peek 0xC001, t.stepCycles)) =
      some (0xFE, 0xFF, 5) ∧
    after .ldSpHl (cpu 0 0 0 0 0xD000) (fun t => (t.sp, t.stepCycles)) = some (0xD000, 2) := by decide

/-- L2.5 (R530): the last row: 0x0000 belongs to the controller and 0xFFFF is IE. -/
theorem test_push :
    after (.push .bc) (cpu 0 0 0x1234 0 0) (fun t => (t.sp, t.peek 0xFFFD, t.peek 0xFFFC, t.stepCycles)) =
      some (0xFFFC, 0x12, 0x34, 4) ∧
    after (.push .bc) { cpu 0 0 0x1234 0 0 with sp := 0x0001 } (fun t => (t.sp, t.ie, t.rom)) =
      some (0xFFFF, 0x34, []) := by decide

/-- L2.5 (R531, R532): F's low nibble is forced 0, and SP wraps. -/
theorem test_pop :
    after .popAf { (cpuMem 0 0 0 0 0 0xFFFC 0xFF).write 0xFFFD 0x12 with sp := 0xFFFC } (fun t => (t.a, t.f, t.sp)) =
      some (0x12, 0xF0, 0xFFFE) ∧
    after (.pop .de) { cpuMem 0 0 0 0 0 0xFFFE 0x34 with ie := 0x12 } (fun t => (t.dePair, t.sp, t.stepCycles)) =
      some (0x1234, 0x0000, 3) := by decide

/-- L2.6 (R700 to R702). -/
theorem test_pair_arithmetic :
    after (.addHlRp .bc) (cpu 0 0 0x0605 0 0x8A23) (fun t => (t.hlPair, t.f, t.stepCycles)) = some (0x9028, 0x20, 2) ∧
    after (.addHlRp .de) (cpu 0 0x80 0 0x0001 0xFFFF) (fun t => (t.hlPair, t.f)) = some (0x0000, 0xB0) ∧
    after (.incRp .bc) (cpu 0 0xF0 0xFFFF 0 0) (fun t => (t.bcPair, t.f)) = some (0x0000, 0xF0) ∧
    after (.decRp .de) (cpu 0 0 0 0x0000 0) (fun t => (t.dePair, t.stepCycles)) = some (0xFFFF, 2) := by decide

/-- L2.6 (R703 to R705). -/
theorem test_sp_plus_offset :
    after (.addSpE 0xFF) { cpu 0 0 0 0 0 with sp := 0x0001 } (fun t => (t.sp, t.f, t.stepCycles)) =
      some (0x0000, 0x30, 4) ∧
    after (.addSpE 0x80) { cpu 0 0 0 0 0 with sp := 0x1234 } (fun t => (t.sp, t.f)) = some (0x11B4, 0x00) ∧
    after (.ldHlSpE 0xFF) { cpu 0 0x80 0 0 0 with sp := 0xD00F } (fun t => (t.hlPair, t.f, t.stepCycles)) =
      some (0xD00E, 0x30, 3) := by decide

/-- L2.7 (R800 to R803): Z is forced 0. -/
theorem test_accumulator_rotates :
    after .rlca (cpu 0x00 0x80 0 0 0) afc = some (0x00, 0x00, 1) ∧
    after .rrca (cpu 0x3B 0x00 0 0 0) afc = some (0x9D, 0x10, 1) ∧
    after .rla (cpu 0x95 0x10 0 0 0) afc = some (0x2B, 0x10, 1) ∧
    after .rra (cpu 0x81 0x00 0 0 0) afc = some (0x40, 0x10, 1) := by decide

/-- L2.7 (R805 to R819, registers). -/
theorem test_shifts_of_registers :
    after (.rlcR .b) (cpu 0 0 0x8500 0 0) (fun t => (t.b, t.f, t.stepCycles)) = some (0x0B, 0x10, 2) ∧
    after (.rrcR .c) (cpu 0 0 0x0001 0 0) (fun t => (t.c, t.f)) = some (0x80, 0x10) ∧
    after (.rlR .l) (cpu 0 0 0 0 0x0080) (fun t => (t.l, t.f)) = some (0x00, 0x90) ∧
    after (.rrR .a) (cpu 0x01 0 0 0 0) af = some (0x00, 0x90) ∧
    after (.slaR .d) (cpu 0 0 0 0x8000 0) (fun t => (t.d, t.f)) = some (0x00, 0x90) ∧
    after (.sraR .a) (cpu 0x8A 0 0 0 0) af = some (0xC5, 0x00) ∧
    after (.swapR .a) (cpu 0xF1 0x70 0 0 0) af = some (0x1F, 0x00) ∧
    after (.srlR .a) (cpu 0x01 0 0 0 0) af = some (0x00, 0x90) := by decide

/-- L2.7 (R806 to R820, the byte at HL) and R808's by hand. -/
theorem test_shifts_of_memory :
    after .rlcHl (cpuMem 0 0 0 0 0xC000 0xC000 0x00) (mfc 0xC000) = some (0x00, 0x80, 4) ∧
    after .rrcHl (cpuMem 0 0 0 0 0xC000 0xC000 0x01) (mfc 0xC000) = some (0x80, 0x10, 4) ∧
    after .rlHl (cpuMem 0 0 0 0 0xC000 0xC000 0x11) (mfc 0xC000) = some (0x22, 0x00, 4) ∧
    after .rrHl (cpuMem 0 0 0 0 0xC000 0xC000 0x8A) (mfc 0xC000) = some (0x45, 0x00, 4) := by decide

/-- L2.7, continued. -/
theorem test_more_shifts_of_memory :
    after .slaHl (cpuMem 0 0 0 0 0xC000 0xC000 0xFF) (mfc 0xC000) = some (0xFE, 0x10, 4) ∧
    after .sraHl (cpuMem 0 0 0 0 0xC000 0xC000 0x01) (mfc 0xC000) = some (0x00, 0x90, 4) ∧
    after .swapHl (cpuMem 0 0 0 0 0xC000 0xC000 0xF0) (mfc 0xC000) = some (0x0F, 0x00, 4) ∧
    after .srlHl (cpuMem 0 0 0 0 0xC000 0xC000 0xFF) (mfc 0xC000) = some (0x7F, 0x10, 4) := by decide

/-- L2.7 (R821 to R826). -/
theorem test_bit_res_set :
    after (.bitR 4#3 .l) (cpu 0 0x10 0 0 0x00EF) afc = some (0x00, 0xB0, 2) ∧
    after (.bitHl 1#3) (cpuMem 0 0 0 0 0xC000 0xC000 0xFE) (mfc 0xC000) = some (0xFE, 0x20, 3) ∧
    after (.resR 7#3 .a) (cpu 0x80 0xF0 0 0 0) afc = some (0x00, 0xF0, 2) ∧
    after (.resHl 1#3) (cpuMem 0 0 0 0 0xC000 0xC000 0xFF) (mfc 0xC000) = some (0xFD, 0x00, 4) ∧
    after (.setR 3#3 .a) (cpu 0x80 0 0 0 0) afc = some (0x88, 0x00, 2) ∧
    after (.setHl 3#3) (cpuMem 0 0 0 0 0xC000 0xC000 0x00) (mfc 0xC000) = some (0x08, 0x00, 4) := by decide

/-- PC and cost. -/
def pcc (t : State) : Word × Nat := (t.pc, t.stepCycles)

/-- L2.8 (R901 to R905); PC is already past the instruction when it runs. -/
theorem test_jumps :
    after (.jp 0x1234) (cpu 0 0 0 0 0) pcc = some (0x1234, 4) ∧
    after (.jpCc .z 0x1234) { cpu 0 0 0 0 0 with pc := 0x0103 } pcc = some (0x0103, 3) ∧
    after .jpHl (cpu 0 0 0 0 0xC000) pcc = some (0xC000, 1) ∧
    after (.jr 0x80) { cpu 0 0 0 0 0 with pc := 0x0102 } pcc = some (0x0082, 3) ∧
    after (.jrCc .nc 0x10) { cpu 0 0 0 0 0 with pc := 0x0102 } pcc = some (0x0112, 3) ∧
    after (.jrCc .c 0x10) { cpu 0 0 0 0 0 with pc := 0x0102 } pcc = some (0x0102, 2) := by decide

/-- L2.8 (R906, R907, R911). -/
theorem test_calls :
    after (.call 0x1234) { cpu 0 0 0 0 0 with pc := 0x0103 }
      (fun t => (t.sp, t.peek 0xFFFD, t.peek 0xFFFC, t.pc, t.stepCycles)) = some (0xFFFC, 0x01, 0x03, 0x1234, 6) ∧
    after (.callCc .nc 0x1234) { cpu 0 0x10 0 0 0 with pc := 0x0103 } (fun t => (t.sp, t.pc, t.stepCycles)) =
      some (0xFFFE, 0x0103, 3) ∧
    after (.rst 7#3) { cpu 0 0 0 0 0 with pc := 0x0101 } (fun t => (t.peek 0xFFFC, t.pc, t.stepCycles)) =
      some (0x01, 0x0038, 4) := by decide

/-- `cpu` about to return to 0x8003 from the stack at 0xDFFC (L2.8). -/
def returning (f : Byte) : State := { (cpuMem 0 f 0 0 0 0xDFFC 0x03).write 0xDFFD 0x80 with sp := 0xDFFC, pc := 0x0101 }

/-- L2.8 (R908 to R910). -/
theorem test_returns :
    after .ret (returning 0x00) (fun t => (t.pc, t.sp, t.ime, t.stepCycles)) = some (0x8003, 0xDFFE, false, 4) ∧
    after (.retCc .z) (returning 0x80) (fun t => (t.pc, t.sp, t.stepCycles)) = some (0x8003, 0xDFFE, 5) ∧
    after (.retCc .nz) (returning 0x80) (fun t => (t.pc, t.sp, t.stepCycles)) = some (0x0101, 0xDFFC, 2) ∧
    after .reti (returning 0x00) (fun t => (t.pc, t.sp, t.ime)) = some (0x8003, 0xDFFE, true) := by decide

/-- L2.9 (R1000, R1003, R1004). -/
theorem test_nop_di_ei :
    after .nop (cpu 0 0xF0 0 0 0) (fun t => (t.f, t.pc, t.stepCycles)) = some (0xF0, 0x0100, 1) ∧
    after .di { cpu 0 0 0 0 0 with ime := true, imeDelay := true } (fun t => (t.ime, t.imeDelay)) =
      some (false, false) ∧
    after .ei (cpu 0 0 0 0 0) (fun t => (t.ime, t.imeDelay, t.stepCycles)) = some (false, true, 1) := by decide

/-- L2.9 (R1001, R1002): with a request pending the halt bug, with none the halted state. -/
theorem test_halt_and_stop :
    after .halt { cpu 0 0 0 0 0 with ie := 0x01, iF := 0x01 } (fun t => (t.haltState, t.haltBugPending)) =
      some (.running, true) ∧
    after .halt { cpu 0 0 0 0 0 with ie := 0x01 } (fun t => (t.haltState, t.haltBugPending)) = some (.halted, false) ∧
    after (.stop 0x3C) (cpu 0 0 0 0 0) (fun t => (t.haltState, t.stepCycles)) = some (.stopped, 1) := by decide

/-- L2.9 (R1006), R1005: an illegal opcode; the escape alone takes 0x37 at PC as its second byte (`swap A`). -/
theorem test_illegal_and_escape :
    after (.illegal 0xD3) { cpu 0 0 0 0 0 with start := 0x0100, pc := 0x0101 }
      (fun t => (t.haltState, t.pc, t.cycleTotal)) = some (.faulted 0xD3 0x0100, 0x0101, 0) ∧
    after .prefixCb { cpuMem 0xF1 0x70 0 0 0 0xC000 0x37 with pc := 0xC000 } (fun t => (t.a, t.f, t.pc, t.stepCycles)) =
      some (0x1F, 0x00, 0xC001, 2) := by decide

/-- The end of a step, if it answers a next state. -/
def stepped {α : Type} (s : State) (g : State → α) : Option α :=
  match step s with
  | .next t => some (g t)
  | .fault _ => none
  | .refused _ => none

/-- L2.9: the priority row: kind 1 of IF = 0x06, and IE's bits 7:5 count for nothing. -/
theorem test_dispatch :
    stepped { cpu 0 0 0 0 0 with pc := 0x0200, sp := 0xD000, ime := true, ie := 0x1F, iF := 0x06 }
      (fun t => (t.pc, t.iF, t.peek 0xCFFF, t.peek 0xCFFE, t.sp, t.stepCycles)) =
      some (0x0048, 0x04, 0x02, 0x00, 0xCFFE, 5) ∧
    State.pending { cpu 0 0 0 0 0 with ie := 0xE0, iF := 0x1F } = 0 := by decide

/-- L2.9, step 2 of the halt bug on CB: `CB CB` is `set 1, E`, with PC one further. -/
theorem test_halt_bug_on_the_escape :
    stepped { cpuMem 0 0 0 0 0 0xC000 0xCB with pc := 0xC000, haltBugPending := true }
      (fun t => (t.e, t.pc, t.haltBugPending)) = some (0x02, 0xC001, false) := by decide

/-- L2.9, step 2 of the EI delay: `ime` becomes 1, then the NOP runs though a request is pending. -/
theorem test_ei_delay :
    stepped { cpuMem 0 0 0 0 0 0xC000 0x00 with pc := 0xC000, imeDelay := true, ie := 0x01, iF := 0x01 }
      (fun t => (t.ime, t.imeDelay, t.pc, t.stepCycles)) = some (true, false, 0xC001, 1) := by decide

/-- R1200, R1202: a reset event of a halted CPU leaves the post-boot values; the next step fetches at 0x0100 in the kept ROM. -/
theorem test_reset_event :
    let s : State := { cpu 0xFF 0x10 0 0 0 with
      haltState := .halted, ie := 0x1F, mem := [(0xC000, 0x77#8)], rom := [(0x0100, 0x3C#8)], cycleTotal := 9,
      env := [⟨[.timer], [], false, some ⟨.postBootDefaults, [], [(5, 0x09#8)]⟩⟩] }
    stepped s (fun t => (t.a, t.pc, t.iF, t.ie, t.haltState)) = some (0x01, 0x0100, 0x00, 0x00, .running) ∧
    stepped s (fun t => (t.mem.length, t.env.length, t.cycleTotal, t.fetchByte)) = some (0, 0, 0, 0x3C) ∧
    stepped s (fun t => t.xram) = some [(5, 0x09#8)] := by decide

/-! ### Witnesses: for every statement with hypotheses, states and operands that meet them, at the boundaries of each clause -/

theorem exists_next_of_stepped {α : Type} {s : State} {g : State → α} {x : α} (h : stepped s g = some x) :
    ∃ t, step s = .next t ∧ g t = x := by
  unfold stepped at h
  cases hs : step s with
  | next t =>
    rw [hs] at h
    exact ⟨t, rfl, Option.some.inj h⟩
  | fault _ => rw [hs] at h; exact absurd h (by simp)
  | refused _ => rw [hs] at h; exact absurd h (by simp)

theorem exists_next_of_after {α : Type} {i : Instr} {s : State} {g : State → α} {x : α} (h : after i s g = some x) :
    ∃ t, exec i s = .next t ∧ g t = x := by
  unfold after at h
  cases hs : exec i s with
  | next t =>
    rw [hs] at h
    exact ⟨t, rfl, Option.some.inj h⟩
  | fault _ => rw [hs] at h; exact absurd h (by simp)
  | refused _ => rw [hs] at h; exact absurd h (by simp)

/-- A state whose next three bytes to fetch, in work RAM, are these. -/
def fetching (b0 b1 b2 : Byte) : State :=
  { (((cpu 0 0 0 0 0).write 0xC000 b0).write 0xC001 b1).write 0xC002 b2 with pc := 0xC000 }

/-- The host's move that is a reset event. -/
def resetMove (mode : BootMode) (rom : Memory) : EnvMove := ⟨[], [], false, some ⟨mode, rom, []⟩⟩

/-- DecodingAnEncodedInstructionGivesItBack, EveryInstruction… and the other statements about well-formed instructions. -/
theorem test_witness_well_formed :
    (Instr.ldRR .a .b).wellFormed = true ∧ (Instr.jp 0xFFFF).wellFormed = true ∧ (Instr.setR 7#3 .a).wellFormed = true ∧
    (Instr.illegal 0xFD).wellFormed = true := by decide

/-- EncodingADecodedInstructionGivesItsBytesBack. -/
theorem test_witness_decode :
    decode [0x08#8, 0x00#8, 0xC0#8, 0x77#8] = .ok (.ldA16Sp 0xC000, [0x77#8]) ∧
    decode [0xCB#8] = .ok (.prefixCb, []) := by decide

/-- TheElevenOpcodesAndNoOthersAreIllegal: an illegal opcode with and without bytes after it, and a legal one. -/
theorem test_witness_illegal_decode :
    decode [0xFD#8] = .ok (.illegal 0xFD, []) ∧ decode [0xD3#8, 0x00#8] = .ok (.illegal 0xD3, [0x00#8]) ∧
    decode [0x00#8] = .ok (.nop, []) := by decide

/-- AStepRunsTheDecodedInstruction: interrupts off with a request pending, and on with none. -/
theorem test_witness_running_step :
    (let s : State := { fetching 0x3E 0x42 0x00 with ie := 0x01, iF := 0x01 }
     let u := s.envStep
     s.resetDue = none ∧ u.haltState = .running ∧ u.ime = false ∧ u.pending ≠ 0 ∧ u.haltBugPending = false ∧
      decode (bytesAtPc u) = .ok (.ldRN .a 0x42, [0x00#8])) ∧
    (let s : State := { fetching 0xCD 0x34 0x12 with ime := true, env := [⟨[], [], false, none⟩] }
     let u := s.envStep
     s.resetDue = none ∧ u.haltState = .running ∧ u.pending = 0 ∧ u.haltBugPending = false ∧
      decode (bytesAtPc u) = .ok (.call 0x1234, [])) := by decide

/-- TheHaltBugRepeatsTheOpcodeByte: a one-byte, a two-byte and a three-byte instruction. -/
theorem test_witness_halt_bug_step :
    (let s : State := { fetching 0x3C 0x00 0x00 with haltBugPending := true }
     let u := s.envStep
     s.resetDue = none ∧ u.haltState = .running ∧ u.ime = false ∧ u.haltBugPending = true ∧
      decode (bytesAtPcRepeated u) = .ok (.incR .a, [0x3C#8, 0x00#8])) ∧
    (let s : State := { fetching 0xCB 0x37 0x00 with haltBugPending := true }
     let u := s.envStep
     s.resetDue = none ∧ u.haltState = .running ∧ u.ime = false ∧ u.haltBugPending = true ∧
      decode (bytesAtPcRepeated u) = .ok (.setR 1#3 .e, [0x37#8])) ∧
    (let s : State := { fetching 0xC3 0x37 0x00 with haltBugPending := true }
     let u := s.envStep
     s.resetDue = none ∧ u.haltState = .running ∧ u.ime = false ∧ u.haltBugPending = true ∧
      decode (bytesAtPcRepeated u) = .ok (.jp 0x37C3, [])) := by decide

/-- AHaltedCpuIdlesUntilARequestIsPending: both clauses, the second by the environment's request. -/
theorem test_witness_halted :
    (let s : State := { fetching 0x3C 0x00 0x00 with haltState := .halted, ie := 0xFF }
     let u := s.envStep
     s.resetDue = none ∧ u.haltState = .halted ∧ u.pending = 0) ∧
    (let s : State := { fetching 0x3C 0x00 0x00 with
                          haltState := .halted, ie := 0x10, env := [⟨[.joypad], [], false, none⟩] }
     let u := s.envStep
     s.resetDue = none ∧ u.haltState = .halted ∧ u.pending ≠ 0) := by decide

/-- AStoppedCpuWaitsForStopWake: both clauses. -/
theorem test_witness_stopped :
    (let s : State := { fetching 0x3C 0x00 0x00 with haltState := .stopped }
     s.resetDue = none ∧ s.haltState = .stopped ∧ s.stopWake = false) ∧
    (let s : State := { fetching 0x3C 0x00 0x00 with haltState := .stopped, env := [⟨[], [], true, none⟩] }
     s.resetDue = none ∧ s.haltState = .stopped ∧ s.stopWake = true) := by decide

/-- AFaultedCpuHasNoStep: with and without a reset event as the host's next move. -/
theorem test_witness_faulted :
    ({ fetching 0 0 0 with haltState := .faulted 0xD3 0x0100 } : State).haltState = .faulted 0xD3 0x0100 ∧
    ({ fetching 0 0 0 with haltState := .faulted 0xD3 0x0100, env := [resetMove .bootRom []] } : State).haltState =
      .faulted 0xD3 0x0100 := by decide

/-- TheHighestPriorityIsTheLowestPendingBit: nothing pending, the first and the last kind, and a kind above another. -/
theorem test_witness_priority :
    State.highestPriority { fetching 0 0 0 with ie := 0x00, iF := 0x1F } = none ∧
    State.highestPriority { fetching 0 0 0 with ie := 0x1F, iF := 0x1F } = some .vblank ∧
    State.highestPriority { fetching 0 0 0 with ie := 0x1F, iF := 0x06 } = some .lcdStat ∧
    State.highestPriority { fetching 0 0 0 with ie := 0x1F, iF := 0x10 } = some .joypad := by decide

/-- DispatchPushesPcAndGoesToTheVector: the first and the last kind; a plain stack, a byte that both writes miss, and a stack
at the bottom of the address space. -/
theorem test_witness_dispatch :
    (let s : State := { fetching 0 0 0 with ime := true, ie := 0x1F, iF := 0x1F }
     let u := s.envStep
     s.resetDue = none ∧ u.haltState = .running ∧ u.ime = true ∧ u.pending.getLsbD Interrupt.vblank.bit = true ∧
      (region (u.sp - 1#16)).plain = true ∧ (region (u.sp - 2#16)).plain = true ∧
      writeReaches (u.sp - 1#16) 0xC000 = false ∧ writeReaches (u.sp - 2#16) 0xC000 = false) ∧
    (let s : State := { fetching 0 0 0 with ime := true, ie := 0x10, iF := 0x10, sp := 0x0001 }
     let u := s.envStep
     s.resetDue = none ∧ u.haltState = .running ∧ u.ime = true ∧ u.pending.getLsbD Interrupt.joypad.bit = true ∧
      (∀ j ∈ [Interrupt.vblank, .lcdStat, .timer, .serial], u.pending.getLsbD j.bit = false) ∧
      (region (u.sp - 1#16)).plain = false) := by decide

/-- EnvironmentMovesTouchOnlyIfAndIoCells: a request and no other; a cell given two values, the last one with no later value
for it, and a cell given none; addresses on both sides of the I/O page, and the ends of the cells. -/
theorem test_witness_environment :
    (let m : EnvMove := ⟨[.timer], [(0xFF41, 0x80#8), (0xC000, 0x01#8), (0xFF41, 0x81#8)], false, none⟩
     let t := State.applyMove { cpu 0 0 0 0 0 with iF := 0x01 } m
     t.iF = 0x05 ∧ t.peek 0xFF41 = 0x81 ∧ t.mem = [(0xFF41, 0x81#8)] ∧
     m.io = [(0xFF41, 0x80#8), (0xC000, 0x01#8)] ++ (0xFF41, 0x81#8) :: [] ∧ 0xFF42 ∉ m.io.map Prod.fst) ∧
    region 0xFE9F ≠ .io ∧ region 0xFF80 ≠ .io ∧ region 0xFFFF ≠ .io := by decide

/-- CellAddr, of the statements on I/O cells: its ends, the four addresses it leaves out, and a neighbour of each. -/
theorem test_witness_cells :
    [0xFF01#16, 0xFF0E#16, 0xFF10#16, 0xFF45#16, 0xFF47#16, 0xFF4F#16, 0xFF51#16, 0xFF7F#16].all
      (fun a => decide (CellAddr a)) = true ∧
    [0xFEFF#16, 0xFF00#16, 0xFF0F#16, 0xFF46#16, 0xFF50#16, 0xFF80#16].any (fun a => decide (CellAddr a)) = false := by
  decide

/-- ResetSatisfiesTheInvariant: a reset event due in a running, a halted and a stopped CPU, and none in a faulted one. -/
theorem test_witness_reset_event :
    let s : State := { fetching 0 0 0 with env := [resetMove .postBootDefaults []] }
    s.resetDue = some ⟨.postBootDefaults, [], []⟩ ∧
    ({ s with haltState := .halted } : State).resetDue = some ⟨.postBootDefaults, [], []⟩ ∧
    ({ s with haltState := .stopped, env := [resetMove .bootRom [(0, 0x31#8)]] } : State).resetDue =
      some ⟨.bootRom, [(0, 0x31#8)], []⟩ ∧
    ({ s with haltState := .faulted 0xD3 0x0100 } : State).resetDue = none := by decide

/-- ResetLeavesTheSpecsValues and ResetSatisfiesTheInvariant: both boot modes; a boot ROM in canonical form. -/
theorem test_witness_reset :
    Params.default.bootMode = .postBootDefaults ∧
    ({ Params.default with bootMode := .bootRom } : Params).bootMode = .bootRom ∧
    memRising ({ Params.default with bootRom := [(0, 0x31#8), (255, 0x50#8)] } : Params).bootRom = true := by decide

/-- A state with the invariant: memory listed, and a halt bug pending. -/
theorem test_witness_invariant : ({ fetching 0x3C 0x00 0x00 with haltBugPending := true } : State).Inv where
  memWf := by decide
  romRising := by decide
  xramRising := by decide
  bootRomRising := by decide
  flagsLow := by decide
  haltedNoDelay := by decide
  stoppedNoDelay := by decide
  bugNeedsParam := by decide
  bugIsRunning := by decide
  envRising := by decide

/-- EveryStepKeepsTheInvariant: that state steps, and a reset event with a boot ROM in canonical form is a step. -/
theorem test_witness_invariant_step :
    (∃ t, step { fetching 0x3C 0x00 0x00 with haltBugPending := true } = .next t ∧ t.a = 0x01) ∧
    (EnvMove.rising (resetMove .bootRom [(0, 0x31#8), (255, 0x50#8)]) = true ∧
      EnvMove.rising (resetMove .bootRom [(1, 0x31#8), (0, 0x50#8)]) = false) ∧
    ∃ t, step { fetching 0 0 0 with env := [resetMove .bootRom [(0, 0x31#8)]] } = .next t ∧ t.pc = 0x0000 :=
  ⟨exists_next_of_stepped (by decide), by decide, exists_next_of_stepped (by decide)⟩

/-- The ends of the plain partitions, and the bytes on their other side, in the model's words and in the spec's numbers. -/
theorem test_witness_plain :
    [0x8000#16, 0x9FFF#16, 0xC000#16, 0xDFFF#16, 0xE000#16, 0xFDFF#16, 0xFE00#16, 0xFE9F#16, 0xFF80#16,
      0xFFFE#16].all (fun a => (region a).plain && decide (PlainAddr a)) = true ∧
    [0x0000#16, 0x7FFF#16, 0xA000#16, 0xBFFF#16, 0xFEA0#16, 0xFEFF#16, 0xFF00#16, 0xFF7F#16, 0xFFFF#16].any
      (fun a => (region a).plain || decide (PlainAddr a)) = false := by decide

/-- PlainMemoryReadsBackAndEchoIsWorkRam: the ends of echo RAM and of external RAM. -/
theorem test_witness_echo :
    0xE000 ≤ (0xE000#16).toNat ∧ (0xE000#16).toNat < 0xFE00 ∧ 0xE000 ≤ (0xFDFF#16).toNat ∧
    (0xFDFF#16).toNat < 0xFE00 ∧ 0xA000 ≤ (0xA000#16).toNat ∧ (0xBFFF#16).toNat ≤ 0xBFFF := by decide

/-- Writes to external RAM and to an I/O cell that the bus answers: the owner's byte is stored, the answer is used up. -/
theorem test_answered_writes :
    (let s : State := { cpu 0 0 0 0 0 with ramAnswers := [some (3, 0x0A#8), none] }
     ramStored s 0xA003 0xFA = some (3, 0x0A#8) ∧ (s.write 0xA003 0xFA).xram = [(3, 0x0A#8)] ∧
     ramStored (s.write 0xA003 0xFA) 0xA003 0xFB = none ∧
     ((s.write 0xA003 0xFA).write 0xA003 0xFB).xram = [(3, 0x0A#8)] ∧
     ((s.write 0xA003 0xFA).write 0xA003 0xFB).ramAnswers = []) ∧
    (let s : State := { cpu 0 0 0 0 0 with ioAnswers := [0x00#8] }
     (s.write 0xFF04 0x55).peek 0xFF04 = 0x00 ∧ ((s.write 0xFF04 0x55).write 0xFF05 0x55).peek 0xFF05 = 0x55) := by
  decide

/-- AWriteReachesOnlyItsOwnBytes: bytes inside and just outside the reach of a write, one per partition. -/
theorem test_witness_reach :
    writeReaches 0x0000 0x4000 = true ∧ writeReaches 0x0000 0x3FFF = false ∧ writeReaches 0x7FFF 0xBFFF = true ∧
    writeReaches 0xA000 0xBFFF = true ∧ writeReaches 0xBFFF 0x4000 = true ∧ writeReaches 0xA000 0x9FFF = false ∧
    writeReaches 0xC000 0xE000 = true ∧ writeReaches 0xC000 0xC001 = false ∧ writeReaches 0xDE00 0xFE00 = false ∧
    writeReaches 0xFF46 0xFE9F = true ∧ writeReaches 0xFF46 0xFEA0 = false ∧ writeReaches 0xFF50 0x00FF = true ∧
    writeReaches 0xFF50 0x0100 = false ∧ writeReaches 0xFEA0 0xFEA0 = false ∧ writeReaches 0xFFFF 0xFFFE = false := by
  decide

/-- ADmaWriteCopiesAPageIntoOam: the ends of the page and of the copy. -/
theorem test_witness_dma :
    (0x00#8).toNat < 0xFE ∧ (0xFD#8).toNat < 0xFE ∧ 0 < 160 ∧ 159 < 160 ∧ region 0xFEA0 ≠ .oam ∧ region 0xFDFF ≠ .oam := by
  decide

/-- TheBootOverlayAndItsUnmapping: the ends of the overlay, mapped and unmapped, and of the ROM windows past it. -/
theorem test_witness_overlay :
    (0x0000#16).toNat < 0x100 ∧ (0x00FF#16).toNat < 0x100 ∧ (cpu 0 0 0 0 0).bootMapped = false ∧
    ({ cpu 0 0 0 0 0 with bootMapped := true } : State).bootMapped = true ∧
    0x100 ≤ (0x0100#16).toNat ∧ (0x3FFF#16).toNat < 0x4000 ∧ 0x4000 ≤ (0x4000#16).toNat ∧
    (0x7FFF#16).toNat < 0x8000 ∧ (cpu 0 0 0 0 0).params.cartridge = .readOnly := by decide

/-- NoStepWritesRomOrMapsTheOverlayAgain: a step that writes below 0x8000, one that unmaps the overlay, and the reset event
that maps it again. -/
theorem test_witness_rom_step :
    (∃ t, step { fetching 0xEA 0x00 0x20 with a := 0x01 } = .next t ∧ t.bootMapped = false) ∧
    (∃ t, step { fetching 0xE0 0x50 0x00 with bootMapped := true } = .next t ∧ t.bootMapped = false) ∧
    ∃ t, step { fetching 0 0 0 with env := [resetMove .bootRom []] } = .next t ∧ t.bootMapped = true :=
  ⟨exists_next_of_stepped (by decide), exists_next_of_stepped (by decide), exists_next_of_stepped (by decide)⟩

/-- StoreOfSpWritesTheLowByteFirst: two plain bytes, and an address whose second byte is 0x0000. -/
theorem test_witness_store_of_sp :
    (region 0xFE9E).plain = true ∧ (region (0xFE9E + 1#16)).plain = true ∧ (region 0xFFFF).plain = false ∧
    region (0xFFFF + 1#16) = .rom0 ∧ writeReaches 0xC000 0xC002 = false ∧ writeReaches (0xC000 + 1#16) 0xC002 = false := by
  decide

/-- PushThenPopMovesAPair: a plain stack, and a push and a pop that answer. -/
theorem test_witness_push_pop :
    (region ((cpu 0 0 0x1234 0 0).sp - 1#16)).plain = true ∧ (region ((cpu 0 0 0x1234 0 0).sp - 2#16)).plain = true ∧
    (∃ t, exec (.push .bc) (cpu 0 0 0x1234 0 0) = .next t ∧ t.sp = 0xFFFC) ∧
    ∃ u, exec (.pop .de) { ((cpu 0 0 0 0 0).write 0xFFFD 0x12).write 0xFFFC 0x34 with sp := 0xFFFC } = .next u ∧
      u.dePair = 0x1234 :=
  ⟨by decide, by decide, exists_next_of_after (by decide), exists_next_of_after (by decide)⟩

/-- AccumulatorRotates and the secondary rotates: the operand as a number, at 0, at the top bit and at 255. -/
theorem test_witness_rotates :
    0 = (cpu 0x00 0 0 0 0).a.toNat ∧ 128 = ((cpu 0 0 0x8000 0 0).getR8 .b).toNat ∧
    255 = ((cpuMem 0 0 0 0 0xC000 0xC000 0xFF).peek (cpuMem 0 0 0 0 0xC000 0xC000 0xFF).hlPair).toNat := by decide

/-- JumpsGoWhereTheirRuleSays, CallsPushTheReturnAddress, ReturnsPopPc: each condition held and not held. -/
theorem test_witness_conditions :
    holds (cpu 0 0x00 0 0 0) .nz = true ∧ holds (cpu 0 0x80 0 0 0) .nz = false ∧
    holds (cpu 0 0x80 0 0 0) .z = true ∧ holds (cpu 0 0x00 0 0 0) .z = false ∧
    holds (cpu 0 0x00 0 0 0) .nc = true ∧ holds (cpu 0 0x10 0 0 0) .nc = false ∧
    holds (cpu 0 0x10 0 0 0) .c = true ∧ holds (cpu 0 0x00 0 0 0) .c = false := by decide

/-- HaltHaltsOrMarksTheBug: the bug's conditions, and each of them failing. -/
theorem test_witness_halt :
    (let s : State := { cpu 0 0 0 0 0 with ie := 0x01, iF := 0x01 }
     s.params.haltBug = true ∧ s.ime = false ∧ s.pending ≠ 0) ∧
    ({ cpu 0 0 0 0 0 with params := { Params.default with haltBug := false } } : State).params.haltBug = false ∧
    ({ cpu 0 0 0 0 0 with ime := true } : State).ime = true ∧ (cpu 0 0 0 0 0).pending = 0 := by decide

/-- AnIllegalOpcodeLeavesTheFaultedState: an illegal byte at PC. -/
theorem test_witness_illegal_step :
    (let u := (fetching 0xED 0 0).envStep
     (fetching 0xED 0 0).resetDue = none ∧ u.haltState = .running ∧ u.ime = false ∧ u.haltBugPending = false ∧ u.peek u.pc = 0xED) ∧
    illegalByte 0xED := by
  refine ⟨by decide, ?_⟩
  unfold illegalByte
  decide

/-- EveryInstructionObeysItsFlagPattern and EveryInstructionCostsWhatTheTableSays: both costs of a conditional jump, and an
instruction with every kind of flag entry. -/
theorem test_witness_costs :
    (∃ t, exec (.jrCc .c 0x10) (cpu 0 0x10 0 0 0) = .next t ∧ t.cycleTotal = 3) ∧
    (∃ t, exec (.jrCc .c 0x10) (cpu 0 0x00 0 0 0) = .next t ∧ t.cycleTotal = 2) ∧
    (∃ t, exec (.bitR 7#3 .a) (cpu 0 0x50 0 0 0) = .next t ∧ t.f = 0xB0) ∧
    ∃ t, exec (.illegal 0xD3) (cpu 0 0x50 0 0 0) = .next t ∧ t.cycleTotal = 0 :=
  ⟨exists_next_of_after (by decide), exists_next_of_after (by decide), exists_next_of_after (by decide),
    exists_next_of_after (by decide)⟩

/-- OnlyStoringInstructionsChangeMemory and OnlyTheirWritersChangeControlState: instructions outside each list. -/
theorem test_witness_writers :
    Part.memory ∉ writes (.bitHl 0#3) ∧ Part.sp ∉ writes (.jp 0x1234) ∧ Part.pc ∉ writes (.push .bc) ∧
    Part.ime ∉ writes .ei ∧ Part.imeDelay ∉ writes .reti ∧ Part.haltState ∉ writes .di ∧
    Part.haltBug ∉ writes (.stop 0x00) := by decide

/-- OnlyDispatchAndStoresClearARequest: a dispatch, a store to IF and a reset event that clear bit 0. -/
theorem test_witness_request_cleared :
    (∃ t, step { fetching 0 0 0 with ime := true, ie := 0x01, iF := 0x01 } = .next t ∧
      t.iF.getLsbD Interrupt.vblank.bit = false) ∧
    (∃ t, step { fetching 0xE0 0x0F 0x00 with iF := 0x01 } = .next t ∧ t.iF.getLsbD Interrupt.vblank.bit = false) ∧
    ∃ t, step { fetching 0 0 0 with iF := 0x01, env := [resetMove .postBootDefaults []] } = .next t ∧
      t.iF.getLsbD Interrupt.vblank.bit = false :=
  ⟨exists_next_of_stepped (by decide), exists_next_of_stepped (by decide), exists_next_of_stepped (by decide)⟩

end Sys2Proof.Tests
end

section
/-! SUPPORT. What an instruction can do, said once: it answers a next state built of the shared operations, and beside the
general registers and F those write only the parts that `Claims.writes` lists for it. -/

namespace Sys2Proof.Machine

open Sys2Proof Sys2Proof.Claims

/-- `exec` answers one state, so what holds of the state it answers holds of the state at hand. -/
theorem Answers.of_next {i : Instr} {s t : State} {P : State → Prop} (h : Answers i s P) (ht : exec i s = .next t) :
    P t := by
  obtain ⟨u, hu, hP⟩ := h
  obtain rfl : u = t := Host.Outcome.next.inj (hu.symm.trans ht)
  exact hP

/-- `P` survives the operations every instruction may use, and writes of the parts `ps`. -/
structure PreservedBy (ps : List Part) (P : State → Prop) : Prop where
  tick : ∀ {s : State}, P s → P s.tick
  charge : ∀ {s : State} (n : Nat), P s → P (s.charge n)
  setF : ∀ {s : State} (v : Byte), P s → P (s.setF v)
  setR8 : ∀ {s : State} (r : Reg8) (v : Byte), P s → P (s.setR8 r v)
  memory : .memory ∈ ps → ∀ {s : State} (addr : Word) (v : Byte), P s → P (s.write addr v)
  sp : .sp ∈ ps → ∀ {s : State} (v : Word), P s → P { s with sp := v }
  pc : .pc ∈ ps → ∀ {s : State} (v : Word), P s → P { s with pc := v }
  ime : .ime ∈ ps → ∀ {s : State} (v : Bool), P s → P { s with ime := v }
  imeDelay : .imeDelay ∈ ps → ∀ {s : State} (v : Bool), P s → P { s with imeDelay := v }
  haltState : .haltState ∈ ps → ∀ {s : State} (v : HaltState), P s → P { s with haltState := v }
  haltBug : .haltBug ∈ ps → ∀ {s : State} (v : Bool), P s → P { s with haltBugPending := v }

namespace PreservedBy

variable {ps : List Part} {P : State → Prop} {s : State}

theorem setAF (hP : PreservedBy ps P) (r : Byte × Byte) (h : P s) : P (s.setAF r) := hP.setR8 .a _ (hP.setF _ h)

theorem setHl (hP : PreservedBy ps P) (v : Word) (h : P s) : P (s.setHl v) :=
  hP.setR8 .l (loByte v) (hP.setR8 .h (hiByte v) h)

theorem setAf (hP : PreservedBy ps P) (v : Word) (h : P s) : P (s.setAf v) := hP.setR8 .a _ (hP.setF _ h)

theorem setPair (hP : PreservedBy ps P) (rr : Pair) (v : Word) (h : P s) : P (s.setPair rr v) := by
  cases rr
  case bc => exact hP.setR8 .c (loByte v) (hP.setR8 .b (hiByte v) h)
  case de => exact hP.setR8 .e (loByte v) (hP.setR8 .d (hiByte v) h)
  case hl => exact hP.setHl v h

theorem setRp {rr : Rp} (hP : PreservedBy (rpParts rr) P) (v : Word) (h : P s) : P (s.setRp rr v) := by
  cases rr
  case bc => exact hP.setR8 .c (loByte v) (hP.setR8 .b (hiByte v) h)
  case de => exact hP.setR8 .e (loByte v) (hP.setR8 .d (hiByte v) h)
  case hl => exact hP.setHl v h
  case sp => exact hP.sp (by simp [rpParts]) v h

theorem popped (hP : PreservedBy ps P) (hsp : .sp ∈ ps) (h : P s) : P s.popped := hP.sp hsp _ (hP.tick (hP.tick h))

theorem return16 (hP : PreservedBy ps P) (hsp : .sp ∈ ps) (hpc : .pc ∈ ps) (h : P s) : P s.return16 :=
  hP.pc hpc _ (hP.popped hsp h)

theorem push16 (hP : PreservedBy ps P) (hsp : .sp ∈ ps) (hm : .memory ∈ ps) (v : Word) (h : P s) : P (s.push16 v) :=
  hP.memory hm _ _ (hP.sp hsp _ (hP.memory hm _ _ (hP.sp hsp _ h)))

theorem callTo (hP : PreservedBy ps P) (hsp : .sp ∈ ps) (hpc : .pc ∈ ps) (hm : .memory ∈ ps) (target : Word)
    (h : P s) : P (s.callTo target) :=
  hP.pc hpc _ (hP.push16 hsp hm _ h)

theorem accRotate (hP : PreservedBy ps P) (r : Byte × Bool) (h : P s) : P (s.accRotate r) :=
  hP.charge _ (hP.setAF _ h)

theorem shiftReg (hP : PreservedBy ps P) (dst : Reg8) (r : Byte × Bool) (h : P s) : P (s.shiftReg dst r) :=
  hP.charge _ (hP.setF _ (hP.setR8 _ _ h))

theorem shiftHl (hP : PreservedBy ps P) (hm : .memory ∈ ps) (r : Byte × Bool) (h : P s) : P (s.shiftHl r) :=
  hP.charge _ (hP.setF _ (hP.memory hm _ _ (hP.tick h)))

end PreservedBy

/-- What survives the operations of an instruction and the writes its row of `writes` allows holds after it. -/
theorem exec_preserves {i : Instr} {s : State} {P : State → Prop} (hi : i ≠ .prefixCb)
    (hP : PreservedBy (writes i) P) (h : P s) : Answers i s P := by
  cases i
  case prefixCb => exact absurd rfl hi
  -- registers and F from registers and immediates
  case nop => exact ⟨_, rfl, hP.charge _ h⟩
  case ldRR | ldRN | resR | setR => exact ⟨_, rfl, hP.charge _ (hP.setR8 _ _ h)⟩
  case addR | addN | adcR | adcN | subR | subN | sbcR | sbcN | andR | andN | xorR | xorN | orR | orN | daa | cpl =>
    exact ⟨_, rfl, hP.charge _ (hP.setAF _ h)⟩
  case cpR | cpN | scf | ccf | bitR => exact ⟨_, rfl, hP.charge _ (hP.setF _ h)⟩
  case incR | decR => exact ⟨_, rfl, hP.charge _ (hP.setF _ (hP.setR8 _ _ h))⟩
  case addHlRp => exact ⟨_, rfl, hP.charge _ (hP.setF _ (hP.setHl _ h))⟩
  case ldHlSpE => exact ⟨_, rfl, hP.charge _ (hP.setHl _ (hP.setF _ h))⟩
  case rlca | rrca | rla | rra => exact ⟨_, rfl, hP.accRotate _ h⟩
  case rlcR | rrcR | rlR | rrR | slaR | sraR | swapR | srlR => exact ⟨_, rfl, hP.shiftReg _ _ h⟩
  -- reads
  case ldRHl | ldABc | ldADe | ldAA16 | ldhAA8 | ldhAC => exact ⟨_, rfl, hP.charge _ (hP.setR8 _ _ (hP.tick h))⟩
  case ldAHli | ldAHld => exact ⟨_, rfl, hP.charge _ (hP.setHl _ (hP.setR8 _ _ (hP.tick h)))⟩
  case addHl | adcHl | subHl | sbcHl | andHl | xorHl | orHl => exact ⟨_, rfl, hP.charge _ (hP.setAF _ (hP.tick h))⟩
  case cpHl | bitHl => exact ⟨_, rfl, hP.charge _ (hP.setF _ (hP.tick h))⟩
  -- stores
  case ldHlR | ldHlN | ldBcA | ldDeA | ldA16A | ldhA8A | ldhCA =>
    exact ⟨_, rfl, hP.charge _ (hP.memory (by simp [writes]) _ _ h)⟩
  case ldHliA | ldHldA => exact ⟨_, rfl, hP.charge _ (hP.setHl _ (hP.memory (by simp [writes]) _ _ h))⟩
  case ldA16Sp addr =>
    have hm : Part.memory ∈ writes (.ldA16Sp addr) := by simp [writes]
    exact ⟨_, rfl, hP.charge _ (hP.memory hm _ _ (hP.memory hm _ _ h))⟩
  case incHl | decHl => exact ⟨_, rfl, hP.charge _ (hP.setF _ (hP.memory (by simp [writes]) _ _ (hP.tick h)))⟩
  case resHl | setHl => exact ⟨_, rfl, hP.charge _ (hP.memory (by simp [writes]) _ _ (hP.tick h))⟩
  case rlcHl | rrcHl | rlHl | rrHl | slaHl | sraHl | swapHl | srlHl =>
    exact ⟨_, rfl, hP.shiftHl (by simp [writes]) _ h⟩
  -- SP and the stack
  case ldRpN | incRp | decRp => exact ⟨_, rfl, hP.charge _ (hP.setRp _ h)⟩
  case ldSpHl => exact ⟨_, rfl, hP.charge _ (hP.sp (by simp [writes]) _ h)⟩
  case addSpE => exact ⟨_, rfl, hP.charge _ (hP.sp (by simp [writes]) _ (hP.setF _ h))⟩
  case push => exact ⟨_, rfl, hP.charge _ (hP.push16 (by simp [writes]) (by simp [writes]) _ h)⟩
  case popAf => exact ⟨_, rfl, hP.charge _ (hP.setAf _ (hP.popped (by simp [writes]) h))⟩
  case pop => exact ⟨_, rfl, hP.charge _ (hP.setPair _ _ (hP.popped (by simp [writes]) h))⟩
  -- jumps, calls and returns
  case jp | jpHl | jr => exact ⟨_, rfl, hP.charge _ (hP.pc (by simp [writes]) _ h)⟩
  case jpCc | jrCc =>
    refine ⟨_, rfl, ?_⟩
    split
    · exact hP.charge _ (hP.pc (by simp [writes]) _ h)
    · exact hP.charge _ h
  case call | rst =>
    exact ⟨_, rfl, hP.charge _ (hP.callTo (by simp [writes]) (by simp [writes]) (by simp [writes]) _ h)⟩
  case callCc =>
    refine ⟨_, rfl, ?_⟩
    split
    · exact hP.charge _ (hP.callTo (by simp [writes]) (by simp [writes]) (by simp [writes]) _ h)
    · exact hP.charge _ h
  case ret => exact ⟨_, rfl, hP.charge _ (hP.return16 (by simp [writes]) (by simp [writes]) h)⟩
  case retCc =>
    refine ⟨_, rfl, ?_⟩
    split
    · exact hP.charge _ (hP.return16 (by simp [writes]) (by simp [writes]) h)
    · exact hP.charge _ h
  case reti =>
    exact ⟨_, rfl, hP.charge _ (hP.ime (by simp [writes]) _ (hP.return16 (by simp [writes]) (by simp [writes]) h))⟩
  -- the CPU's state
  case di => exact ⟨_, rfl, hP.charge _ (hP.imeDelay (by simp [writes]) false (hP.ime (by simp [writes]) false h))⟩
  case ei => exact ⟨_, rfl, hP.charge _ (hP.imeDelay (by simp [writes]) _ h)⟩
  case stop => exact ⟨_, rfl, hP.charge _ (hP.haltState (by simp [writes]) _ h)⟩
  case illegal => exact ⟨_, rfl, hP.haltState (by simp [writes]) _ h⟩
  case halt =>
    show ∃ t, execHalt s = .next t ∧ P t
    unfold execHalt
    split
    · exact ⟨_, rfl, hP.charge _ (hP.haltBug (by simp [writes]) _ h)⟩
    · exact ⟨_, rfl, hP.charge _ (hP.haltState (by simp [writes]) _ h)⟩

/-! ### The secondary table behind the escape (R1005) -/

theorem execRotR_preserves {P : State → Prop} {s : State} (hP : PreservedBy [.memory] P) (y : BitVec 3) (r : Reg8)
    (h : P s) : ∃ t, execRotR y r s = .next t ∧ P t := by
  unfold execRotR
  split <;> exact ⟨_, rfl, hP.shiftReg _ _ h⟩

theorem execRotHl_preserves {P : State → Prop} {s : State} (hP : PreservedBy [.memory] P) (y : BitVec 3) (h : P s) :
    ∃ t, execRotHl y s = .next t ∧ P t := by
  unfold execRotHl
  split <;> exact ⟨_, rfl, hP.shiftHl (by simp) _ h⟩

/-- The secondary instructions write registers, F and memory. -/
theorem execSecondary_preserves {P : State → Prop} {s : State} (hP : PreservedBy [.memory] P) (op2 : Byte) (h : P s) :
    ∃ t, execSecondary op2 s = .next t ∧ P t := by
  unfold execSecondary
  split
  · exact execRotR_preserves hP _ _ h
  · exact execRotHl_preserves hP _ h
  · exact ⟨_, rfl, hP.charge _ (hP.setF _ h)⟩
  · exact ⟨_, rfl, hP.charge _ (hP.setF _ (hP.tick h))⟩
  · exact ⟨_, rfl, hP.charge _ (hP.setR8 _ _ h)⟩
  · exact ⟨_, rfl, hP.charge _ (hP.memory (by simp) _ _ (hP.tick h))⟩
  · exact ⟨_, rfl, hP.charge _ (hP.setR8 _ _ h)⟩
  · exact ⟨_, rfl, hP.charge _ (hP.memory (by simp) _ _ (hP.tick h))⟩

end Sys2Proof.Machine
end

section
/-! SUPPORT. The invariant: every part of a step keeps it, and so does a step. -/

namespace Sys2Proof.Machine

open Sys2Proof Sys2Proof.Claims

section

variable {s : State}

/-! ### The operations of an instruction -/

theorem State.Inv.write (h : s.Inv) (addr : Word) (v : Byte) : (s.write addr v).Inv where
  memWf := s.write_keeps_memWf addr v h.memWf
  romRising := by simpa using h.romRising
  xramRising := s.write_keeps_xramRising addr v h.xramRising
  bootRomRising := by simpa using h.bootRomRising
  flagsLow := by simpa using h.flagsLow
  haltedNoDelay := by simpa using h.haltedNoDelay
  stoppedNoDelay := by simpa using h.stoppedNoDelay
  bugNeedsParam := by simpa using h.bugNeedsParam
  bugIsRunning := by simpa using h.bugIsRunning
  envRising := by simpa using h.envRising

/-- Everything but a write of the enables, the CPU's state and the halt bug's mark keeps the invariant. -/
theorem inv_preservedBy {ps : List Part} (hps : ∀ p ∈ ps, p ∈ [Part.memory, .sp, .pc]) :
    PreservedBy ps State.Inv where
  tick h := { h with }
  charge _ h := { h with }
  setF v h := { h with flagsLow := maskF_low v }
  setR8 r _ h := by cases r <;> exact { h with }
  memory _ _ addr v h := h.write addr v
  sp _ _ _ h := { h with }
  pc _ _ _ h := { h with }
  ime hm := absurd (hps _ hm) (by decide)
  imeDelay hm := absurd (hps _ hm) (by decide)
  haltState hm := absurd (hps _ hm) (by decide)
  haltBug hm := absurd (hps _ hm) (by decide)

/-! ### An instruction after its fetch -/

/-- A state as the fetch leaves it for the instruction: the CPU runs, the delayed enable is done (R401), no halt bug is
pending (R402). -/
structure State.AfterFetch (s : State) : Prop extends State.Inv s where
  running : s.haltState = .running
  noDelay : s.imeDelay = false
  noBug : ¬ s.haltBugPending = true

/-- HALT marks the bug only under the parameter with `ime` off, and halts with no delayed enable. -/
theorem State.AfterFetch.halt_inv (h : s.AfterFetch) : Answers .halt s State.Inv := by
  show ∃ t, execHalt s = .next t ∧ t.Inv
  unfold execHalt
  split
  · next hbug =>
    simp only [Bool.and_eq_true, Bool.not_eq_true'] at hbug
    obtain ⟨⟨hparam, hime⟩, -⟩ := hbug
    exact ⟨_, rfl, { h.toInv with
      bugNeedsParam := fun _ => hparam
      bugIsRunning := fun _ => ⟨h.running, hime, h.noDelay⟩ }⟩
  · exact ⟨_, rfl, { h.toInv with
      haltedNoDelay := fun _ => h.noDelay
      stoppedNoDelay := nofun
      bugIsRunning := fun hb => absurd hb h.noBug }⟩

/-- Every instruction keeps the invariant from the state its fetch leaves; those that write the enables, the CPU's state or the
halt bug's mark need that the CPU runs with no delayed enable and no halt bug pending. -/
theorem State.AfterFetch.exec_inv (h : s.AfterFetch) (i : Instr) : Answers i s State.Inv := by
  cases i
  case halt => exact h.halt_inv
  case stop => exact ⟨_, rfl, { h.toInv with
    haltedNoDelay := nofun
    stoppedNoDelay := fun _ => h.noDelay
    bugIsRunning := fun hb => absurd hb h.noBug }⟩
  case di => exact ⟨_, rfl, { h.toInv with
    haltedNoDelay := fun _ => rfl
    stoppedNoDelay := fun _ => rfl
    bugIsRunning := fun hb => absurd hb h.noBug }⟩
  case ei => exact ⟨_, rfl, { h.toInv with
    haltedNoDelay := fun hs => absurd (h.running.symm.trans hs) (by decide)
    stoppedNoDelay := fun hs => absurd (h.running.symm.trans hs) (by decide)
    bugIsRunning := fun hb => absurd hb h.noBug }⟩
  case reti =>
    have hret : s.return16.Inv := (inv_preservedBy (ps := [.sp, .pc]) (by simp)).return16 (by simp) (by simp) h.toInv
    have hbug : ¬ s.return16.haltBugPending = true := by simpa using h.noBug
    exact ⟨_, rfl, { hret with bugIsRunning := fun hb => absurd hb hbug }⟩
  case illegal => exact ⟨_, rfl, { h.toInv with
    haltedNoDelay := nofun
    stoppedNoDelay := nofun
    bugIsRunning := fun hb => absurd hb h.noBug }⟩
  case prefixCb =>
    exact execSecondary_preserves (inv_preservedBy (by simp)) (s := s.fetched) s.fetchByte { h.toInv with }
  case ldRpN rr _ | incRp rr | decRp rr =>
    cases rr <;> exact exec_preserves (by simp) (inv_preservedBy (by simp [writes, rpParts])) h.toInv
  all_goals exact exec_preserves (by simp) (inv_preservedBy (by simp [writes])) h.toInv

/-! ### The parts of a step -/

theorem State.Inv.request (h : s.Inv) (k : Interrupt) : (s.request k).Inv := { h with }

theorem State.Inv.envCell (h : s.Inv) (x : Host.Cell) : (s.envCell x).Inv := by
  have hmem := s.envCell_keeps_memWf x h.memWf
  obtain ⟨mem, he⟩ := State.envCells_shape [x] s
  rw [show s.envCell x = { s with mem := mem } from he] at hmem ⊢
  exact { h with memWf := hmem }

theorem State.Inv.applyMove (h : s.Inv) (m : EnvMove) : (s.applyMove m).Inv :=
  List.foldlRecOn m.io State.envCell
    (List.foldlRecOn m.requests State.request h fun _ hu k _ => hu.request k)
    fun _ hu x _ => hu.envCell x

theorem State.Inv.envStep (h : s.Inv) : s.envStep.Inv := by
  unfold State.envStep
  split
  · exact h
  · next m rest henv =>
    have hrest : (m :: rest).all EnvMove.rising = true := henv ▸ h.envRising
    have hs : State.Inv { s with env := rest } := { h with envRising := (Bool.and_eq_true_iff.1 hrest).2 }
    exact hs.applyMove m

/-- A CPU that wakes (R403, R404) has no halt bug pending. -/
theorem State.Inv.wake (h : s.Inv) : State.Inv { s with haltState := .running } :=
  { h with
    haltedNoDelay := nofun
    stoppedNoDelay := nofun
    bugIsRunning := fun hb => ⟨rfl, (h.bugIsRunning hb).2⟩ }

/-- The delayed enable and the fetch leave neither a delayed enable nor a halt bug. -/
theorem State.Inv.afterFetch (h : s.Inv) (hs : s.haltState = .running) : s.enableDelayed.fetchInstr.2.AfterFetch := by
  obtain ⟨pc, reads, hf⟩ := s.enableDelayed.fetchInstr_shape
  rw [hf, s.enableDelayed_eq]
  exact { h with
    haltedNoDelay := fun _ => rfl
    stoppedNoDelay := fun _ => rfl
    bugNeedsParam := nofun
    bugIsRunning := nofun
    running := hs
    noDelay := rfl
    noBug := nofun }

/-- A dispatch needs `ime`, so no halt bug is pending then. -/
theorem State.Inv.dispatch (h : s.Inv) (hime : s.ime = true) (k : Interrupt) : (s.dispatch k).Inv := by
  have hbug : ¬ s.haltBugPending = true := fun hb => absurd (hime.symm.trans (h.bugIsRunning hb).2.1) (by decide)
  have hpush : (s.push16 s.pc).Inv :=
    (inv_preservedBy (ps := [.sp, .memory]) (by simp)).push16 (by simp) (by simp) s.pc h
  rw [s.dispatch_eq k]
  exact { hpush with
    haltedNoDelay := fun _ => rfl
    stoppedNoDelay := fun _ => rfl
    bugIsRunning := fun hb => absurd hb (by simpa using hbug) }

/-! ### The reset (R116, R1200) -/

/-- Both columns: under `BootRom` the drawn F is masked. -/
theorem resetAt_inv (k : Nat) (p : Params) (hp : memRising p.bootRom = true) : (State.resetAt k p).Inv := by
  have hpost : (State.postBoot k p).Inv :=
    { memWf := rfl, romRising := rfl, xramRising := rfl, bootRomRising := hp, flagsLow := by simp [State.postBoot]
      haltedNoDelay := nofun, stoppedNoDelay := nofun, bugNeedsParam := nofun, bugIsRunning := nofun, envRising := rfl }
  unfold State.resetAt
  split
  · exact hpost
  · exact { hpost with flagsLow := maskF_low _ }

theorem State.Inv.resetEvent (h : s.Inv) {r : ResetEvent} (hr : s.resetDue = some r) : (s.resetEvent r).Inv := by
  obtain ⟨m, rest, henv, hm⟩ := State.env_of_resetDue hr
  have hall : (m :: rest).all EnvMove.rising = true := henv ▸ h.envRising
  simp only [List.all_cons, EnvMove.rising, hm, Option.all_some, Bool.and_eq_true] at hall
  obtain ⟨⟨hboot, hram⟩, hrest⟩ := hall
  exact { resetAt_inv (s.resets + 1) { s.params with bootMode := r.bootMode, bootRom := r.bootRom } hboot with
    romRising := h.romRising
    xramRising := hram
    envRising := by rw [State.resetEvent_env, henv]; exact hrest }

/-! ### The step -/

/-- The environment's move, then idling, a dispatch or an instruction, which the CPU wakes for. -/
theorem StepRuns.inv {t : State} (h : s.Inv) (ht : StepRuns s t) : t.Inv := by
  obtain ⟨-, -, rfl⟩ | ⟨-, -, rfl⟩ | ⟨u, rfl, ⟨k, hime, -, rfl⟩ | ⟨-, hexec⟩⟩ := ht
  · exact { h.envStep with }
  · exact h.envStep
  · exact h.envStep.wake.dispatch hime k
  · exact ((h.envStep.wake.afterFetch rfl).exec_inv _).of_next hexec

end

/-- Settles O16: the step's cases, each by the lemma of its part. -/
theorem everyStepKeepsTheInvariant : Obligations.EveryStepKeepsTheInvariant := by
  unfold Obligations.EveryStepKeepsTheInvariant
  intro s t h hstep
  obtain ⟨r, hr, rfl⟩ | ⟨-, hruns⟩ := step_cases hstep
  · exact h.resetEvent hr
  · exact hruns.inv h

end Sys2Proof.Machine
end

section
/-! SUPPORT. Which parts an instruction leaves unchanged. -/

namespace Sys2Proof.Machine

open Sys2Proof Sys2Proof.Claims

/-- `t` differs from `s` in the control state only at the parts `ps`, and has its parameters and the host's moves. -/
structure WritesOnly (ps : List Part) (s t : State) : Prop where
  sp : .sp ∉ ps → t.sp = s.sp
  pc : .pc ∉ ps → t.pc = s.pc
  ime : .ime ∉ ps → t.ime = s.ime
  imeDelay : .imeDelay ∉ ps → t.imeDelay = s.imeDelay
  haltState : .haltState ∉ ps → t.haltState = s.haltState
  haltBug : .haltBug ∉ ps → t.haltBugPending = s.haltBugPending
  params : t.params = s.params
  env : t.env = s.env

theorem WritesOnly.refl (ps : List Part) (s : State) : WritesOnly ps s s where
  sp _ := rfl
  pc _ := rfl
  ime _ := rfl
  imeDelay _ := rfl
  haltState _ := rfl
  haltBug _ := rfl
  params := rfl
  env := rfl

/-- Each operation writes none of the control state, or the one part it is named after. -/
theorem writesOnly_preservedBy (ps : List Part) (s : State) : PreservedBy ps (WritesOnly ps s) where
  tick h := { h with }
  charge _ h := { h with }
  setF _ h := { h with }
  setR8 r _ h := by cases r <;> exact { h with }
  memory _ t addr v h := by
    obtain ⟨_, _, _, _, _, _, _, _, _, hw⟩ := t.write_shape addr v
    rw [hw]
    exact { h with }
  sp hm _ _ h := { h with sp := fun hn => absurd hm hn }
  pc hm _ _ h := { h with pc := fun hn => absurd hm hn }
  ime hm _ _ h := { h with ime := fun hn => absurd hm hn }
  imeDelay hm _ _ h := { h with imeDelay := fun hn => absurd hm hn }
  haltState hm _ _ h := { h with haltState := fun hn => absurd hm hn }
  haltBug hm _ _ h := { h with haltBug := fun hn => absurd hm hn }

/-- Settles O59: `WritesOnly` survives every instruction. -/
theorem onlyTheirWritersChangeControlState : Obligations.OnlyTheirWritersChangeControlState := by
  unfold Obligations.OnlyTheirWritersChangeControlState
  intro i s t hw ht
  have hi : i ≠ .prefixCb := by rintro rfl; exact absurd hw (by decide)
  obtain ⟨hsp, hpc, hime, hdelay, hhalt, hbug, hparams, henv⟩ :=
    (exec_preserves hi (writesOnly_preservedBy (writes i) s) (WritesOnly.refl _ s)).of_next ht
  exact ⟨hsp, hpc, hime, hdelay, hhalt, hbug, hparams, henv⟩

end Sys2Proof.Machine
end

section
/-! SUPPORT. The values a reset leaves (R116, R1200 to R1202). -/

namespace Sys2Proof.Machine

open Sys2Proof Sys2Proof.Claims

/-- Each reset, by its column of R116. -/
theorem resetAt_values (k : Nat) (p : Params) : ResetValues p (State.resetAt k p) := by
  unfold State.resetAt
  cases hb : p.bootMode with
  | postBootDefaults =>
    exact { both := ⟨rfl, rfl, rfl, rfl, rfl, rfl, rfl, rfl, rfl⟩
            postBootDefaults := fun _ => ⟨rfl, rfl, rfl, rfl, rfl, rfl, rfl, rfl, rfl, rfl, rfl⟩
            bootRom := fun h => absurd (hb.symm.trans h) (by decide) }
  | bootRom =>
    exact { both := ⟨rfl, rfl, rfl, rfl, rfl, rfl, rfl, rfl, rfl⟩
            postBootDefaults := fun h => absurd (hb.symm.trans h) (by decide)
            bootRom := fun _ => ⟨maskF_low _, rfl, rfl⟩ }

/-- What a reset event hands over and keeps is none of the reset values. -/
theorem resetEvent_values (s : State) (r : ResetEvent) :
    ResetValues { s.params with bootMode := r.bootMode, bootRom := r.bootRom } (s.resetEvent r) :=
  { resetAt_values (s.resets + 1) { s.params with bootMode := r.bootMode, bootRom := r.bootRom } with }

/-- The spec's bounds of plain memory are the model's. -/
theorem region_plain_of_plainAddr {addr : Word} (h : PlainAddr addr) : (region addr).plain = true := by
  obtain ⟨lo, hi⟩ | ⟨lo, hi⟩ | ⟨lo, hi⟩ | ⟨lo, hi⟩ | ⟨lo, hi⟩ := h
  · rw [(region_vram_iff addr).2 (by omega)]; rfl
  · rw [(region_wram_iff addr).2 (by omega)]; rfl
  · rw [(region_echo_iff addr).2 (by omega)]; rfl
  · rw [(region_oam_iff addr).2 (by omega)]; rfl
  · rw [(region_hram_iff addr).2 (by omega)]; rfl

/-- After a reset event a byte of the built-in memories is a fresh draw. -/
theorem resetEvent_byteAt_plain (s : State) (r : ResetEvent) (n : Nat) {addr : Word} (h : PlainAddr addr) :
    (s.resetEvent r).byteAt n addr = Config.powerUp .internal (s.resets + 1) (memKey addr) := by
  rw [State.byteAt_plain (region_plain_of_plainAddr h), State.resetEvent_resets, State.resetEvent_mem]
  rfl

/-- Settles O14: the first reset is a reset. -/
theorem resetLeavesTheSpecsValues : Obligations.ResetLeavesTheSpecsValues := by
  unfold Obligations.ResetLeavesTheSpecsValues
  exact resetAt_values 0

/-- Settles O15: a due reset event is the step. -/
theorem resetSatisfiesTheInvariant : Obligations.ResetSatisfiesTheInvariant := by
  unfold Obligations.ResetSatisfiesTheInvariant
  refine ⟨resetAt_inv 0 Params.default rfl, resetAt_inv 0, fun s r hr => ?_⟩
  exact ⟨s.resetEvent r, step_of_reset hr, resetEvent_values s r, fun h => h.resetEvent hr, s.resetEvent_rom r,
    s.resetEvent_env r, s.resetEvent_ioAnswers r, s.resetEvent_ramAnswers r, s.resetEvent_resets r,
    s.resetEvent_cartWrites r, s.resetEvent_xram r, fun n _ ha => resetEvent_byteAt_plain s r n ha⟩

end Sys2Proof.Machine
end

section
/-! SUPPORT. The bus per kind of address: what a read answers, what a write does, which bytes a write leaves (R202 to
R221). -/

namespace Sys2Proof.Machine

open Sys2Proof Sys2Proof.Claims

/-! ### The kinds of address -/

theorem isIoCell_iff (addr : Word) :
    isIoCell addr = true ↔ region addr = .io ∧ addr ≠ ifAddr ∧ addr ≠ dmaAddr ∧ addr ≠ bootAddr := by
  simp [isIoCell, and_assoc]

/-- The addresses that a write treats alike. -/
theorem address_cases (addr : Word) :
    addr.toNat < 0x8000 ∨ (region addr).plain = true ∨ region addr = .extRam ∨ region addr = .unusable ∨
    isIoCell addr = true ∨ addr = ifAddr ∨ addr = dmaAddr ∨ addr = bootAddr ∨ addr = 0xFFFF#16 := by
  cases hr : region addr
  case rom0 => exact .inl (by have := (region_rom0_iff addr).1 hr; omega)
  case romX => exact .inl ((region_romX_iff addr).1 hr).2
  case vram | wram | echo | oam | hram => exact .inr (.inl rfl)
  case extRam | unusable => simp
  case io => simp only [isIoCell_iff, hr]; tauto
  case ie =>
    have : addr = 0xFFFF#16 := BitVec.eq_of_toNat_eq ((region_ie_iff addr).1 hr)
    simp [this]

/-- The partitions as rows of the spec's table (R202). -/
theorem region_iff_of_mem_addressMap :
    ∀ row ∈ addressMap, ∀ addr, region addr = row.2.2 ↔ row.1 ≤ addr.toNat ∧ addr.toNat ≤ row.2.1 := by
  simp only [addressMap, List.forall_mem_cons, List.not_mem_nil, false_implies, implies_true, and_true, region_rom0_iff,
    region_romX_iff, region_vram_iff, region_extRam_iff, region_wram_iff, region_echo_iff, region_oam_iff,
    region_unusable_iff, region_io_iff, region_hram_iff, region_ie_iff]
  refine ⟨?_, ?_, ?_, ?_, ?_, ?_, ?_, ?_, ?_, ?_, ?_⟩ <;> intro addr <;> omega

/-- The model's plain partitions have the spec's bounds. -/
theorem region_plain_iff (addr : Word) : (region addr).plain = true ↔ PlainAddr addr := by
  refine ⟨fun h => ?_, region_plain_of_plainAddr⟩
  cases hr : region addr <;> rw [hr] at h
  case vram => have := (region_vram_iff addr).1 hr; omega
  case wram => have := (region_wram_iff addr).1 hr; omega
  case echo => have := (region_echo_iff addr).1 hr; omega
  case oam => have := (region_oam_iff addr).1 hr; omega
  case hram => have := (region_hram_iff addr).1 hr; omega
  all_goals exact absurd h (by decide)

/-- The spec's cells are cells of the model, and none is the joypad's, which reads as computed (R209, R210). -/
theorem isIoCell_of_cellAddr {addr : Word} (h : CellAddr addr) : isIoCell addr = true ∧ addr ≠ joypadAddr := by
  obtain ⟨lo, hi, hif, hdma, hboot⟩ := h
  refine ⟨(isIoCell_iff addr).2 ⟨(region_io_iff addr).2 (by omega), hif, hdma, hboot⟩, ?_⟩
  rintro rfl
  exact absurd lo (by decide)

section

variable (s : State) {addr : Word}

/-! ### What a read answers -/

theorem State.byteAt_romWindow (h : addr.toNat < 0x8000) (n : Nat) : s.byteAt n addr = s.romByte addr := by
  by_cases h0 : addr.toNat < 0x4000
  · simp only [State.byteAt, (region_rom0_iff addr).2 h0]
  · simp only [State.byteAt, (region_romX_iff addr).2 ⟨by omega, h⟩]

/-- Under the mapped overlay a byte is the boot ROM's (R211). -/
theorem State.romByte_overlay (hb : s.bootMapped = true) (h : addr.toNat < 0x100) :
    s.romByte addr = memByte .bootRom 0 s.params.bootRom addr.toNat := by
  simp [State.romByte, hb, h]

/-- Past the overlay, or with it unmapped, a byte is the cartridge's (R211). -/
theorem State.romByte_cartridge (h : s.bootMapped = false ∨ 0x100 ≤ addr.toNat) :
    s.romByte addr = memByte .cartRom 0 s.rom (s.romOffset addr) := by
  have hno : ¬ (s.bootMapped && decide (addr.toNat < 0x100)) = true := by
    obtain hb | hlo := h
    · simp [hb]
    · simp [hlo]
  rw [State.romByte, if_neg hno]

/-- External RAM reads as the byte the controller selects, or floats (R213). -/
theorem State.byteAt_extRam (h : region addr = .extRam) (n : Nat) :
    s.byteAt n addr =
      (s.ramOffset addr).elim (Config.floatingByte n) (fun off => memByte .cartRam s.resets s.xram off) := by
  cases ho : s.ramOffset addr <;> simp only [State.byteAt, h, ho, Option.elim_none, Option.elim_some]

theorem State.byteAt_ioCell (h : isIoCell addr = true) (hj : addr ≠ joypadAddr) (n : Nat) :
    s.byteAt n addr = memByte .internal s.resets s.mem addr.toNat := by
  obtain ⟨hio, hif, hdma, hboot⟩ := (isIoCell_iff addr).1 h
  simp only [State.byteAt, hio, State.ioByte, if_neg hif, if_neg hj, if_neg hdma, if_neg hboot]

/-! ### What a write does -/

theorem State.write_romWindow (h : addr.toNat < 0x8000) (v : Byte) : s.write addr v = s.cartWrite addr v := by
  by_cases h0 : addr.toNat < 0x4000
  · simp only [State.write, (region_rom0_iff addr).2 h0]
  · simp only [State.write, (region_romX_iff addr).2 ⟨by omega, h⟩]

/-- The controller is sent a write below 0x8000 or ignores it (R212). -/
theorem State.cartWrite_shape (addr : Word) (v : Byte) :
    ∃ cartWrites, s.cartWrite addr v = { s with cartWrites := cartWrites } := by
  unfold State.cartWrite
  split <;> exact ⟨_, rfl⟩

/-- What external RAM stores of a write is `ramStored`, and one answer is used up (assumption 9). -/
theorem State.extRamStore_eq (addr : Word) (v : Byte) :
    s.extRamStore addr v =
      { s with xram := (ramStored s addr v).elim s.xram (fun x => memStore s.xram x.1 x.2),
               ramAnswers := s.ramAnswers.tail } := by
  unfold State.extRamStore ramStored
  split
  · next h =>
    have hs : { s with ramAnswers := [] } = s := by rw [← h]
    unfold State.extRamPut
    cases s.ramOffset addr <;> simp [h, hs]
  · next h => simp [h]
  · next h => simp [h]

/-- A write to external RAM stores what `ramStored` says, and the controller is sent it (R213). -/
theorem State.write_extRam (h : region addr = .extRam) (v : Byte) :
    s.write addr v =
      { s with xram := (ramStored s addr v).elim s.xram (fun x => memStore s.xram x.1 x.2),
               cartWrites := (addr.toNat, v) :: s.cartWrites, ramAnswers := s.ramAnswers.tail } := by
  simp only [State.write, h, State.extRamWrite, s.extRamStore_eq, State.sentCart]

theorem State.write_ioCell (h : isIoCell addr = true) (v : Byte) :
    s.write addr v =
      { s with mem := memStore s.mem addr.toNat (s.ioAnswers.headD v), ioAnswers := s.ioAnswers.tail } := by
  obtain ⟨hio, hif, hdma, hboot⟩ := (isIoCell_iff addr).1 h
  simp only [State.write, hio, State.ioWrite, if_neg hif, if_neg hdma, if_neg hboot, s.ioCellWrite_eq]

theorem State.write_unusable (h : region addr = .unusable) (v : Byte) : s.write addr v = s := by
  simp only [State.write, h]

theorem State.write_ifAddr (v : Byte) : s.write ifAddr v = { s with iF := v.extractLsb' 0 5 } := rfl

theorem State.write_dmaAddr (v : Byte) : s.write dmaAddr v = s.dmaCopy v 160 := rfl

theorem State.write_bootAddr (v : Byte) : s.write bootAddr v = { s with bootMapped := false } := rfl

theorem State.write_ieAddr (v : Byte) : s.write 0xFFFF#16 v = { s with ie := v } := rfl

/-- Only a write to 0xFF50 touches the overlay (R208). -/
theorem State.write_bootMapped (h : addr ≠ bootAddr) (v : Byte) : (s.write addr v).bootMapped = s.bootMapped := by
  obtain hlow | hp | hx | hu | hc | rfl | rfl | hb | rfl := address_cases addr
  · obtain ⟨_, he⟩ := s.cartWrite_shape addr v
    rw [s.write_romWindow hlow, he]
  · rw [State.write_plain hp]; rfl
  · rw [s.write_extRam hx]
  · rw [s.write_unusable hu]
  · rw [s.write_ioCell hc]
  · rfl
  · obtain ⟨_, he⟩ := State.dmaCopy_shape v 160 s
    rw [s.write_dmaAddr, he]
  · exact absurd hb h
  · rfl

/-! ### What a read does not depend on -/

variable {other : Word}

/-- Outside the switchable windows no byte depends on the cartridge RAM or on what the controller was sent (R212,
R213). -/
theorem State.byteAt_cartridge_congr (xram cartWrites : Memory) (ramAnswers : List (Option Host.Cell)) (n : Nat)
    (hrom : region other ≠ .romX) (hram : region other ≠ .extRam) :
    State.byteAt { s with xram := xram, cartWrites := cartWrites, ramAnswers := ramAnswers } n other =
      s.byteAt n other := by
  cases hr : region other
  case romX => exact absurd hr hrom
  case extRam => exact absurd hr hram
  case rom0 =>
    have hlow := (region_rom0_iff other).1 hr
    simp only [State.byteAt, hr, State.romByte, State.romOffset_low hlow]
  all_goals simp only [State.byteAt, hr, State.ioByte]

/-- A store to another cell of `mem` leaves a byte. -/
theorem State.byteAt_memStore_of_ne (key : Nat) (v : Byte) (ioAnswers : List Byte) (n : Nat)
    (h : memKey other ≠ key) :
    State.byteAt { s with mem := memStore s.mem key v, ioAnswers := ioAnswers } n other = s.byteAt n other :=
  s.byteAt_mem_congr _ n other (memByte_memStore_of_ne _ _ _ v h)

/-- Past the overlay no byte depends on its flag (R208, R211). -/
theorem State.byteAt_bootMapped_congr (b : Bool) (n : Nat) (h : 0x100 ≤ other.toNat) :
    State.byteAt { s with bootMapped := b } n other = s.byteAt n other := by
  by_cases hrom : other.toNat < 0x8000
  · rw [State.byteAt_romWindow _ hrom, State.byteAt_romWindow _ hrom, State.romByte_cartridge _ (.inr h),
      State.romByte_cartridge _ (.inr h)]
    rfl
  · cases hr : region other
    case rom0 => exact absurd ((region_rom0_iff other).1 hr) (by omega)
    case romX => exact absurd ((region_romX_iff other).1 hr).2 hrom
    all_goals simp only [State.byteAt, hr, State.ioByte, State.ramOffset]

theorem State.byteAt_iF_congr (iF : BitVec 5) (n : Nat) (h : other ≠ ifAddr) :
    State.byteAt { s with iF := iF } n other = s.byteAt n other := by
  unfold State.byteAt
  cases region other
  case io => simp only [State.ioByte, if_neg h]
  all_goals rfl

theorem State.byteAt_ie_congr (ie : Byte) (n : Nat) (h : other ≠ 0xFFFF#16) :
    State.byteAt { s with ie := ie } n other = s.byteAt n other := by
  unfold State.byteAt
  cases hr : region other
  case ie => exact absurd (BitVec.eq_of_toNat_eq ((region_ie_iff other).1 hr)) h
  all_goals rfl

end

/-! ### The reach of a write -/

section

variable {addr other : Word}

theorem writeReaches_cartridge (h : addr.toNat < 0x8000 ∨ region addr = .extRam)
    (hr : writeReaches addr other = false) : region other ≠ .romX ∧ region other ≠ .extRam := by
  have hra : region addr = .rom0 ∨ region addr = .romX ∨ region addr = .extRam := by
    obtain hlow | hx := h
    · rw [region_rom0_iff, region_romX_iff]; omega
    · exact .inr (.inr hx)
  unfold writeReaches at hr
  obtain ha | ha | ha := hra <;> simpa [ha] using hr

theorem writeReaches_plain (h : (region addr).plain = true) (hr : writeReaches addr other = false) :
    memKey other ≠ memKey addr := by
  unfold writeReaches at hr
  cases ha : region addr <;> rw [ha] at h hr
  case vram | wram | echo | oam | hram => simpa using hr
  all_goals exact absurd h (by decide)

theorem writeReaches_ioCell (h : isIoCell addr = true) (hr : writeReaches addr other = false) : other ≠ addr := by
  obtain ⟨hio, -, hdma, hboot⟩ := (isIoCell_iff addr).1 h
  simpa [writeReaches, hio, hdma, hboot] using hr

theorem writeReaches_dmaAddr : writeReaches dmaAddr other = decide (region other = .oam) := rfl

theorem writeReaches_bootAddr : writeReaches bootAddr other = decide (other.toNat < 0x100) := rfl

/-- A byte outside a write's reach reads as before. -/
theorem State.byteAt_write_of_not_reaches (s : State) (v : Byte) (n : Nat) (hr : writeReaches addr other = false) :
    (s.write addr v).byteAt n other = s.byteAt n other := by
  obtain hlow | hp | hx | hu | hc | rfl | rfl | rfl | rfl := address_cases addr
  · obtain ⟨hrom, hram⟩ := writeReaches_cartridge (.inl hlow) hr
    obtain ⟨cartWrites, he⟩ := s.cartWrite_shape addr v
    rw [s.write_romWindow hlow, he]
    exact s.byteAt_cartridge_congr s.xram cartWrites s.ramAnswers n hrom hram
  · rw [State.write_plain hp]
    exact s.byteAt_memStore_of_ne _ v s.ioAnswers n (writeReaches_plain hp hr)
  · obtain ⟨hrom, hram⟩ := writeReaches_cartridge (.inr hx) hr
    rw [s.write_extRam hx]
    exact s.byteAt_cartridge_congr _ _ _ n hrom hram
  · rw [s.write_unusable hu]
  · rw [s.write_ioCell hc]
    have hio := ((isIoCell_iff addr).1 hc).1
    exact s.byteAt_memStore_of_ne _ _ _ n fun hk => writeReaches_ioCell hc hr (memKey_io_inj hio hk)
  · have hne : other ≠ ifAddr := fun he => absurd (he ▸ hr) (by decide)
    rw [s.write_ifAddr, s.byteAt_iF_congr _ n hne]
  · have hoam : region other ≠ .oam := by simpa [writeReaches_dmaAddr] using hr
    rw [s.write_dmaAddr, State.dmaCopy_byteAt v s n 160 le_rfl other hoam]
  · have hpast : 0x100 ≤ other.toNat := by simpa [writeReaches_bootAddr] using hr
    rw [s.write_bootAddr, s.byteAt_bootMapped_congr _ n hpast]
  · have hne : other ≠ 0xFFFF#16 := fun he => absurd (he ▸ hr) (by decide)
    rw [s.write_ieAddr, s.byteAt_ie_congr _ n hne]

end

end Sys2Proof.Machine
end

section
/-! SUPPORT. The bus's statements (20_memory.md), each from the rules of the bus per kind of address. -/

namespace Sys2Proof.Machine

open Sys2Proof Sys2Proof.Claims

/-! ### Plain memory, echo RAM, external RAM, I/O cells -/

theorem State.byteAt_write_plain (s : State) {addr : Word} (h : (region addr).plain = true) (v : Byte) (n : Nat) :
    (s.write addr v).byteAt n addr = v := by
  rw [State.write_plain h, State.byteAt_plain h]
  exact memByte_memStore_self ..

/-- Echo RAM is work RAM 0x2000 below, for reads and for writes (R203). -/
theorem State.echo_is_workRam (s : State) {addr : Word} (h1 : 0xE000 ≤ addr.toNat) (h2 : addr.toNat < 0xFE00)
    (v : Byte) (n : Nat) :
    s.byteAt n addr = s.byteAt n (addr - 0x2000#16) ∧ s.write addr v = s.write (addr - 0x2000#16) v := by
  obtain ⟨hecho, hwram, hkey⟩ := echo_memKey h1 h2
  have hp : (region addr).plain = true := by rw [hecho]; rfl
  have hp' : (region (addr - 0x2000#16)).plain = true := by rw [hwram]; rfl
  rw [State.byteAt_plain hp, State.byteAt_plain hp', State.write_plain hp, State.write_plain hp']
  unfold State.memWrite
  rw [hkey]
  exact ⟨rfl, rfl⟩

/-- The cartridge RAM after a write there, byte by byte (assumption 9). -/
theorem State.write_extRam_xram (s : State) {addr : Word} (h : region addr = .extRam) (v : Byte) (k off : Nat) :
    memByte .cartRam k (s.write addr v).xram off =
      (ramStored s addr v).elim (memByte .cartRam k s.xram off)
        (fun x => if off = x.1 then x.2 else memByte .cartRam k s.xram off) := by
  rw [s.write_extRam h]
  cases ramStored s addr v with
  | none => rfl
  | some x =>
    by_cases he : off = x.1
    · subst he; simp
    · simp [he, memByte_memStore_of_ne]

theorem State.byteAt_write_ioCell (s : State) {addr : Word} (h : isIoCell addr = true) (hj : addr ≠ joypadAddr)
    (v : Byte) (n : Nat) : (s.write addr v).byteAt n addr = s.ioAnswers.headD v := by
  rw [State.byteAt_ioCell _ h hj, s.write_ioCell h]
  exact memByte_memStore_self ..

/-- Settles O17: each clause by the rule of its kind of address. -/
theorem plainMemoryReadsBackAndEchoIsWorkRam : Obligations.PlainMemoryReadsBackAndEchoIsWorkRam := by
  unfold Obligations.PlainMemoryReadsBackAndEchoIsWorkRam
  refine ⟨region_iff_of_mem_addressMap, region_plain_iff, ?_, ?_, ?_, ?_⟩
  · intro s addr v n h
    exact s.byteAt_write_plain (region_plain_of_plainAddr h) v n
  · intro s addr v n h1 h2
    exact s.echo_is_workRam h1 h2 v n
  · intro s addr v n k off h1 h2
    have hx : region addr = .extRam := (region_extRam_iff addr).2 (by omega)
    refine ⟨?_, ?_, ?_, ?_⟩
    · rw [s.byteAt_extRam hx]
      cases s.ramOffset addr <;> rfl
    · rw [s.write_extRam_xram hx]
      cases ramStored s addr v <;> rfl
    · rw [s.write_extRam hx]
    · rw [s.write_extRam hx]
  · intro s addr v n h
    obtain ⟨hc, hj⟩ := isIoCell_of_cellAddr h
    exact ⟨s.byteAt_write_ioCell hc hj v n, by rw [s.write_ioCell hc]⟩

/-- Settles O18: the reach kind by kind, and the shape of a write. -/
theorem aWriteReachesOnlyItsOwnBytes : Obligations.AWriteReachesOnlyItsOwnBytes := by
  unfold Obligations.AWriteReachesOnlyItsOwnBytes
  rintro s t addr v rfl
  refine ⟨fun n _ hr => s.byteAt_write_of_not_reaches v n hr, ?_⟩
  obtain ⟨_, _, _, _, _, _, _, _, _, he⟩ := s.write_shape addr v
  rw [he]

/-! ### The mask registers (R205, R206) -/

theorem State.byteAt_ifAddr_toNat (s : State) (n : Nat) :
    (s.byteAt n ifAddr).toNat = 32 * s.params.ifUpperRead.toNat + s.iF.toNat := by
  show (s.params.ifUpperRead ++ s.iF).toNat = _
  rw [BitVec.toNat_append, ← Nat.shiftLeft_add_eq_or_of_lt s.iF.isLt, Nat.shiftLeft_eq]
  omega

/-- Settles O19: both addresses are fixed, so the map decides them. -/
theorem theMaskRegistersOnTheBus : Obligations.TheMaskRegistersOnTheBus := by
  unfold Obligations.TheMaskRegistersOnTheBus
  intro s v n
  refine ⟨rfl, s.write_ieAddr v, s.byteAt_ifAddr_toNat n, ?_, rfl⟩
  show (v.extractLsb' 0 5).toNat = v.toNat % 32
  simp

/-! ### The OAM copy (R207) -/

theorem dmaSource_eq (page : Byte) (i : Nat) : dmaSource page i = BitVec.ofNat 16 (256 * page.toNat + i) := by
  apply BitVec.eq_of_toNat_eq
  simp [dmaSource, joinBytes_toNat]

/-- Byte `i` of OAM is what the copy reads at its step `i`, and no later step touches it. -/
theorem State.dmaCopy_oamByte (page : Byte) (s : State) (i k : Nat) (h : i < k) :
    memByte .internal s.resets (s.dmaCopy page k).mem (0xFE00 + i) =
      (s.dmaCopy page i).dmaByte (dmaSource page i) := by
  induction k with
  | zero => omega
  | succ k ih =>
    show memByte .internal s.resets (memStore _ (0xFE00 + k) _) (0xFE00 + i) = _
    by_cases hik : i = k
    · subst hik; exact memByte_memStore_self ..
    · rw [memByte_memStore_of_ne _ _ _ _ (by omega)]
      exact ih (by omega)

/-- From a page below 0xFE the copy reads what stood there before it: it has changed OAM only. -/
theorem State.dmaCopy_dmaByte (page : Byte) (s : State) (i : Nat) (hp : page.toNat < 0xFE) (hi : i < 160) :
    (s.dmaCopy page i).dmaByte (dmaSource page i) = s.byteAt (s.reads + i) (dmaSource page i) := by
  have hlow : (dmaSource page i).toNat < 0xFE00 := by rw [dmaSource_eq, BitVec.toNat_ofNat]; omega
  have hoam : region (dmaSource page i) ≠ .oam := by rw [Ne, region_oam_iff]; omega
  obtain ⟨_, he⟩ := s.dmaCopy_shape page i
  have hreads : (s.dmaCopy page i).reads = s.reads + i := by rw [he]
  rw [State.dmaByte, if_neg (by omega), State.peek, hreads]
  exact s.dmaCopy_byteAt page _ i (by omega) _ hoam

/-- Settles O20: the copy by its shape, its OAM bytes by induction on its length, its sources by its frame. -/
theorem aDmaWriteCopiesAPageIntoOam : Obligations.ADmaWriteCopiesAPageIntoOam := by
  unfold Obligations.ADmaWriteCopiesAPageIntoOam
  intro s page n i hp hi
  obtain ⟨mem, he⟩ := s.dmaCopy_shape page 160
  rw [show s.write 0xFF46#16 page = s.dmaCopy page 160 from s.write_dmaAddr page]
  refine ⟨?_, by rw [he], fun addr h => s.dmaCopy_byteAt page n 160 le_rfl addr h⟩
  have hn : (BitVec.ofNat 16 (0xFE00 + i)).toNat = 0xFE00 + i := by rw [BitVec.toNat_ofNat]; omega
  have hoam : region (BitVec.ofNat 16 (0xFE00 + i)) = .oam := (region_oam_iff _).2 (by omega)
  have hresets : (s.dmaCopy page 160).resets = s.resets := by rw [he]
  rw [State.byteAt_plain (by rw [hoam]; rfl), memKey_not_echo (by rw [hoam]; decide), hn, hresets,
    s.dmaCopy_oamByte page i 160 hi, s.dmaCopy_dmaByte page i hp hi, dmaSource_eq]

/-! ### The overlay and the ROM windows (R202, R208, R211, R212) -/

theorem State.byteAt_overlay (s : State) {addr : Word} (hb : s.bootMapped = true) (h : addr.toNat < 0x100) (n : Nat) :
    s.byteAt n addr = memByte .bootRom 0 s.params.bootRom addr.toNat := by
  rw [s.byteAt_romWindow (by omega), s.romByte_overlay hb h]

/-- The low window is bank 0 of the cartridge. -/
theorem State.byteAt_lowWindow (s : State) {addr : Word} (hb : s.bootMapped = false ∨ 0x100 ≤ addr.toNat)
    (h : addr.toNat < 0x4000) (n : Nat) : s.byteAt n addr = memByte .cartRom 0 s.rom addr.toNat := by
  rw [s.byteAt_romWindow (by omega), s.romByte_cartridge hb, State.romOffset_low h]

/-- The bank that the controller shows at 0x4000 (R202, R212). -/
def State.romBank (s : State) : Nat :=
  if s.params.cartridge.hasRegisters then Config.romBankPred s.params.cartridge s.resets s.cartWrites + 1 else 1

theorem State.one_le_romBank (s : State) : 1 ≤ s.romBank := by
  unfold State.romBank
  split <;> omega

theorem State.romBank_readOnly (s : State) (h : s.params.cartridge = .readOnly) : s.romBank = 1 := by
  rw [State.romBank, h]; rfl

theorem State.romOffset_highWindow (s : State) {addr : Word} (h : 0x4000 ≤ addr.toNat) :
    s.romOffset addr = 0x4000 * s.romBank + (addr.toNat - 0x4000) := by
  have hd : decide (0x4000 ≤ addr.toNat) = true := decide_eq_true h
  unfold State.romOffset State.romBank romBankSize
  rw [hd, Bool.and_true]
  split <;> omega

theorem State.cartWrite_readOnly (s : State) (h : s.params.cartridge = .readOnly) (addr : Word) (v : Byte) :
    s.cartWrite addr v = s := by
  rw [State.cartWrite, h]; rfl

/-- Settles O21: the overlay, the two windows, and writes below 0x8000. -/
theorem theBootOverlayAndItsUnmapping : Obligations.TheBootOverlayAndItsUnmapping := by
  unfold Obligations.TheBootOverlayAndItsUnmapping
  refine ⟨?_, ?_, ?_, ?_⟩
  · intro s addr v n h
    obtain ⟨cartWrites, he⟩ := s.cartWrite_shape addr v
    refine ⟨fun hb => s.byteAt_overlay hb h n, fun hb => s.byteAt_lowWindow (.inl hb) (by omega) n, ?_,
      s.write_bootAddr v, State.byteAt_lowWindow _ (.inl rfl) (by omega) n⟩
    rw [s.write_romWindow (by omega), he]
  · intro s addr n h1 h2
    exact s.byteAt_lowWindow (.inr h1) (by omega) n
  · intro s
    refine ⟨s.romBank, s.one_le_romBank, s.romBank_readOnly, fun addr n h1 h2 => ?_⟩
    rw [s.byteAt_romWindow (by omega), s.romByte_cartridge (.inr (by omega)), s.romOffset_highWindow h1]
  · intro s addr v
    refine ⟨s.write_rom addr v, fun hro h => ?_⟩
    rw [s.write_romWindow (by omega), s.cartWrite_readOnly hro]

end Sys2Proof.Machine
end

section
/-! SUPPORT. Instructions that store nothing leave the bus alone (R219); no step writes ROM, and only the reset event
changes a parameter or maps the overlay again (R208, R212, R1131). -/

namespace Sys2Proof.Machine

open Sys2Proof Sys2Proof.Claims

/-! ### Instructions without a memory write (R219) -/

theorem BusIs.refl (s : State) : BusIs s s where
  ie := rfl
  iF := rfl
  bootMapped := rfl
  cartWrites := rfl
  ioAnswers := rfl
  ramAnswers := rfl
  bytes _ _ := rfl

/-- Of the operations of an instruction only a write reaches the bus. -/
theorem busIs_preservedBy {ps : List Part} (hps : .memory ∉ ps) (s : State) : PreservedBy ps (BusIs s) where
  tick h := { h with }
  charge _ h := { h with }
  setF _ h := { h with }
  setR8 r _ h := by cases r <;> exact { h with }
  memory hm := absurd hm hps
  sp _ _ _ h := { h with }
  pc _ _ _ h := { h with }
  ime _ _ _ h := { h with }
  imeDelay _ _ _ h := { h with }
  haltState _ _ _ h := { h with }
  haltBug _ _ _ h := { h with }

/-- Settles O58: `BusIs` survives every instruction outside R219's list. -/
theorem onlyStoringInstructionsChangeMemory : Obligations.OnlyStoringInstructionsChangeMemory := by
  unfold Obligations.OnlyStoringInstructionsChangeMemory
  intro i s t hw hm ht
  have hi : i ≠ .prefixCb := by rintro rfl; exact absurd hw (by decide)
  exact (exec_preserves hi (busIs_preservedBy hm s) (BusIs.refl s)).of_next ht

/-! ### ROM, the parameters and the overlay over a step -/

/-- The machine's ROM and parameters are as in `s`, and its overlay is unmapped if it was so in `s`. -/
structure KeepsRomAndParams (s t : State) : Prop where
  rom : t.rom = s.rom
  params : t.params = s.params
  staysUnmapped : s.bootMapped = false → t.bootMapped = false

theorem KeepsRomAndParams.refl (s : State) : KeepsRomAndParams s s where
  rom := rfl
  params := rfl
  staysUnmapped := id

theorem KeepsRomAndParams.write {s t : State} (h : KeepsRomAndParams s t) (addr : Word) (v : Byte) :
    KeepsRomAndParams s (t.write addr v) where
  rom := (t.write_rom addr v).trans h.rom
  params := (t.write_params addr v).trans h.params
  staysUnmapped hs := by
    by_cases hb : addr = bootAddr
    · subst hb; rfl
    · rw [t.write_bootMapped hb]; exact h.staysUnmapped hs

/-- No operation of an instruction writes ROM, changes a parameter or maps the overlay. -/
theorem keepsRomAndParams_preservedBy (ps : List Part) (s : State) : PreservedBy ps (KeepsRomAndParams s) where
  tick h := { h with }
  charge _ h := { h with }
  setF _ h := { h with }
  setR8 r _ h := by cases r <;> exact { h with }
  memory _ _ addr v h := h.write addr v
  sp _ _ _ h := { h with }
  pc _ _ _ h := { h with }
  ime _ _ _ h := { h with }
  imeDelay _ _ _ h := { h with }
  haltState _ _ _ h := { h with }
  haltBug _ _ _ h := { h with }

/-- Every instruction, the escape alone among them. -/
theorem KeepsRomAndParams.exec {s u t : State} (h : KeepsRomAndParams s u) {i : Instr} (ht : exec i u = .next t) :
    KeepsRomAndParams s t := by
  by_cases hi : i = .prefixCb
  · subst hi
    have hsec : Answers .prefixCb u (KeepsRomAndParams s) :=
      execSecondary_preserves (keepsRomAndParams_preservedBy [.memory] s) (s := u.fetched) u.fetchByte { h with }
    exact hsec.of_next ht
  · exact (exec_preserves hi (keepsRomAndParams_preservedBy (writes i) s) h).of_next ht

theorem KeepsRomAndParams.dispatch {s u : State} (h : KeepsRomAndParams s u) (k : Interrupt) :
    KeepsRomAndParams s (u.dispatch k) := by
  have hpush : KeepsRomAndParams s (u.push16 u.pc) :=
    (keepsRomAndParams_preservedBy [.sp, .memory] s).push16 (by simp) (by simp) u.pc h
  rw [u.dispatch_eq k]
  exact { hpush with }

theorem KeepsRomAndParams.fetchInstr {s u : State} (h : KeepsRomAndParams s u) :
    KeepsRomAndParams s u.enableDelayed.fetchInstr.2 := by
  obtain ⟨_, _, hf⟩ := u.enableDelayed.fetchInstr_shape
  rw [hf, u.enableDelayed_eq]
  exact { h with }

theorem State.envStep_keepsRomAndParams (s : State) : KeepsRomAndParams s s.envStep := by
  obtain ⟨_, _, _, he⟩ := s.envStep_shape
  rw [he]
  exact { KeepsRomAndParams.refl s with }

/-- The environment's move, then idling, a dispatch or an instruction. -/
theorem StepRuns.keepsRomAndParams {s t : State} (ht : StepRuns s t) : KeepsRomAndParams s t := by
  have henv := s.envStep_keepsRomAndParams
  have hwake : KeepsRomAndParams s { s.envStep with haltState := .running } := { henv with }
  obtain ⟨-, -, rfl⟩ | ⟨-, -, rfl⟩ | ⟨u, rfl, ⟨k, -, -, rfl⟩ | ⟨-, hexec⟩⟩ := ht
  · exact { henv with }
  · exact henv
  · exact hwake.dispatch k
  · exact hwake.fetchInstr.exec hexec

/-- Settles O22: the reset event by what it leaves, every other step by `KeepsRomAndParams`. -/
theorem noStepWritesRomOrMapsTheOverlayAgain : Obligations.NoStepWritesRomOrMapsTheOverlayAgain := by
  unfold Obligations.NoStepWritesRomOrMapsTheOverlayAgain
  intro s t hstep
  obtain ⟨r, hr, rfl⟩ | ⟨hno, hruns⟩ := step_cases hstep
  · refine ⟨s.resetEvent_rom r, fun h => absurd (hr.symm.trans h) (by simp), fun r' hr' => ?_⟩
    obtain rfl : r = r' := Option.some.inj (hr.symm.trans hr')
    exact s.resetEvent_params r
  · have h := hruns.keepsRomAndParams
    exact ⟨h.rom, fun _ => ⟨h.params, h.staysUnmapped⟩, fun r hr => absurd (hno.symm.trans hr) (by simp)⟩

end Sys2Proof.Machine
end

section
/-! SUPPORT. The dispatch tables and their inverses: the fields of an opcode (R302, R303), the operand tables read both
ways (R304 to R309), and the entries at the opcodes the rules name (R311 to R314). -/

namespace Sys2Proof

/-! ### Fields of an opcode (R302, R303) -/

/-- A two-bit field has one of four values. -/
theorem bitVec2_cases (x : BitVec 2) : x = 0#2 ∨ x = 1#2 ∨ x = 2#2 ∨ x = 3#2 := by
  revert x
  decide

/-- What holds of the eight values of a three-bit field holds of the field. -/
theorem forall_bitVec3 {P : BitVec 3 → Prop} (h0 : P 0#3) (h1 : P 1#3) (h2 : P 2#3) (h3 : P 3#3) (h4 : P 4#3)
    (h5 : P 5#3) (h6 : P 6#3) (h7 : P 7#3) (y : BitVec 3) : P y := by
  obtain rfl | rfl | rfl | rfl | rfl | rfl | rfl | rfl := bitVec3_cases y <;> assumption

@[simp] theorem fieldX_opXyz (x : BitVec 2) (y z : BitVec 3) : fieldX (opXyz x y z) = x := by
  revert x y z; decide

@[simp] theorem fieldY_opXyz (x : BitVec 2) (y z : BitVec 3) : fieldY (opXyz x y z) = y := by
  revert x y z; decide

@[simp] theorem fieldZ_opXyz (x : BitVec 2) (y z : BitVec 3) : fieldZ (opXyz x y z) = z := by
  revert x y z; decide

/-- An opcode is its three fields. -/
@[simp] theorem opXyz_fields (op : Byte) : opXyz (fieldX op) (fieldY op) (fieldZ op) = op := by
  revert op; decide

/-! ### The operand tables, both ways (R304) -/

/-- Table `r8` read backwards, its `[HL]` entry among them (R304). -/
def R8.code : R8 → BitVec 3
  | .reg r => r.code
  | .hl => hlCode

@[simp] theorem r8Table_code (r : Reg8) : r8Table r.code = .reg r := by cases r <;> rfl

@[simp] theorem r8Table_hlCode : r8Table hlCode = .hl := rfl

theorem R8.code_r8Table : ∀ z, (r8Table z).code = z := forall_bitVec3 rfl rfl rfl rfl rfl rfl rfl rfl

/-! ### The operations of tables `alu` and `rot` encoded (R308, R309) -/

theorem encode_aluR (r : Reg8) : ∀ y, encode (aluR y r) = [opXyz 2 y r.code] :=
  forall_bitVec3 rfl rfl rfl rfl rfl rfl rfl rfl

theorem encode_aluHl : ∀ y, encode (aluHl y) = [opXyz 2 y hlCode] :=
  forall_bitVec3 rfl rfl rfl rfl rfl rfl rfl rfl

theorem encode_rotR (r : Reg8) : ∀ y, encode (rotR y r) = cbBytes 0 y r.code :=
  forall_bitVec3 rfl rfl rfl rfl rfl rfl rfl rfl

theorem encode_rotHl : ∀ y, encode (rotHl y) = cbBytes 0 y hlCode :=
  forall_bitVec3 rfl rfl rfl rfl rfl rfl rfl rfl

theorem wellFormed_aluR (r : Reg8) : ∀ y, (aluR y r).wellFormed = true :=
  forall_bitVec3 rfl rfl rfl rfl rfl rfl rfl rfl

theorem wellFormed_aluHl : ∀ y, (aluHl y).wellFormed = true :=
  forall_bitVec3 rfl rfl rfl rfl rfl rfl rfl rfl

theorem wellFormed_rotR (r : Reg8) : ∀ y, (rotR y r).wellFormed = true :=
  forall_bitVec3 rfl rfl rfl rfl rfl rfl rfl rfl

theorem wellFormed_rotHl : ∀ y, (rotHl y).wellFormed = true :=
  forall_bitVec3 rfl rfl rfl rfl rfl rfl rfl rfl

/-! ### The entries of the tables (R311 to R314) -/

theorem primary_ldRR (dst r : Reg8) : primary (opXyz 1 dst.code r.code) = .done (.ldRR dst r) := by
  simp [primary, primary1]

theorem primary_ldRHl (dst : Reg8) : primary (opXyz 1 dst.code hlCode) = .done (.ldRHl dst) := by
  simp [primary, primary1]

theorem primary_ldHlR (r : Reg8) : primary (opXyz 1 hlCode r.code) = .done (.ldHlR r) := by
  simp [primary, primary1]

theorem primary_aluR (y : BitVec 3) (r : Reg8) : primary (opXyz 2 y r.code) = .done (aluR y r) := by
  simp [primary, primary2]

theorem primary_aluHl (y : BitVec 3) : primary (opXyz 2 y hlCode) = .done (aluHl y) := by
  simp [primary, primary2]

theorem primary_rst (y : BitVec 3) : primary (opXyz 3 y 7) = .done (.rst y) := by
  simp [primary, primary3]

theorem primary_illegal {op : Byte} (h : op ∈ illegalOpcodes) : primary op = .done (.illegal op) := by
  fin_cases h <;> rfl

theorem secondary_rotR (y : BitVec 3) (r : Reg8) : secondary (opXyz 0 y r.code) = rotR y r := by simp [secondary]

theorem secondary_rotHl (y : BitVec 3) : secondary (opXyz 0 y hlCode) = rotHl y := by simp [secondary]

theorem secondary_bitR (y : BitVec 3) (r : Reg8) : secondary (opXyz 1 y r.code) = .bitR y r := by simp [secondary]

theorem secondary_bitHl (y : BitVec 3) : secondary (opXyz 1 y hlCode) = .bitHl y := by simp [secondary]

theorem secondary_resR (y : BitVec 3) (r : Reg8) : secondary (opXyz 2 y r.code) = .resR y r := by simp [secondary]

theorem secondary_resHl (y : BitVec 3) : secondary (opXyz 2 y hlCode) = .resHl y := by simp [secondary]

theorem secondary_setR (y : BitVec 3) (r : Reg8) : secondary (opXyz 3 y r.code) = .setR y r := by simp [secondary]

theorem secondary_setHl (y : BitVec 3) : secondary (opXyz 3 y hlCode) = .setHl y := by simp [secondary]

end Sys2Proof
end

section
/-! SUPPORT. Encode, then decode: the tables give every well-formed instruction at the opcode its rule names. -/

namespace Sys2Proof

/-! ### The decoder by the entry of the first byte (R301) -/

theorem decode_done {op : Byte} {i : Instr} (h : primary op = .done i) (rest : List Byte) :
    decode (op :: rest) = .ok (i, rest) := by
  simp only [decode, h]

theorem decode_imm8 {op : Byte} {f : Byte → Instr} (h : primary op = .imm8 f) (n : Byte) (rest : List Byte) :
    decode (op :: n :: rest) = .ok (f n, rest) := by
  simp only [decode, h]

theorem decode_imm16 {op : Byte} {f : Word → Instr} (h : primary op = .imm16 f) (lo hi : Byte) (rest : List Byte) :
    decode (op :: lo :: hi :: rest) = .ok (f (joinBytes hi lo), rest) := by
  simp only [decode, h]

/-- The immediate in memory order (R310). -/
theorem decode_immBytes {op : Byte} {f : Word → Instr} (h : primary op = .imm16 f) (v : Word) (rest : List Byte) :
    decode (op :: immBytes v ++ rest) = .ok (f v, rest) := by
  have hd := decode_imm16 h (loByte v) (hiByte v) rest
  rwa [joinBytes_hiByte_loByte] at hd

theorem decode_escape {op : Byte} (h : primary op = .escape) (op2 : Byte) (rest : List Byte) :
    decode (op :: op2 :: rest) = .ok (secondary op2, rest) := by
  simp only [decode, h]

theorem primary_escape : primary 0xCB#8 = .escape := rfl

theorem decode_cbBytes {x : BitVec 2} {y z : BitVec 3} {i : Instr} (h : secondary (opXyz x y z) = i)
    (rest : List Byte) : decode (cbBytes x y z ++ rest) = .ok (i, rest) :=
  h ▸ decode_escape primary_escape (opXyz x y z) rest

/-! ### Every instruction -/

/-- Each instruction by the format of its encoding (R301). -/
theorem decode_encode {i : Instr} (hw : i.wellFormed = true) (rest : List Byte) :
    decode (encode i ++ rest) = .ok (i, rest) := by
  cases i
  case prefixCb => exact absurd hw (by decide)
  case illegal op => exact decode_done (primary_illegal (by simpa [Instr.wellFormed] using hw)) rest
  -- one byte
  case ldABc | ldADe | ldBcA | ldDeA | ldhAC | ldhCA | ldAHli | ldAHld | ldHliA | ldHldA | ldSpHl | popAf | addHl
      | adcHl | subHl | sbcHl | andHl | xorHl | orHl | cpHl | incHl | decHl | daa | cpl | scf | ccf | rlca | rrca
      | rla | rra | jpHl | ret | reti | nop | halt | di | ei =>
    exact decode_done rfl rest
  case ldRR dst r => exact decode_done (primary_ldRR dst r) rest
  case ldRHl dst => exact decode_done (primary_ldRHl dst) rest
  case ldHlR r => exact decode_done (primary_ldHlR r) rest
  case addR r | adcR r | subR r | sbcR r | andR r | xorR r | orR r | cpR r => exact decode_done (primary_aluR _ r) rest
  case incR r | decR r => exact decode_done (by cases r <;> rfl) rest
  case addHlRp rr | incRp rr | decRp rr | push rr | pop rr => exact decode_done (by cases rr <;> rfl) rest
  case retCc cc => exact decode_done (by cases cc <;> rfl) rest
  case rst y => exact decode_done (primary_rst y) rest
  -- an immediate byte
  case ldHlN n | ldhAA8 n | ldhA8A n | addN n | adcN n | subN n | sbcN n | andN n | xorN n | orN n | cpN n | addSpE n
      | ldHlSpE n | jr n | stop n =>
    exact decode_imm8 rfl n rest
  case ldRN dst n => exact decode_imm8 (f := .ldRN dst) (by cases dst <;> rfl) n rest
  case jrCc cc e => exact decode_imm8 (f := .jrCc cc) (by cases cc <;> rfl) e rest
  -- an immediate word
  case ldAA16 v | ldA16A v | ldA16Sp v | jp v | call v => exact decode_immBytes rfl v rest
  case ldRpN rr v => exact decode_immBytes (f := .ldRpN rr) (by cases rr <;> rfl) v rest
  case jpCc cc v => exact decode_immBytes (f := .jpCc cc) (by cases cc <;> rfl) v rest
  case callCc cc v => exact decode_immBytes (f := .callCc cc) (by cases cc <;> rfl) v rest
  -- a pair
  case rlcR r | rrcR r | rlR r | rrR r | slaR r | sraR r | swapR r | srlR r =>
    exact decode_cbBytes (secondary_rotR _ r) rest
  case rlcHl | rrcHl | rlHl | rrHl | slaHl | sraHl | swapHl | srlHl => exact decode_cbBytes (secondary_rotHl _) rest
  case bitR u3 r => exact decode_cbBytes (secondary_bitR u3 r) rest
  case bitHl u3 => exact decode_cbBytes (secondary_bitHl u3) rest
  case resR u3 r => exact decode_cbBytes (secondary_resR u3 r) rest
  case resHl u3 => exact decode_cbBytes (secondary_resHl u3) rest
  case setR u3 r => exact decode_cbBytes (secondary_setR u3 r) rest
  case setHl u3 => exact decode_cbBytes (secondary_setHl u3) rest

/-- Settles O2: decode after encode. -/
theorem decodingAnEncodedInstructionGivesItBack : Obligations.DecodingAnEncodedInstructionGivesItBack := by
  unfold Obligations.DecodingAnEncodedInstructionGivesItBack
  exact fun _ rest hw => decode_encode hw rest

end Sys2Proof
end

section
/-! SUPPORT. Decode, then encode: what each entry of the tables stands for, what the decoder can answer, and the lengths
and the illegal opcodes of the primary table. -/

namespace Sys2Proof

open Sys2Proof.Claims Sys2Proof.Laws.EncodeLength

/-! ### What an entry stands for -/

/-- The instructions of an opcode's entry are well-formed, and their encodings are the opcode and the immediates. -/
inductive Entry.Reads (op : Byte) : Entry → Prop
  | done {i : Instr} (enc : encode i = [op]) (wf : i.wellFormed = true) : Reads op (.done i)
  | imm8 {f : Byte → Instr} (enc : ∀ n, encode (f n) = [op, n]) (wf : ∀ n, (f n).wellFormed = true) :
      Reads op (.imm8 f)
  | imm16 {f : Word → Instr} (enc : ∀ v, encode (f v) = op :: immBytes v) (wf : ∀ v, (f v).wellFormed = true) :
      Reads op (.imm16 f)
  | escape (enc : op = 0xCB#8) : Reads op .escape

/-- Row `x = 0` of R312, by `z` and then `y`. -/
theorem primary_reads_x0 : ∀ z y, (primary (opXyz 0 y z)).Reads (opXyz 0 y z) := by
  refine forall_bitVec3 ?z0 ?z1 ?z2 ?z3 ?z4 ?z5 ?z6 ?z7
  case z2 | z3 | z4 | z5 | z7 => apply forall_bitVec3 <;> exact .done rfl rfl
  case z6 => apply forall_bitVec3 <;> exact .imm8 (fun _ => rfl) (fun _ => rfl)
  case z0 =>
    refine forall_bitVec3 ?y0 ?y1 ?y2 ?y3 ?y4 ?y5 ?y6 ?y7
    case y0 => exact .done rfl rfl
    case y1 => exact .imm16 (fun _ => rfl) (fun _ => rfl)
    case y2 | y3 | y4 | y5 | y6 | y7 => exact .imm8 (fun _ => rfl) (fun _ => rfl)
  case z1 =>
    refine forall_bitVec3 ?y0 ?y1 ?y2 ?y3 ?y4 ?y5 ?y6 ?y7
    case y0 | y2 | y4 | y6 => exact .imm16 (fun _ => rfl) (fun _ => rfl)
    case y1 | y3 | y5 | y7 => exact .done rfl rfl

/-- Row `x = 1` of R312, by the two operands. -/
theorem primary_reads_x1 (z y : BitVec 3) : (primary (opXyz 1 y z)).Reads (opXyz 1 y z) := by
  cases hy : r8Table y <;> cases hz : r8Table z <;> rw [← R8.code_r8Table y, ← R8.code_r8Table z, hy, hz]
  case reg.reg dst r => exact primary_ldRR dst r ▸ .done rfl rfl
  case reg.hl dst => exact primary_ldRHl dst ▸ .done rfl rfl
  case hl.reg r => exact primary_ldHlR r ▸ .done rfl rfl
  case hl.hl => exact .done rfl rfl

/-- Row `x = 2` of R312, by the operand. -/
theorem primary_reads_x2 (z y : BitVec 3) : (primary (opXyz 2 y z)).Reads (opXyz 2 y z) := by
  cases hz : r8Table z <;> rw [← R8.code_r8Table z, hz]
  case reg r => exact primary_aluR y r ▸ .done (encode_aluR r y) (wellFormed_aluR r y)
  case hl => exact primary_aluHl y ▸ .done (encode_aluHl y) (wellFormed_aluHl y)

/-- Row `x = 3` of R312, by `z` and then `y`. -/
theorem primary_reads_x3 : ∀ z y, (primary (opXyz 3 y z)).Reads (opXyz 3 y z) := by
  refine forall_bitVec3 ?z0 ?z1 ?z2 ?z3 ?z4 ?z5 ?z6 ?z7
  case z1 | z7 => apply forall_bitVec3 <;> exact .done rfl rfl
  case z6 => apply forall_bitVec3 <;> exact .imm8 (fun _ => rfl) (fun _ => rfl)
  case z0 =>
    refine forall_bitVec3 ?y0 ?y1 ?y2 ?y3 ?y4 ?y5 ?y6 ?y7
    case y0 | y1 | y2 | y3 => exact .done rfl rfl
    case y4 | y5 | y6 | y7 => exact .imm8 (fun _ => rfl) (fun _ => rfl)
  case z2 =>
    refine forall_bitVec3 ?y0 ?y1 ?y2 ?y3 ?y4 ?y5 ?y6 ?y7
    case y4 | y6 => exact .done rfl rfl
    case y0 | y1 | y2 | y3 | y5 | y7 => exact .imm16 (fun _ => rfl) (fun _ => rfl)
  case z3 =>
    refine forall_bitVec3 ?y0 ?y1 ?y2 ?y3 ?y4 ?y5 ?y6 ?y7
    case y0 => exact .imm16 (fun _ => rfl) (fun _ => rfl)
    case y1 => exact .escape rfl
    case y2 | y3 | y4 | y5 | y6 | y7 => exact .done rfl rfl
  case z4 =>
    refine forall_bitVec3 ?y0 ?y1 ?y2 ?y3 ?y4 ?y5 ?y6 ?y7
    case y0 | y1 | y2 | y3 => exact .imm16 (fun _ => rfl) (fun _ => rfl)
    case y4 | y5 | y6 | y7 => exact .done rfl rfl
  case z5 =>
    refine forall_bitVec3 ?y0 ?y1 ?y2 ?y3 ?y4 ?y5 ?y6 ?y7
    case y1 => exact .imm16 (fun _ => rfl) (fun _ => rfl)
    case y0 | y2 | y3 | y4 | y5 | y6 | y7 => exact .done rfl rfl

/-- The primary table, row by row (R312). -/
theorem primary_reads (op : Byte) : (primary op).Reads op := by
  rw [← opXyz_fields op]
  generalize fieldX op = x
  obtain rfl | rfl | rfl | rfl := bitVec2_cases x
  · exact primary_reads_x0 _ _
  · exact primary_reads_x1 _ _
  · exact primary_reads_x2 _ _
  · exact primary_reads_x3 _ _

/-- The secondary table, by the operand and the row (R313): every byte behind the escape is an instruction. -/
theorem secondary_reads (op2 : Byte) : encode (secondary op2) = [0xCB#8, op2] ∧ (secondary op2).wellFormed = true := by
  rw [← opXyz_fields op2]
  generalize fieldX op2 = x, fieldY op2 = y, fieldZ op2 = z
  cases hz : r8Table z <;> rw [← R8.code_r8Table z, hz]
  case reg r =>
    obtain rfl | rfl | rfl | rfl := bitVec2_cases x
    · exact secondary_rotR y r ▸ ⟨encode_rotR r y, wellFormed_rotR r y⟩
    · exact secondary_bitR y r ▸ ⟨rfl, rfl⟩
    · exact secondary_resR y r ▸ ⟨rfl, rfl⟩
    · exact secondary_setR y r ▸ ⟨rfl, rfl⟩
  case hl =>
    obtain rfl | rfl | rfl | rfl := bitVec2_cases x
    · exact secondary_rotHl y ▸ ⟨encode_rotHl y, wellFormed_rotHl y⟩
    · exact secondary_bitHl y ▸ ⟨rfl, rfl⟩
    · exact secondary_resHl y ▸ ⟨rfl, rfl⟩
    · exact secondary_setHl y ▸ ⟨rfl, rfl⟩

/-! ### What the decoder answers -/

/-- The five forms of a list that decodes: its first byte's entry with the immediates the entry takes, or the escape
alone. -/
theorem decode_cases {op : Byte} {more rest : List Byte} {i : Instr} (h : decode (op :: more) = .ok (i, rest)) :
    (primary op = .done i ∧ more = rest) ∨
    (∃ f n, primary op = .imm8 f ∧ i = f n ∧ more = n :: rest) ∨
    (∃ f lo hi, primary op = .imm16 f ∧ i = f (joinBytes hi lo) ∧ more = lo :: hi :: rest) ∨
    (∃ op2, primary op = .escape ∧ i = secondary op2 ∧ more = op2 :: rest) ∨
    (primary op = .escape ∧ i = .prefixCb ∧ more = [] ∧ rest = []) := by
  simp only [decode] at h
  split at h <;> cases h
  case h_1 he => exact .inl ⟨he, rfl⟩
  case h_2 he => exact .inr (.inl ⟨_, _, he, rfl, rfl⟩)
  case h_3 he => exact .inr (.inr (.inl ⟨_, _, _, he, rfl, rfl⟩))
  case h_4 he => exact .inr (.inr (.inr (.inl ⟨_, he, rfl, rfl⟩)))
  case h_5 he => exact .inr (.inr (.inr (.inr ⟨he, rfl, rfl, rfl⟩)))

/-- What decodes is an encoding before the rest, of a well-formed instruction or the escape alone. -/
theorem encode_of_decode {op : Byte} {more rest : List Byte} {i : Instr} (h : decode (op :: more) = .ok (i, rest)) :
    op :: more = encode i ++ rest ∧ (i = .prefixCb ∨ i.wellFormed = true) := by
  have hr := primary_reads op
  obtain ⟨he, rfl⟩ | ⟨f, n, he, rfl, rfl⟩ | ⟨f, lo, hi, he, rfl, rfl⟩ | ⟨op2, he, rfl, rfl⟩ | ⟨he, rfl, rfl, rfl⟩ :=
    decode_cases h <;> rw [he] at hr
  · obtain ⟨enc, wf⟩ | _ := hr
    exact ⟨by rw [enc]; rfl, .inr wf⟩
  · obtain _ | ⟨enc, wf⟩ := hr
    exact ⟨by rw [enc]; rfl, .inr (wf n)⟩
  · obtain _ | _ | ⟨enc, wf⟩ := hr
    exact ⟨by rw [enc, immBytes, hiByte_joinBytes, loByte_joinBytes]; rfl, .inr (wf _)⟩
  · obtain _ | _ | _ | rfl := hr
    obtain ⟨enc, wf⟩ := secondary_reads op2
    exact ⟨by rw [enc]; rfl, .inr wf⟩
  · obtain _ | _ | _ | rfl := hr
    exact ⟨rfl, .inl rfl⟩

/-- Settles O3: the empty list does not decode, and a first byte's entry gives the rest. -/
theorem encodingADecodedInstructionGivesItsBytesBack : Obligations.EncodingADecodedInstructionGivesItsBytesBack := by
  unfold Obligations.EncodingADecodedInstructionGivesItsBytesBack
  intro bytes i rest h
  cases bytes with
  | nil => exact absurd h (by simp [decode])
  | cons op more => exact (encode_of_decode h).1

/-! ### Lengths (R316) -/

/-- The tables' lengths are the spec's. -/
theorem lengthOf_eq (op : Byte) :
    lengthOf op = if op ∈ threeByteOpcodes then 3 else if op ∈ twoByteOpcodes then 2 else 1 := by
  revert op
  decide

theorem bytesLeft_eq_drop (op b1 b2 : Byte) : bytesLeft op b1 b2 = [op, b1, b2].drop (lengthOf op) := by
  rw [lengthOf_eq, bytesLeft]
  split_ifs <;> rfl

/-- Settles O4: the first byte's entry takes what it needs of the other two. -/
theorem anyThreeBytesDecodeAtTheLengthOfTheFirst : Obligations.AnyThreeBytesDecodeAtTheLengthOfTheFirst := by
  unfold Obligations.AnyThreeBytesDecodeAtTheLengthOfTheFirst
  intro op b1 b2
  have hr := primary_reads op
  rw [bytesLeft_eq_drop, lengthOf]
  cases he : primary op <;> rw [he] at hr
  case done i =>
    obtain ⟨-, wf⟩ | _ := hr
    exact ⟨_, decode_done he _, wf⟩
  case imm8 f =>
    obtain _ | ⟨-, wf⟩ := hr
    exact ⟨_, decode_imm8 he b1 _, wf b1⟩
  case imm16 f =>
    obtain _ | _ | ⟨-, wf⟩ := hr
    exact ⟨_, decode_imm16 he b1 b2 _, wf _⟩
  case escape => exact ⟨_, decode_escape he b1 _, (secondary_reads b1).2⟩

/-! ### The illegal opcodes (R314) -/

theorem illegalByte_iff (op : Byte) : illegalByte op ↔ op ∈ illegalOpcodes := by
  simp [illegalByte, illegalOpcodes]

/-- Settles O5: an illegal opcode is its own encoding, and is well-formed only as one of the eleven. -/
theorem theElevenOpcodesAndNoOthersAreIllegal : Obligations.TheElevenOpcodesAndNoOthersAreIllegal := by
  unfold Obligations.TheElevenOpcodesAndNoOthersAreIllegal
  intro op more i rest h
  obtain ⟨henc, hwf⟩ := encode_of_decode h
  rw [illegalByte_iff]
  refine ⟨⟨?_, fun hop => ?_⟩, ?_⟩
  · rintro rfl
    simpa [Instr.wellFormed] using hwf
  · have hd := decode_done (primary_illegal hop) more
    rw [h] at hd
    exact (Prod.mk.inj (Except.ok.inj hd)).1
  · rintro o rfl
    exact (List.cons.inj henc).1.symm

/-- Settles O1: the decoder run on the eight words. -/
theorem decoderReadsTheSpecsEncodings : Obligations.DecoderReadsTheSpecsEncodings := by
  unfold Obligations.DecoderReadsTheSpecsEncodings
  decide

end Sys2Proof
end

section
/-! SUPPORT. Flags over an instruction: F as each flag computation leaves it obeys its row of R330. -/

namespace Sys2Proof.Machine

open Sys2Proof Sys2Proof.Claims

/-- F goes from `f` to `f'` as the pattern says, and a low nibble of 0 stays 0 (R330, R104). -/
def ObeysPattern (p : FlagEffect × FlagEffect × FlagEffect × FlagEffect) (f f' : Byte) : Prop :=
  p.1.Obeyed (flagZ f) (flagZ f') ∧ p.2.1.Obeyed (flagN f) (flagN f') ∧ p.2.2.1.Obeyed (flagH f) (flagH f') ∧
  p.2.2.2.Obeyed (flagC f) (flagC f') ∧ (f.toNat % 16 = 0 → f'.toNat % 16 = 0)

namespace ObeysPattern

/-- F is not written. -/
theorem keep {f f' : Byte} (h : f' = f) : ObeysPattern (.keep, .keep, .keep, .keep) f f' := by
  subst h
  exact ⟨rfl, rfl, rfl, rfl, id⟩

/-- F is written with four flags, each as its entry says. -/
theorem packF {ez en eh ec : FlagEffect} {f : Byte} {z n hf cy : Bool} (hz : ez.Obeyed (flagZ f) z)
    (hn : en.Obeyed (flagN f) n) (hh : eh.Obeyed (flagH f) hf) (hc : ec.Obeyed (flagC f) cy) :
    ObeysPattern (ez, en, eh, ec) f (maskF (packF z n hf cy)) := by
  simp only [ObeysPattern, maskF_packF, flagZ_packF, flagN_packF, flagH_packF, flagC_packF, packF_low]
  exact ⟨hz, hn, hh, hc, fun _ => trivial⟩

/-- F is written with a byte. -/
theorem computed (f v : Byte) : ObeysPattern (.computed, .computed, .computed, .computed) f (maskF v) :=
  ⟨trivial, trivial, trivial, trivial, fun _ => maskF_low v⟩

end ObeysPattern

@[simp] theorem State.callTo_f (s : State) (target : Word) : (s.callTo target).f = s.f := s.push16_f s.pc

/-- Each instruction by its row of R330. -/
theorem exec_obeysPattern {i : Instr} (s : State) (hw : i.wellFormed = true) :
    Answers i s fun t => ObeysPattern (flagPattern i) s.f t.f := by
  cases i
  case prefixCb => exact absurd hw (by decide)
  case addR | addHl | addN | adcR | adcHl | adcN => exact ⟨_, rfl, .packF trivial rfl trivial trivial⟩
  case subR | subHl | subN | sbcR | sbcHl | sbcN | cpR | cpHl | cpN =>
    exact ⟨_, rfl, .packF trivial rfl trivial trivial⟩
  case andR | andHl | andN => exact ⟨_, rfl, .packF trivial rfl rfl rfl⟩
  case xorR | xorHl | xorN | orR | orHl | orN => exact ⟨_, rfl, .packF trivial rfl rfl rfl⟩
  case incR | incHl | decR | decHl => exact ⟨_, rfl, .packF trivial rfl trivial rfl⟩
  case daa => exact ⟨_, rfl, .packF trivial rfl rfl trivial⟩
  case cpl => exact ⟨_, rfl, .packF rfl rfl rfl rfl⟩
  case scf => exact ⟨_, rfl, .packF rfl rfl rfl rfl⟩
  case ccf => exact ⟨_, rfl, .packF rfl rfl rfl trivial⟩
  case rlca | rrca | rla | rra => exact ⟨_, rfl, .packF rfl rfl rfl trivial⟩
  case rlcR | rlcHl | rrcR | rrcHl | rlR | rlHl | rrR | rrHl | slaR | slaHl | sraR | sraHl | srlR | srlHl =>
    exact ⟨_, rfl, .packF trivial rfl rfl trivial⟩
  case swapR | swapHl => exact ⟨_, rfl, .packF trivial rfl rfl rfl⟩
  case bitR | bitHl => exact ⟨_, rfl, .packF trivial rfl rfl rfl⟩
  case addHlRp => exact ⟨_, rfl, .packF rfl rfl trivial trivial⟩
  case addSpE | ldHlSpE => exact ⟨_, rfl, .packF rfl rfl trivial trivial⟩
  case popAf => exact ⟨_, rfl, .computed _ _⟩
  case halt =>
    show ∃ t, execHalt s = .next t ∧ _
    unfold execHalt
    split <;> exact ⟨_, rfl, .keep rfl⟩
  case jpCc | jrCc | callCc | retCc => refine ⟨_, rfl, .keep ?_⟩; split <;> simp
  all_goals exact ⟨_, rfl, .keep (by simp)⟩

/-- Settles O56: each instruction by its row, of the one state it answers. -/
theorem everyInstructionObeysItsFlagPattern : Obligations.EveryInstructionObeysItsFlagPattern := by
  unfold Obligations.EveryInstructionObeysItsFlagPattern
  intro i s t hw ht
  exact (exec_obeysPattern s hw).of_next ht

end Sys2Proof.Machine
end

section
/-! SUPPORT. The step by the CPU's state (R400, R403 to R405), and its fetch with and without a pending halt bug (R400 to
R402). -/

namespace Sys2Proof.Machine

open Sys2Proof Sys2Proof.Claims

/-! ### The step by the CPU's state -/

theorem stepFrom_running {s : State} (h : s.haltState = .running) (wake : Bool) : stepFrom wake s = runStep s := by
  simp only [stepFrom, h]

theorem stepFrom_halted {s : State} (h : s.haltState = .halted) (wake : Bool) :
    stepFrom wake s = if s.pending = 0#5 then .next (s.charge 1) else runStep { s with haltState := .running } := by
  simp only [stepFrom, h]

theorem stepFrom_stopped {s : State} (h : s.haltState = .stopped) (wake : Bool) :
    stepFrom wake s = if wake then runStep { s with haltState := .running } else .next s := by
  simp only [stepFrom, h]

theorem stepFrom_faulted {s : State} {op : Byte} {addr : Word} (h : s.haltState = .faulted op addr) (wake : Bool) :
    stepFrom wake s = .fault (.illegalOpcode op addr) := by
  simp only [stepFrom, h]

@[simp] theorem State.envStep_haltState (s : State) : s.envStep.haltState = s.haltState := by
  obtain ⟨iF, mem, env, h⟩ := s.envStep_shape
  rw [h]

/-- The environment does not look at the CPU's state. -/
theorem State.envStep_with_haltState (s : State) (h : HaltState) :
    State.envStep { s with haltState := h } = { s.envStep with haltState := h } := by
  have hreq (ks : List Interrupt) (u : State) :
      ks.foldl State.request { u with haltState := h } = { ks.foldl State.request u with haltState := h } :=
    List.foldl_hom (fun v : State => { v with haltState := h }) fun _ _ => rfl
  have hcell (u : State) (x : Host.Cell) :
      State.envCell { u with haltState := h } x = { u.envCell x with haltState := h } := by
    unfold State.envCell
    split <;> rfl
  have hcells (xs : List Host.Cell) (u : State) :
      xs.foldl State.envCell { u with haltState := h } = { xs.foldl State.envCell u with haltState := h } :=
    List.foldl_hom (fun v : State => { v with haltState := h }) hcell
  cases he : s.env with
  | nil => simp only [State.envStep, he]
  | cons m rest =>
    simp only [State.envStep, he, State.applyMove]
    rw [hreq m.requests { s with env := rest }, hcells]

/-- A CPU that is not faulted has the reset event due that it would have running (R1104). -/
theorem State.resetDue_running {s : State} (h : ∀ op addr, s.haltState ≠ .faulted op addr) :
    State.resetDue { s with haltState := .running } = s.resetDue := by
  unfold State.resetDue
  cases hs : s.haltState
  case faulted op addr => exact absurd hs (h op addr)
  all_goals cases s.env <;> rfl

/-- The step of a waking CPU's state, were it running. -/
theorem step_running_of_noReset {s : State} (hr : s.resetDue = none) (h : ∀ op addr, s.haltState ≠ .faulted op addr) :
    step { s with haltState := .running } = runStep { s.envStep with haltState := .running } := by
  rw [step_of_noReset ((State.resetDue_running h).trans hr), s.envStep_with_haltState, stepFrom_running rfl]

/-- Settles O8: the halted CPU's equation. -/
theorem aHaltedCpuIdlesUntilARequestIsPending : Obligations.AHaltedCpuIdlesUntilARequestIsPending := by
  unfold Obligations.AHaltedCpuIdlesUntilARequestIsPending
  rintro s u hr rfl hu
  have hs : s.haltState = .halted := s.envStep_haltState ▸ hu
  rw [step_of_noReset hr, stepFrom_halted hu]
  refine ⟨fun hp => if_pos hp, fun hp => ?_⟩
  rw [if_neg hp, step_running_of_noReset hr (by simp [hs])]

/-- Settles O9: the stopped CPU's equation. -/
theorem aStoppedCpuWaitsForStopWake : Obligations.AStoppedCpuWaitsForStopWake := by
  unfold Obligations.AStoppedCpuWaitsForStopWake
  intro s hr hs
  rw [step_of_noReset hr, stepFrom_stopped (s.envStep_haltState.trans hs)]
  refine ⟨fun hw => by simp [hw], fun hw => ?_⟩
  rw [if_pos hw, step_running_of_noReset hr (by simp [hs])]

/-- Settles O10: no reset event is due in the faulted state (R1104), and the CPU's part of the step is the fault. -/
theorem aFaultedCpuHasNoStep : Obligations.AFaultedCpuHasNoStep := by
  unfold Obligations.AFaultedCpuHasNoStep
  intro s op addr hs
  have hr : s.resetDue = none := by simp only [State.resetDue, hs]
  rw [step_of_noReset hr, stepFrom_faulted (s.envStep_haltState.trans hs)]

/-! ### The instruction part of the step -/

/-- Nothing is dispatched with nothing pending (R1109). -/
theorem State.highestPriority_of_pending_zero {s : State} (h : s.pending = 0#5) : s.highestPriority = none := by
  simp [State.highestPriority, h]

/-- A running step that dispatches nothing is an instruction (R400, R1110). -/
theorem runStep_of_noDispatch {s : State} (h : s.ime = false ∨ s.pending = 0#5) : runStep s = instrStep s := by
  obtain h | h := h
  · simp only [runStep, h]
  · have hp := State.highestPriority_of_pending_zero h
    cases hi : s.ime <;> simp only [runStep, hi, hp]

/-! ### The fetch is the decoder on the bytes it reads (R400 to R402) -/

theorem add_one_add_one (v : Word) : v + 1#16 + 1#16 = v + 2#16 := BitVec.add_assoc ..

theorem State.fetched_fetched (s : State) : s.fetched.fetched = { s with pc := s.pc + 2#16, reads := s.reads + 2 } := by
  rw [← add_one_add_one]
  rfl

theorem State.opcodeFetched_of_noBug {s : State} (h : s.haltBugPending = false) :
    s.opcodeFetched = { s with pc := s.pc + 1#16, start := s.pc, reads := s.reads + 1 } := by
  rw [State.opcodeFetched, if_neg (by simp [h])]
  rfl

theorem State.opcodeFetched_of_bug {s : State} (h : s.haltBugPending = true) :
    s.opcodeFetched = { s with start := s.pc, reads := s.reads + 1, haltBugPending := false } := by
  rw [State.opcodeFetched, if_pos h]
  rfl

/-- The bytes the fetch of an instruction reads, the longest instruction's (R300). -/
def State.fetchBytes (s : State) : List Byte :=
  [s.fetchByte, s.opcodeFetched.fetchByte, s.opcodeFetched.fetched.fetchByte]

theorem State.fetchBytes_of_noBug {s : State} (h : s.haltBugPending = false) : s.fetchBytes = bytesAtPc s := by
  rw [State.fetchBytes, State.opcodeFetched_of_noBug h, bytesAtPc, ← add_one_add_one]
  rfl

theorem State.fetchBytes_of_bug {s : State} (h : s.haltBugPending = true) : s.fetchBytes = bytesAtPcRepeated s := by
  rw [State.fetchBytes, State.opcodeFetched_of_bug h]
  rfl

/-- After the opcode fetch, PC and the index of the next draw move past the instruction's other bytes. -/
theorem State.fetchInstr_of_decode {s : State} {i : Instr} {rest : List Byte}
    (h : decode s.fetchBytes = .ok (i, rest)) :
    s.fetchInstr =
      (i, { s.opcodeFetched with
              pc := s.opcodeFetched.pc + BitVec.ofNat 16 ((encode i).length - 1)
              reads := s.opcodeFetched.reads + ((encode i).length - 1) }) := by
  have hlen : (encode i).length = 3 - rest.length := by
    have hl := congrArg List.length (encode_of_decode h).1
    simp only [List.length_append, List.length_cons, List.length_nil] at hl
    omega
  rw [hlen, State.fetchInstr]
  unfold State.fetchBytes at h
  generalize s.opcodeFetched = u at *
  obtain ⟨he, rfl⟩ | ⟨f, n, he, rfl, hm⟩ | ⟨f, lo, hi, he, rfl, hm⟩ | ⟨op2, he, rfl, hm⟩ | ⟨-, -, hm, -⟩ := decode_cases h
  · simp [he, completeEntry]
  · cases hm
    rw [he]
    rfl
  · cases hm
    rw [he, completeEntry, u.fetched_fetched]
    rfl
  · cases hm
    rw [he]
    rfl
  · cases hm

theorem one_le_length_encode (i : Instr) : 1 ≤ (encode i).length := by
  cases i <;> exact Nat.le_add_left 1 _

/-- A running step that dispatches nothing runs what the bytes it reads decode to (R400). -/
theorem step_of_decode {s : State} {i : Instr} {rest : List Byte} (hr : s.resetDue = none)
    (hrun : s.envStep.haltState = .running) (hd : s.envStep.ime = false ∨ s.envStep.pending = 0#5)
    (h : decode s.envStep.enableDelayed.fetchBytes = .ok (i, rest)) :
    step s = exec i
      { s.envStep.enableDelayed.opcodeFetched with
        pc := s.envStep.enableDelayed.opcodeFetched.pc + BitVec.ofNat 16 ((encode i).length - 1)
        reads := s.envStep.enableDelayed.opcodeFetched.reads + ((encode i).length - 1) } := by
  rw [step_of_noReset hr, stepFrom_running hrun, runStep_of_noDispatch hd, instrStep, State.fetchInstr_of_decode h]

@[simp] theorem State.enableDelayed_haltBugPending (s : State) :
    s.enableDelayed.haltBugPending = s.haltBugPending := by
  rw [s.enableDelayed_eq]

@[simp] theorem State.bytesAtPc_enableDelayed (s : State) : bytesAtPc s.enableDelayed = bytesAtPc s := by
  rw [s.enableDelayed_eq]
  rfl

@[simp] theorem State.bytesAtPcRepeated_enableDelayed (s : State) :
    bytesAtPcRepeated s.enableDelayed = bytesAtPcRepeated s := by
  rw [s.enableDelayed_eq]
  rfl

/-- Settles O6: without the halt bug the opcode fetch is a fetch like the others. -/
theorem aStepRunsTheDecodedInstruction : Obligations.AStepRunsTheDecodedInstruction := by
  unfold Obligations.AStepRunsTheDecodedInstruction
  rintro s u i rest hr rfl hrun hd hbug hdec
  have hb : s.envStep.enableDelayed.haltBugPending = false := by simpa using hbug
  rw [step_of_decode hr hrun hd (by simpa [State.fetchBytes_of_noBug hb] using hdec), State.opcodeFetched_of_noBug hb,
    State.enableDelayed_eq]
  obtain ⟨n, hn⟩ := Nat.exists_eq_add_of_le (one_le_length_encode i)
  simp only [hn, Nat.add_sub_cancel_left, BitVec.ofNat_add, BitVec.add_assoc, Nat.add_assoc]

/-- Settles O7: under the halt bug the opcode fetch leaves PC at the opcode and clears the mark. -/
theorem theHaltBugRepeatsTheOpcodeByte : Obligations.TheHaltBugRepeatsTheOpcodeByte := by
  unfold Obligations.TheHaltBugRepeatsTheOpcodeByte
  rintro s u i rest hr rfl hrun hd hbug hdec
  have hb : s.envStep.enableDelayed.haltBugPending = true := by simpa using hbug
  rw [step_of_decode hr hrun hd (by simpa [State.fetchBytes_of_bug hb] using hdec), State.opcodeFetched_of_bug hb,
    State.enableDelayed_eq]
  obtain ⟨n, hn⟩ := Nat.exists_eq_add_of_le (one_le_length_encode i)
  simp only [hn, Nat.add_sub_cancel_left, Nat.add_assoc]

end Sys2Proof.Machine
end

section
/-! SUPPORT. The environment's move: IF bit by bit, the bus byte by byte (R408). -/

namespace Sys2Proof.Machine

open Sys2Proof Sys2Proof.Claims

theorem Interrupt.getLsbD_shiftLeft_bit (k j : Interrupt) : (1#5 <<< k.bit).getLsbD j.bit = decide (j = k) := by
  cases k <;> cases j <;> rfl

/-- Requests set the bits of their kinds and no other (R1107). -/
theorem State.requests_iF (ks : List Interrupt) (s : State) (k : Interrupt) :
    (ks.foldl State.request s).iF.getLsbD k.bit = (s.iF.getLsbD k.bit || decide (k ∈ ks)) := by
  induction ks generalizing s with
  | nil => simp
  | cons j ks ih =>
    rw [List.foldl_cons, ih, State.request, BitVec.getLsbD_or, j.getLsbD_shiftLeft_bit k]
    simp [Bool.or_assoc]

theorem State.byteAt_requests (ks : List Interrupt) (s : State) (n : Nat) {addr : Word} (h : addr ≠ ifAddr) :
    (ks.foldl State.request s).byteAt n addr = s.byteAt n addr := by
  obtain ⟨iF, he⟩ := State.requests_shape ks s
  rw [he, s.byteAt_iF_congr iF n h]

/-- A cell value goes to its own I/O cell only (R210). -/
theorem State.byteAt_envCell_of_ne (s : State) (x : Host.Cell) (n : Nat) {addr : Word}
    (h : region addr = .io → x.1 ≠ addr.toNat) : (s.envCell x).byteAt n addr = s.byteAt n addr := by
  unfold State.envCell
  split
  · next hx =>
    obtain ⟨hlt, hcell⟩ : x.1 < 0x10000 ∧ isIoCell (BitVec.ofNat 16 x.1) = true := by simpa using hx
    have hx1 : (BitVec.ofNat 16 x.1).toNat = x.1 := Nat.mod_eq_of_lt hlt
    have hio := ((isIoCell_iff _).1 hcell).1
    refine s.byteAt_memStore_of_ne x.1 x.2 s.ioAnswers n fun hk => ?_
    obtain rfl : addr = BitVec.ofNat 16 x.1 := memKey_io_inj hio (hk.trans hx1.symm)
    exact h hio hx1.symm
  · rfl

theorem State.byteAt_envCells_of_ne (cells : List Host.Cell) (s : State) (n : Nat) {addr : Word}
    (h : region addr = .io → addr.toNat ∉ cells.map Prod.fst) :
    (cells.foldl State.envCell s).byteAt n addr = s.byteAt n addr := by
  induction cells generalizing s with
  | nil => rfl
  | cons x cells ih =>
    simp only [List.map_cons, List.mem_cons, not_or] at h
    rw [List.foldl_cons, ih _ fun hio => (h hio).2, s.byteAt_envCell_of_ne x n fun hio => Ne.symm (h hio).1]

theorem State.byteAt_envCell_self (s : State) (v : Byte) (n : Nat) {addr : Word} (h : CellAddr addr) :
    (s.envCell (addr.toNat, v)).byteAt n addr = v := by
  obtain ⟨hcell, hj⟩ := isIoCell_of_cellAddr h
  have hlt : addr.toNat < 0x10000 := addr.isLt
  rw [State.byteAt_ioCell _ hcell hj, State.envCell, if_pos (by simp [hcell, hlt])]
  exact memByte_memStore_self ..

/-- Settles O13: the requests bit by bit, then the cells byte by byte; of a cell given several values the last one stays. -/
theorem environmentMovesTouchOnlyIfAndIoCells : Obligations.EnvironmentMovesTouchOnlyIfAndIoCells := by
  unfold Obligations.EnvironmentMovesTouchOnlyIfAndIoCells
  rintro s t m rfl
  have hbyte (n : Nat) (addr : Word) (hif : addr ≠ ifAddr) (h : region addr = .io → addr.toNat ∉ m.io.map Prod.fst) :
      (s.applyMove m).byteAt n addr = s.byteAt n addr := by
    rw [State.applyMove, State.byteAt_envCells_of_ne _ _ n h, s.byteAt_requests _ n hif]
  refine ⟨?_, fun k => ?_, fun n addr hio => ?_, fun n addr hcell => ⟨fun before after v hm hlast => ?_, fun hnone => ?_⟩⟩
  · obtain ⟨iF, mem, he⟩ := s.applyMove_shape m
    rw [he]
  · obtain ⟨mem, he⟩ := State.envCells_shape m.io (m.requests.foldl State.request s)
    rw [State.applyMove, he, State.requests_iF]
  · exact hbyte n addr (fun he => hio (he ▸ rfl)) fun h => absurd h hio
  · rw [State.applyMove, hm, List.foldl_append, List.foldl_cons, State.byteAt_envCells_of_ne _ _ n fun _ => hlast,
      State.byteAt_envCell_self _ v n hcell]
  · exact hbyte n addr (by obtain ⟨-, -, hif, -⟩ := hcell; exact hif) fun _ => hnone

end Sys2Proof.Machine
end

section
/-! SUPPORT. The cycle-units of an instruction (R406, R407, R409). -/

namespace Sys2Proof.Machine

open Sys2Proof Sys2Proof.Claims

/-- The model's condition is the spec's (R900). -/
theorem State.cond_eq_holds (s : State) (cc : Cond) : s.cond cc = holds s cc := by
  cases cc <;> simp [State.cond, holds]

/-- The step reports `n` cycle-units and adds them to the total (R409). -/
def Costs (n : Nat) (s t : State) : Prop := t.cycleTotal = s.cycleTotal + n ∧ t.stepCycles = n

/-- An instruction charges its cost last. -/
theorem Costs.charge {s u : State} {n : Nat} (h : u.cycleTotal = s.cycleTotal) : Costs n s (u.charge n) :=
  ⟨congrArg (· + n) h, rfl⟩

/-- A conditional instruction charges by its condition (R407). -/
theorem Costs.ite_cond {s u : State} {cc : Cond} {m n : Nat} (h : u.cycleTotal = s.cycleTotal) :
    Costs (if holds s cc then m else n) s (if s.cond cc then u.charge m else s.charge n) := by
  rw [s.cond_eq_holds]
  split
  · exact .charge h
  · exact .charge rfl

@[simp] theorem State.callTo_cycleTotal (s : State) (target : Word) : (s.callTo target).cycleTotal = s.cycleTotal :=
  s.push16_cycleTotal s.pc

/-- Each instruction that completes charges its row of the table; the illegal one completes no instruction (R1006). -/
theorem exec_costs {i : Instr} (s : State) (hw : i.wellFormed = true) (hi : ∀ op, i ≠ .illegal op) :
    Answers i s (Costs (cost s i) s) := by
  cases i
  case prefixCb => exact absurd hw (by decide)
  case illegal op => exact absurd rfl (hi op)
  case halt =>
    show ∃ t, execHalt s = .next t ∧ _
    unfold execHalt
    split <;> exact ⟨_, rfl, .charge rfl⟩
  case jpCc | jrCc | retCc => exact ⟨_, rfl, .ite_cond rfl⟩
  case callCc => exact ⟨_, rfl, .ite_cond (by simp)⟩
  all_goals exact ⟨_, rfl, .charge (by simp)⟩

/-- Settles O57: an illegal opcode charges nothing, every other instruction its row. -/
theorem everyInstructionCostsWhatTheTableSays : Obligations.EveryInstructionCostsWhatTheTableSays := by
  unfold Obligations.EveryInstructionCostsWhatTheTableSays
  intro i s t hw ht
  by_cases hi : ∀ op, i ≠ .illegal op
  · obtain ⟨htotal, hstep⟩ := (exec_costs s hw hi).of_next ht
    exact ⟨htotal, fun _ => hstep⟩
  · push Not at hi
    obtain ⟨op, rfl⟩ := hi
    obtain rfl := Host.Outcome.next.inj ht
    exact ⟨rfl, fun h => absurd rfl (h op)⟩

end Sys2Proof.Machine
end

section
/-! SUPPORT. Encodings as the numbers of R302 to R310. -/

namespace Sys2Proof

open Sys2Proof.Claims

/-- An opcode is the number `64x + 8y + z` (R302). -/
theorem opXyz_eq_ofNat {x : BitVec 2} {y z : BitVec 3} {op : Nat} (h : 64 * x.toNat + 8 * y.toNat + z.toNat = op) :
    opXyz x y z = BitVec.ofNat 8 op := by
  subst h
  revert x y z
  decide

/-- An opcode is the number `64x + 16p + 8q + z` (R302). -/
theorem opXpqz_eq_ofNat {x p : BitVec 2} {q : Bool} {z : BitVec 3} {op : Nat}
    (h : 64 * x.toNat + 16 * p.toNat + 8 * q.toNat + z.toNat = op) : opXpqz x p q z = BitVec.ofNat 8 op := by
  subst h
  revert x p q z
  decide

@[simp] theorem Reg8.toNat_code (r : Reg8) : r.code.toNat = r8N r := by cases r <;> rfl

@[simp] theorem Rp.toNat_code (rr : Rp) : rr.code.toNat = rpN rr := by cases rr <;> rfl

@[simp] theorem Rp2.toNat_code (rr : Rp2) : rr.code.toNat = rp2N rr := by cases rr <;> rfl

@[simp] theorem Pair.toNat_code (rr : Pair) : rr.code.toNat = pairN rr := by cases rr <;> rfl

/-- A 16-bit immediate as the numbers of its bytes (R310). -/
theorem immBytes_eq (v : Word) : immBytes v = [lowN v, highN v].map (BitVec.ofNat 8) := by
  have hlo : loByte v = BitVec.ofNat 8 (lowN v) := by
    apply BitVec.eq_of_toNat_eq
    simp [loByte_toNat, lowN]
  have hhi : hiByte v = BitVec.ofNat 8 (highN v) := by
    apply BitVec.eq_of_toNat_eq
    have := v.isLt
    simp only [hiByte_toNat, highN, BitVec.toNat_ofNat]
    omega
  simp [immBytes, hlo, hhi]

/-- An encoding of an opcode and an 8-bit immediate. -/
theorem opcode_imm8_eq (op : Nat) (n : Byte) : [BitVec.ofNat 8 op, n] = [op, n.toNat].map (BitVec.ofNat 8) := by
  simp

/-- An encoding of an opcode and a 16-bit immediate. -/
theorem opcode_imm16_eq (op : Nat) (v : Word) :
    BitVec.ofNat 8 op :: immBytes v = [op, lowN v, highN v].map (BitVec.ofNat 8) := by
  rw [immBytes_eq]; rfl

/-- The high page as numbers (R310). -/
theorem highPage_eq_ofNat (n : Byte) : Machine.highPage n = BitVec.ofNat 16 (0xFF00 + n.toNat) := by
  apply BitVec.eq_of_toNat_eq
  simp [Machine.highPage]

/-! ### A word stepped by one -/

theorem toNat_add_one (v : Word) : (v + 1#16).toNat = (v.toNat + 1) % 65536 := BitVec.toNat_add ..

theorem toNat_sub_one (v : Word) : (v - 1#16).toNat = (v.toNat + 65535) % 65536 := by bv_omega

/-! ### The opcodes of loads, stores and the stack by their operands (41_load_store.md) -/

theorem encode_ldRR (dst r : Reg8) : encode (.ldRR dst r) = [0x40 + 8 * r8N dst + r8N r].map (BitVec.ofNat 8) :=
  congrArg (· :: []) (opXyz_eq_ofNat (by simp))

theorem encode_ldRN (dst : Reg8) (n : Byte) :
    encode (.ldRN dst n) = [0x06 + 8 * r8N dst, n.toNat].map (BitVec.ofNat 8) := by
  rw [← opcode_imm8_eq]
  exact congrArg (· :: [n]) (opXyz_eq_ofNat (by simp [Nat.add_comm]))

theorem encode_ldRHl (dst : Reg8) : encode (.ldRHl dst) = [0x46 + 8 * r8N dst].map (BitVec.ofNat 8) :=
  congrArg (· :: []) (opXyz_eq_ofNat (by simp +arith [hlCode]))

theorem encode_ldHlR (r : Reg8) : encode (.ldHlR r) = [0x70 + r8N r].map (BitVec.ofNat 8) :=
  congrArg (· :: []) (opXyz_eq_ofNat (by simp [hlCode]))

theorem encode_ldRpN (rr : Rp) (v : Word) :
    encode (.ldRpN rr v) = [0x01 + 16 * rpN rr, lowN v, highN v].map (BitVec.ofNat 8) := by
  rw [← opcode_imm16_eq]
  exact congrArg (· :: immBytes v) (opXpqz_eq_ofNat (by simp [Nat.add_comm]))

theorem encode_push (rr : Rp2) : encode (.push rr) = [0xC5 + 16 * rp2N rr].map (BitVec.ofNat 8) :=
  congrArg (· :: []) (opXpqz_eq_ofNat (by simp +arith))

theorem encode_pop (rr : Pair) : encode (.pop rr) = [0xC1 + 16 * pairN rr].map (BitVec.ofNat 8) :=
  congrArg (· :: []) (opXpqz_eq_ofNat (by simp +arith))

end Sys2Proof
end

section
/-! SUPPORT. What a form leaves unchanged (`Rest`, `RegisterOnly`, `RpOnly`, `StoresByte`, `Pushes`), closed under the
operations an instruction is made of. The cost is charged last, so each rule speaks of the state before it. -/

namespace Sys2Proof.Machine

open Sys2Proof Sys2Proof.Claims

section

variable {ws : List Reg8} {n : Nat} {s t u : State}

/-! ### The registers and the control state -/

theorem Rest.charge_self (ws : List Reg8) (n : Nat) (s : State) : Rest ws n s (s.charge n) where
  regs _ _ := rfl
  ime := rfl
  imeDelay := rfl
  haltState := rfl
  haltBugPending := rfl
  params := rfl
  start := rfl
  env := rfl
  resets := rfl
  stepCycles := rfl
  cycleTotal := rfl

theorem Rest.setR8 (h : Rest ws n s (t.charge n)) {r : Reg8} (hr : r ∈ ws) (v : Byte) :
    Rest ws n s ((t.setR8 r v).charge n) := by
  have hregs : ∀ q, q ∉ ws → ((t.setR8 r v).charge n).getR8 q = s.getR8 q := fun q hq =>
    (t.getR8_setR8_of_ne v (by rintro rfl; exact hq hr)).trans (h.regs q hq)
  cases r <;> exact { h with regs := hregs }

theorem Rest.write (h : Rest ws n s (t.charge n)) (addr : Word) (v : Byte) :
    Rest ws n s ((t.write addr v).charge n) := by
  have hregs : ∀ q, q ∉ ws → ((t.write addr v).charge n).getR8 q = s.getR8 q := fun q hq =>
    (t.getR8_write addr v q).trans (h.regs q hq)
  obtain ⟨_, _, _, _, _, _, _, _, _, he⟩ := t.write_shape addr v
  rw [he] at hregs ⊢
  exact { h with regs := hregs }

/-! ### Registers only -/

theorem RegisterOnly.charge_self (ws : List Reg8) (n : Nat) (s : State) : RegisterOnly ws n s (s.charge n) where
  rest := .charge_self ws n s
  sp := rfl
  pc := rfl
  bus := { BusIs.refl s with }

theorem RegisterOnly.tick (h : RegisterOnly ws n s (t.charge n)) : RegisterOnly ws n s (t.tick.charge n) where
  rest := { h.rest with }
  sp := h.sp
  pc := h.pc
  bus := { h.bus with }

theorem RegisterOnly.setR8 (h : RegisterOnly ws n s (t.charge n)) {r : Reg8} (hr : r ∈ ws) (v : Byte) :
    RegisterOnly ws n s ((t.setR8 r v).charge n) where
  rest := h.rest.setR8 hr v
  sp := (t.setR8_sp r v).trans h.sp
  pc := (t.setR8_pc r v).trans h.pc
  bus := by cases r <;> exact { h.bus with }

/-- A pair is written register by register (R101). -/
theorem RegisterOnly.setR8_setR8 {r r' : Reg8} (h : RegisterOnly [r, r'] n s (t.charge n)) (v w : Byte) :
    RegisterOnly [r, r'] n s (((t.setR8 r v).setR8 r' w).charge n) :=
  (h.setR8 (by simp) v).setR8 (by simp) w

theorem RegisterOnly.setHl (h : RegisterOnly ws n s (t.charge n)) (hh : .h ∈ ws) (hl : .l ∈ ws) (v : Word) :
    RegisterOnly ws n s ((t.setHl v).charge n) :=
  (h.setR8 hh (hiByte v)).setR8 hl (loByte v)

/-! ### One 16-bit operand -/

/-- A write of a pair writes its two registers. -/
theorem RegisterOnly.rpOnly {rr : Rp} (h : RegisterOnly (rpRegs rr) n s t) (hf : t.f = s.f) : RpOnly rr n s t where
  rest := h.rest
  flags := hf
  sp _ := h.sp
  pc := h.pc
  bus := h.bus

theorem rpOnly_setRp (rr : Rp) (n : Nat) (s : State) (v : Word) : RpOnly rr n s ((s.setRp rr v).charge n) := by
  cases rr
  case bc | de | hl =>
    refine RegisterOnly.rpOnly ?_ rfl
    exact (RegisterOnly.charge_self _ n s).setR8_setR8 (hiByte v) (loByte v)
  case sp =>
    exact
      { rest := { Rest.charge_self [] n s with }
        flags := rfl
        sp := fun hne => absurd rfl hne
        pc := rfl
        bus := { BusIs.refl s with } }

/-! ### A store of one byte -/

/-- A write after reads that change nothing. -/
theorem RegisterOnly.storesByte (h : RegisterOnly ws n s (u.charge n)) (addr : Word) (v : Byte) :
    StoresByte addr v ws n u s ((u.write addr v).charge n) where
  rest := h.rest.write addr v
  sp := (u.write_sp addr v).trans h.sp
  pc := (u.write_pc addr v).trans h.pc
  bus := { BusIs.refl (u.write addr v) with }
  stored hp k := u.byteAt_write_plain hp v k
  others k _ hr := (u.byteAt_write_of_not_reaches v k hr).trans (h.bus.bytes k _)

theorem StoresByte.setR8 {addr : Word} {v : Byte} (h : StoresByte addr v ws n u s (t.charge n)) {r : Reg8}
    (hr : r ∈ ws) (w : Byte) : StoresByte addr v ws n u s ((t.setR8 r w).charge n) := by
  have hrest := h.rest.setR8 hr w
  cases r <;> exact { h with rest := hrest, bus := { h.bus with } }

theorem StoresByte.setHl {addr : Word} {v : Byte} (h : StoresByte addr v ws n u s (t.charge n)) (hh : .h ∈ ws)
    (hl : .l ∈ ws) (w : Word) : StoresByte addr v ws n u s ((t.setHl w).charge n) :=
  (h.setR8 hh (hiByte w)).setR8 hl (loByte w)

/-! ### Two stores at neighbouring addresses -/

/-- Echo RAM is kept 0x2000 below, every other byte at its own address (R203). -/
theorem memKey_eq_ite (addr : Word) :
    memKey addr = if 0xE000 ≤ addr.toNat ∧ addr.toNat < 0xFE00 then addr.toNat - 0x2000 else addr.toNat := by
  split
  · next h => simp only [memKey, (region_echo_iff addr).2 h]
  · next h => exact memKey_not_echo fun he => h ((region_echo_iff addr).1 he)

/-- Neighbouring addresses have different cells, across the borders of echo RAM and the wrap at 0xFFFF too. -/
theorem memKey_succ_ne (addr : Word) : memKey (addr + 1#16) ≠ memKey addr := by
  rw [memKey_eq_ite, memKey_eq_ite, toNat_add_one]
  split_ifs <;> omega

theorem writeReaches_of_plain {addr : Word} (h : (region addr).plain = true) (other : Word) :
    writeReaches addr other = (memKey other == memKey addr) := by
  unfold writeReaches
  cases ha : region addr
  case vram | wram | echo | oam | hram => rfl
  all_goals exact absurd (ha ▸ h) (by decide)

/-- The first of two plain bytes stored in different cells reads back after the second store. -/
theorem State.byteAt_write_write_plain (s : State) {x y : Word} (hx : (region x).plain = true)
    (hy : (region y).plain = true) (hne : memKey x ≠ memKey y) (v w : Byte) (k : Nat) :
    ((s.write x v).write y w).byteAt k x = v := by
  rw [State.byteAt_write_of_not_reaches _ _ _ (by simpa [writeReaches_of_plain hy] using hne),
    s.byteAt_write_plain hx]

theorem State.byteAt_write_write_of_not_reaches (s : State) {x y other : Word} (hx : writeReaches x other = false)
    (hy : writeReaches y other = false) (v w : Byte) (k : Nat) :
    ((s.write x v).write y w).byteAt k other = s.byteAt k other := by
  rw [State.byteAt_write_of_not_reaches _ _ _ hy, State.byteAt_write_of_not_reaches _ _ _ hx]

/-! ### The stack (R529) -/

theorem sub_two_add_one (sp : Word) : sp - 2#16 + 1#16 = sp - 1#16 := by bv_omega

/-- A push, whatever it costs. -/
theorem pushes_push16 (v : Word) (n : Nat) (s : State) : Pushes v n s ((s.push16 v).charge n) := by
  have hrest := ((Rest.charge_self [] n s).write (s.sp - 1#16) (hiByte v)).write (s.sp - 2#16) (loByte v)
  have hne : memKey (s.sp - 1#16) ≠ memKey (s.sp - 2#16) := sub_two_add_one s.sp ▸ memKey_succ_ne (s.sp - 2#16)
  rw [s.push16_eq v]
  exact
    { rest := { hrest with }
      flags := by simp
      sp := rfl
      bus := { BusIs.refl ((s.write (s.sp - 1#16) (hiByte v)).write (s.sp - 2#16) (loByte v)) with }
      high := fun hhi hlo k => s.byteAt_write_write_plain hhi hlo hne (hiByte v) (loByte v) k
      low := fun hlo k => State.byteAt_write_plain _ hlo (loByte v) k
      others := fun k _ hhi hlo => s.byteAt_write_write_of_not_reaches hhi hlo (hiByte v) (loByte v) k }

theorem State.getRp2_eq_pushedWord (s : State) (rr : Rp2) : s.getRp2 rr = pushedWord s rr := by cases rr <;> rfl

end

end Sys2Proof.Machine
end

section
/-! SUPPORT. The loads, the stores and the stack (41_load_store.md): each form from the operations its
meaning is made of. -/

namespace Sys2Proof.Machine

open Sys2Proof Sys2Proof.Claims

/-! ### Loads -/

/-- Settles O23: each form writes its destination and charges. -/
theorem registerAndImmediateLoads : Obligations.RegisterAndImmediateLoads := by
  unfold Obligations.RegisterAndImmediateLoads
  intro s dst r n rr v
  have hdst (c : Nat) (w : Byte) : RegisterOnly [dst] c s ((s.setR8 dst w).charge c) :=
    (RegisterOnly.charge_self [dst] c s).setR8 (by simp) w
  refine ⟨⟨encode_ldRR dst r, _, rfl, ?_, ?_, hdst 1 (s.getR8 r)⟩,
    ⟨encode_ldRN dst n, _, rfl, ?_, ?_, hdst 2 n⟩,
    ⟨encode_ldRpN rr v, _, rfl, ?_, rpOnly_setRp rr 3 s v⟩, rfl, _, rfl, rfl, rpOnly_setRp .sp 2 s s.hlPair⟩
  · exact s.getR8_setR8_self dst (s.getR8 r)
  · exact s.setR8_f dst (s.getR8 r)
  · exact s.getR8_setR8_self dst n
  · exact s.setR8_f dst n
  · exact s.getRp_setRp rr v

/-- A form that reads the byte at `addr`, writes it to A and charges `n`. -/
theorem loadsA_of_exec {i : Instr} {bytes : List Nat} {s : State} {addr : Word} {n : Nat}
    (hbytes : encode i = bytes.map (BitVec.ofNat 8))
    (hexec : exec i s = .next ((s.tick.setR8 .a (s.peek addr)).charge n)) : LoadsA i bytes s addr n :=
  ⟨hbytes, _, hexec, rfl, rfl, (RegisterOnly.charge_self [.a] n s).tick.setR8 (by simp) (s.peek addr)⟩

/-- Settles O24: the loads of A by `loadsA_of_exec`, the other registers likewise. -/
theorem loadsFromMemory : Obligations.LoadsFromMemory := by
  unfold Obligations.LoadsFromMemory
  intro s dst n addr
  have hdst : RegisterOnly [dst] 2 s ((s.tick.setR8 dst s.hlByte).charge 2) :=
    (RegisterOnly.charge_self [dst] 2 s).tick.setR8 (by simp) s.hlByte
  refine ⟨⟨encode_ldRHl dst, _, rfl, ?_, ?_, hdst⟩, loadsA_of_exec rfl rfl, loadsA_of_exec rfl rfl,
    loadsA_of_exec (opcode_imm16_eq 0xFA addr) rfl, ?_, ?_⟩
  · exact State.getR8_setR8_self _ dst s.hlByte
  · exact State.setR8_f _ dst s.hlByte
  · rw [← highPage_eq_ofNat]
    exact loadsA_of_exec (opcode_imm8_eq 0xF0 n) rfl
  · rw [← highPage_eq_ofNat]
    exact loadsA_of_exec rfl rfl

@[simp] theorem State.hlPair_charge (s : State) (n : Nat) : (s.charge n).hlPair = s.hlPair := rfl

/-- Settles O25: the load of A, then HL's step, a number modulo 2^16. -/
theorem loadsThatStepHl : Obligations.LoadsThatStepHl := by
  unfold Obligations.LoadsThatStepHl
  intro s
  have hload (v : Word) : RegisterOnly [.a, .h, .l] 2 s (((s.tick.setR8 .a s.hlByte).setHl v).charge 2) :=
    ((RegisterOnly.charge_self [.a, .h, .l] 2 s).tick.setR8 (by simp) s.hlByte).setHl (by simp) (by simp) v
  refine ⟨⟨rfl, _, rfl, rfl, ?_, rfl, hload _⟩, rfl, _, rfl, rfl, ?_, rfl, hload _⟩
  · rw [State.hlPair_charge, State.hlPair_setHl, toNat_add_one]
  · rw [State.hlPair_charge, State.hlPair_setHl, toNat_sub_one]

/-! ### Stores -/

/-- A form that writes `v` at `addr` and charges `n`. -/
theorem storesAt_of_exec {i : Instr} {bytes : List Nat} {s : State} {addr : Word} {v : Byte} {n : Nat}
    (hbytes : encode i = bytes.map (BitVec.ofNat 8)) (hexec : exec i s = .next ((s.write addr v).charge n)) :
    StoresAt i bytes s addr v n :=
  ⟨hbytes, _, hexec, s.write_f addr v, (RegisterOnly.charge_self [] n s).storesByte addr v⟩

/-- Settles O26: each form by `storesAt_of_exec`. -/
theorem storesOfOneByte : Obligations.StoresOfOneByte := by
  unfold Obligations.StoresOfOneByte
  intro s r n addr
  rw [← highPage_eq_ofNat, ← highPage_eq_ofNat]
  exact ⟨storesAt_of_exec (encode_ldHlR r) rfl, storesAt_of_exec (opcode_imm8_eq 0x36 n) rfl,
    storesAt_of_exec rfl rfl, storesAt_of_exec rfl rfl, storesAt_of_exec (opcode_imm16_eq 0xEA addr) rfl,
    storesAt_of_exec (opcode_imm8_eq 0xE0 n) rfl, storesAt_of_exec rfl rfl⟩

/-- Settles O27: the store at the old HL, then HL's step. -/
theorem storesThatStepHl : Obligations.StoresThatStepHl := by
  unfold Obligations.StoresThatStepHl
  intro s
  have hstore (v : Word) : StoresByte s.hlPair s.a [.h, .l] 2 s s (((s.write s.hlPair s.a).setHl v).charge 2) :=
    ((RegisterOnly.charge_self [.h, .l] 2 s).storesByte s.hlPair s.a).setHl (by simp) (by simp) v
  have hf : (s.write s.hlPair s.a).f = s.f := s.write_f s.hlPair s.a
  refine ⟨⟨rfl, _, rfl, ?_, hf, hstore _⟩, rfl, _, rfl, ?_, hf, hstore _⟩
  · rw [State.hlPair_charge, State.hlPair_setHl, toNat_add_one]
  · rw [State.hlPair_charge, State.hlPair_setHl, toNat_sub_one]

/-- Settles O28: two stores in different cells. -/
theorem storeOfSpWritesTheLowByteFirst : Obligations.StoreOfSpWritesTheLowByteFirst := by
  unfold Obligations.StoreOfSpWritesTheLowByteFirst
  intro s addr
  have hrest := ((Rest.charge_self [] 5 s).write addr (loByte s.sp)).write (addr + 1#16) (hiByte s.sp)
  refine ⟨opcode_imm16_eq 0x08 addr, _, rfl, hrest, by simp, by simp, by simp, { BusIs.refl _ with },
    fun hlo hhi k => ⟨?_, ?_⟩, fun k other hlo hhi => ?_⟩
  · exact s.byteAt_write_write_plain hlo hhi (memKey_succ_ne addr).symm (loByte s.sp) (hiByte s.sp) k
  · exact State.byteAt_write_plain _ hhi (hiByte s.sp) k
  · exact s.byteAt_write_write_of_not_reaches hlo hhi (loByte s.sp) (hiByte s.sp) k

/-! ### The stack -/

/-- Settles O29: a push of the pair's word. -/
theorem pushStoresAPair : Obligations.PushStoresAPair := by
  unfold Obligations.PushStoresAPair
  intro s rr
  rw [← s.getRp2_eq_pushedWord]
  exact ⟨encode_push rr, _, rfl, s.push16_pc _, pushes_push16 (s.getRp2 rr) 4 s⟩

/-- A pair reads back the word written to it (R101). -/
theorem pairWord_setPair (s : State) (rr : Pair) (v : Word) : pairWord (s.setPair rr v) rr = v := by
  cases rr <;> exact joinBytes_hiByte_loByte v

theorem State.getR8_setR8_setR8_of_notMem (s : State) {r r' q : Reg8} (v w : Byte) (h : q ∉ [r, r']) :
    ((s.setR8 r v).setR8 r' w).getR8 q = s.getR8 q := by
  obtain ⟨hr, hr'⟩ : q ≠ r ∧ q ≠ r' := by simpa using h
  rw [State.getR8_setR8_of_ne _ w hr', s.getR8_setR8_of_ne v hr]

/-- A write of a pair leaves the registers outside it. -/
theorem State.getR8_setPair_of_notMem (s : State) {rr : Pair} (v : Word) {r : Reg8} (h : r ∉ pairRegs rr) :
    (s.setPair rr v).getR8 r = s.getR8 r := by
  cases rr <;> exact s.getR8_setR8_setR8_of_notMem (hiByte v) (loByte v) h

/-- F written with a byte holds its bits 7 to 4 (R531). -/
theorem flagsAre_maskF {t : State} {v : Byte} (h : t.f = maskF v) :
    FlagsAre (v.getLsbD 7 = true) (v.getLsbD 6 = true) (v.getLsbD 5 = true) (v.getLsbD 4 = true) t where
  z := by rw [h, flagZ_maskF, flagZ]
  n := by rw [h, flagN_maskF, flagN]
  hf := by rw [h, flagH_maskF, flagH]
  cy := by rw [h, flagC_maskF, flagC]
  low := by rw [h, maskF_low]

/-- `pop rr`: the two reads, then the pair written with the word read. -/
theorem exec_pop (rr : Pair) (s : State) :
    exec (.pop rr) s = .next ((afterPop 3 s).setPair rr (stackWord s)) := by
  cases rr <;> rfl

/-- `pop AF`: the two reads, then A and F written with the word read. -/
theorem exec_popAf (s : State) : exec .popAf s = .next ((afterPop 3 s).setAf (stackWord s)) := rfl

/-- Settles O30: the pair by `exec_pop`, AF by `exec_popAf`. -/
theorem popLoadsAPair : Obligations.PopLoadsAPair := by
  unfold Obligations.PopLoadsAPair
  intro s rr
  refine ⟨⟨encode_pop rr, _, exec_pop rr s, pairWord_setPair .., ?_, ?_⟩, rfl, _, exec_popAf s, ?_, ?_, rfl⟩
  · cases rr <;> rfl
  · exact fun r hr => State.getR8_setPair_of_notMem _ _ hr
  · exact hiByte_joinBytes ..
  · exact flagsAre_maskF (congrArg maskF (loByte_joinBytes ..))

/-- The word on top of the stack after a push is the word pushed. -/
theorem Pushes.stackWord_eq {v : Word} {n : Nat} {s t : State} (h : Pushes v n s t)
    (hhi : (region (s.sp - 1#16)).plain = true) (hlo : (region (s.sp - 2#16)).plain = true) : stackWord t = v := by
  rw [stackWord, h.sp, sub_two_add_one, h.high hhi hlo, h.low hlo, joinBytes_hiByte_loByte]

/-- Settles O31: the pop reads the word that the push stored, and the two steps of SP cancel. -/
theorem pushThenPopMovesAPair : Obligations.PushThenPopMovesAPair := by
  unfold Obligations.PushThenPopMovesAPair
  intro s t u rr rr' hhi hlo ht hu
  obtain ⟨-, hpushes⟩ := pushStoresAPair s rr
  obtain ⟨-, hpush⟩ := hpushes.of_next ht
  obtain ⟨⟨-, hpops⟩, -⟩ := popLoadsAPair t rr'
  obtain ⟨hpair, hstate, -⟩ := hpops.of_next hu
  have hsp : u.sp = t.sp + 2#16 := congrArg State.sp hstate
  refine ⟨?_, ?_⟩
  · rw [hsp, hpush.sp, BitVec.sub_add_cancel]
  · rw [hpair, hpush.stackWord_eq hhi hlo]

end Sys2Proof.Machine
end

section
/-! SUPPORT. The opcodes of 8-bit arithmetic and logic as numbers (42_alu8.md). -/

namespace Sys2Proof

open Sys2Proof.Claims

/-- The register form of entry `y` of table `alu` (R308, R601). -/
theorem encode_aluR_eq (y : BitVec 3) (r : Reg8) :
    encode (aluR y r) = [0x80 + 8 * y.toNat + r8N r].map (BitVec.ofNat 8) :=
  (encode_aluR r y).trans (congrArg (· :: []) (opXyz_eq_ofNat (by simp)))

/-- The memory form of entry `y` of table `alu` (R308, R601). -/
theorem encode_aluHl_eq (y : BitVec 3) : encode (aluHl y) = [0x86 + 8 * y.toNat].map (BitVec.ofNat 8) :=
  (encode_aluHl y).trans (congrArg (· :: []) (opXyz_eq_ofNat (by simp +arith [hlCode])))

/-- The immediate form of entry `y` of table `alu` (R308, R601). -/
theorem encode_aluN_eq (y : BitVec 3) (n : Byte) :
    encode (aluN y n) = [0xC6 + 8 * y.toNat, n.toNat].map (BitVec.ofNat 8) := by
  rw [← opcode_imm8_eq]
  obtain rfl | rfl | rfl | rfl | rfl | rfl | rfl | rfl := bitVec3_cases y <;> rfl

theorem encode_incR (r : Reg8) : encode (.incR r) = [0x04 + 8 * r8N r].map (BitVec.ofNat 8) :=
  congrArg (· :: []) (opXyz_eq_ofNat (by simp [Nat.add_comm]))

theorem encode_decR (r : Reg8) : encode (.decR r) = [0x05 + 8 * r8N r].map (BitVec.ofNat 8) :=
  congrArg (· :: []) (opXyz_eq_ofNat (by simp [Nat.add_comm]))

end Sys2Proof
end

section
/-! SUPPORT. F written with four flags: the flags it then holds, and what a form that writes it leaves unchanged. -/

namespace Sys2Proof.Machine

open Sys2Proof Sys2Proof.Claims

section

variable {ws : List Reg8} {n : Nat} {s t u : State}

/-- F written with four flags holds them (R103, R104). -/
theorem flagsAre_packF {z n hf cy : Bool} {Z N H C : Prop} (h : t.f = maskF (packF z n hf cy)) (hz : z = true ↔ Z)
    (hn : n = true ↔ N) (hh : hf = true ↔ H) (hc : cy = true ↔ C) : FlagsAre Z N H C t where
  z := by rw [h, flagZ_maskF, flagZ_packF, hz]
  n := by rw [h, flagN_maskF, flagN_packF, hn]
  hf := by rw [h, flagH_maskF, flagH_packF, hh]
  cy := by rw [h, flagC_maskF, flagC_packF, hc]
  low := by rw [h, maskF_low]

theorem RegisterOnly.setF (h : RegisterOnly ws n s (t.charge n)) (v : Byte) :
    RegisterOnly ws n s ((t.setF v).charge n) where
  rest := { h.rest with }
  sp := h.sp
  pc := h.pc
  bus := { h.bus with }

theorem RegisterOnly.setAF (h : RegisterOnly ws n s (t.charge n)) (ha : .a ∈ ws) (r : Byte × Byte) :
    RegisterOnly ws n s ((t.setAF r).charge n) :=
  (h.setF r.2).setR8 ha r.1

theorem StoresByte.setF {addr : Word} {v : Byte} (h : StoresByte addr v ws n u s (t.charge n)) (w : Byte) :
    StoresByte addr v ws n u s ((t.setF w).charge n) :=
  { h with rest := { h.rest with }, bus := { h.bus with } }

end

end Sys2Proof.Machine
end

section
/-! SUPPORT. 8-bit arithmetic and logic (42_alu8.md): each result on numbers or bit by bit, then the forms that write it. -/

namespace Sys2Proof.Machine

open Sys2Proof Sys2Proof.Claims

/-! ### The three operand forms of table `alu` (R308, R601) -/

/-- Entry `y` of table `alu` in its register, memory and immediate forms, which all do `op` with their operand. `P` is shown
once, of `op` after the form's reads. -/
theorem aluForms_do {y : BitVec 3} {s : State} {r : Reg8} {n : Byte} {ws : List Reg8} {P : Byte → Nat → State → Prop}
    (op : Byte → State → State)
    (hr : exec (aluR y r) s = .next ((op (s.getR8 r) s).charge 1))
    (hhl : exec (aluHl y) s = .next ((op s.hlByte s.tick).charge 2))
    (hn : exec (aluN y n) s = .next ((op n s).charge 2))
    (hop : ∀ b k t, RegisterOnly ws k s (t.charge k) → P b k ((op b t).charge k)) :
    Does (aluR y r) [0x80 + 8 * y.toNat + r8N r] s (P (s.getR8 r) 1) ∧
    Does (aluHl y) [0x86 + 8 * y.toNat] s (P (s.peek s.hlPair) 2) ∧
    Does (aluN y n) [0xC6 + 8 * y.toNat, n.toNat] s (P n 2) :=
  ⟨⟨encode_aluR_eq y r, _, hr, hop _ 1 s (.charge_self ws 1 s)⟩,
    ⟨encode_aluHl_eq y, _, hhl, hop _ 2 s.tick (RegisterOnly.charge_self ws 2 s).tick⟩,
    ⟨encode_aluN_eq y n, _, hn, hop n 2 s (.charge_self ws 2 s)⟩⟩

/-! ### ADD and ADC (R602 to R607) -/

theorem RegisterOnly.addResult {n : Nat} {s t : State} (h : RegisterOnly [.a] n s (t.charge n)) (b : Byte) (c : Bool) :
    AddResult b c.toNat n s ((t.setAF (add8 s.a b c)).charge n) :=
  ⟨BitVec.toNat_ofNat .., flagsAre_packF rfl beq_iff_eq (by simp) decide_eq_true_iff decide_eq_true_iff,
    h.setAF (by simp) _⟩

/-- Settles O32: entries 0 and 1 of table `alu`, ADC with the carry flag as its carry-in. -/
theorem addAndAdcGiveTheSumAndItsFlags : Obligations.AddAndAdcGiveTheSumAndItsFlags := by
  unfold Obligations.AddAndAdcGiveTheSumAndItsFlags
  intro s r n
  obtain ⟨haddR, haddHl, haddN⟩ := aluForms_do (y := 0) (r := r) (n := n) (fun b t => t.setAF (add8 s.a b false))
    rfl rfl rfl fun b _ _ h => h.addResult b false
  exact ⟨haddR, haddHl, haddN, aluForms_do (y := 1) (fun b t => t.setAF (add8 s.a b s.cy))
    rfl rfl rfl fun b _ _ h => h.addResult b s.cy⟩

/-! ### SUB, SBC and CP (R608 to R613, R623 to R625) -/

/-- The difference modulo 2^8 (R600). -/
theorem sub8_toNat (a b : Byte) (c : Bool) :
    ((sub8 a b c).1.toNat : Int) = ((a.toNat : Int) - b.toNat - c.toNat) % 256 := by
  simp only [sub8, BitVec.toNat_ofInt]
  omega

theorem subFlags_sub8 {s t : State} {b : Byte} {c : Bool} (h : t.f = maskF (sub8 s.a b c).2) :
    SubFlags b c.toNat s t := by
  refine flagsAre_packF h ?_ (by simp) decide_eq_true_iff decide_eq_true_iff
  rw [← sub8_toNat, beq_iff_eq, BitVec.toNat_eq, Nat.cast_eq_zero]
  rfl

theorem RegisterOnly.subResult {n : Nat} {s t : State} (h : RegisterOnly [.a] n s (t.charge n)) (b : Byte) (c : Bool) :
    SubResult b c.toNat n s ((t.setAF (sub8 s.a b c)).charge n) :=
  ⟨sub8_toNat s.a b c, subFlags_sub8 rfl, h.setAF (by simp) _⟩

theorem RegisterOnly.cpResult {n : Nat} {s t : State} (h : RegisterOnly [] n s (t.charge n)) (b : Byte) :
    CpResult b n s ((t.setF (sub8 s.a b false).2).charge n) :=
  ⟨subFlags_sub8 (c := false) rfl, h.setF _⟩

/-- Settles O33: entries 2 and 3 of table `alu`, SBC with the carry flag as its borrow. -/
theorem subAndSbcGiveTheDifferenceAndItsFlags : Obligations.SubAndSbcGiveTheDifferenceAndItsFlags := by
  unfold Obligations.SubAndSbcGiveTheDifferenceAndItsFlags
  intro s r n
  obtain ⟨hsubR, hsubHl, hsubN⟩ := aluForms_do (y := 2) (r := r) (n := n) (fun b t => t.setAF (sub8 s.a b false))
    rfl rfl rfl fun b _ _ h => h.subResult b false
  exact ⟨hsubR, hsubHl, hsubN, aluForms_do (y := 3) (fun b t => t.setAF (sub8 s.a b s.cy))
    rfl rfl rfl fun b _ _ h => h.subResult b s.cy⟩

/-- Settles O34: entry 7 of table `alu` writes F only. -/
theorem cpSetsTheFlagsAndKeepsA : Obligations.CpSetsTheFlagsAndKeepsA := by
  unfold Obligations.CpSetsTheFlagsAndKeepsA
  intro s r n
  exact aluForms_do (y := 7) (fun b t => t.setF (sub8 s.a b false).2) rfl rfl rfl
    fun b _ _ h => h.cpResult b

/-! ### AND, XOR and OR (R614 to R622) -/

/-- A form that writes `res`, which is `op` bit by bit, and F with H as `hf`. -/
theorem RegisterOnly.logicResult {n : Nat} {s t : State} {op : Bool → Bool → Bool} {b res : Byte} {hf : Bool} {H : Prop}
    (h : RegisterOnly [.a] n s (t.charge n)) (hres : ∀ i, res.getLsbD i = op (s.a.getLsbD i) (b.getLsbD i))
    (hh : hf = true ↔ H) :
    LogicResult op H b n s ((t.setAF (res, packF (res == 0#8) false hf false)).charge n) :=
  ⟨fun i _ => hres i, flagsAre_packF rfl beq_iff_eq (by simp) hh (by simp), h.setAF (by simp) _⟩

/-- Settles O35: entries 4, 5 and 6 of table `alu`. -/
theorem andXorOrAreBitwise : Obligations.AndXorOrAreBitwise := by
  unfold Obligations.AndXorOrAreBitwise
  intro s r n
  obtain ⟨handR, handHl, handN⟩ := aluForms_do (y := 4) (r := r) (n := n) (fun b t => t.setAF (and8 s.a b))
    rfl rfl rfl fun _ _ _ h => h.logicResult (op := and) (H := True) (fun _ => BitVec.getLsbD_and) (by simp)
  obtain ⟨hxorR, hxorHl, hxorN⟩ := aluForms_do (y := 5) (r := r) (n := n) (fun b t => t.setAF (xor8 s.a b))
    rfl rfl rfl fun _ _ _ h => h.logicResult (op := xor) (H := False) (fun _ => BitVec.getLsbD_xor) (by simp)
  exact ⟨handR, handHl, handN, hxorR, hxorHl, hxorN, aluForms_do (y := 6) (fun b t => t.setAF (or8 s.a b))
    rfl rfl rfl fun _ _ _ h => h.logicResult (op := or) (H := False) (fun _ => BitVec.getLsbD_or) (by simp)⟩

/-! ### INC and DEC (R626 to R629) -/

theorem inc8_toNat (v f : Byte) : (inc8 v f).1.toNat = (v.toNat + 1) % 256 := BitVec.toNat_add ..

theorem dec8_toNat (v f : Byte) : (dec8 v f).1.toNat = (v.toNat + 255) % 256 := by
  show (v - 1#8).toNat = _
  bv_omega

theorem flagsAre_inc8 {t : State} {v f : Byte} (h : t.f = maskF (inc8 v f).2) :
    FlagsAre ((inc8 v f).1 = 0#8) False (v.toNat % 16 = 15) (flagC f = true) t :=
  flagsAre_packF h beq_iff_eq (by simp) beq_iff_eq Iff.rfl

theorem flagsAre_dec8 {t : State} {v f : Byte} (h : t.f = maskF (dec8 v f).2) :
    FlagsAre ((dec8 v f).1 = 0#8) True (v.toNat % 16 = 0) (flagC f = true) t :=
  flagsAre_packF h beq_iff_eq (by simp) beq_iff_eq Iff.rfl

/-- Settles O36: the result reads back from the register it is written to. -/
theorem incAndDecOfARegister : Obligations.IncAndDecOfARegister := by
  unfold Obligations.IncAndDecOfARegister
  intro s r
  have hread (x : Byte × Byte) : (((s.setR8 r x.1).setF x.2).charge 1).getR8 r = x.1 := s.getR8_setR8_self r x.1
  have honly (x : Byte × Byte) : RegisterOnly [r] 1 s (((s.setR8 r x.1).setF x.2).charge 1) :=
    ((RegisterOnly.charge_self [r] 1 s).setR8 (by simp) x.1).setF x.2
  refine ⟨⟨encode_incR r, _, rfl, ?_, ?_, honly _⟩, encode_decR r, _, rfl, ?_, ?_, honly _⟩
  · rw [hread, inc8_toNat]
  · rw [hread]
    exact flagsAre_inc8 rfl
  · rw [hread, dec8_toNat]
  · rw [hread]
    exact flagsAre_dec8 rfl

/-- Settles O37: one read at HL, one store of the result there. -/
theorem incAndDecOfTheByteAtHl : Obligations.IncAndDecOfTheByteAtHl := by
  unfold Obligations.IncAndDecOfTheByteAtHl
  intro s
  have hstore (x : Byte × Byte) :
      StoresByte s.hlPair x.1 [] 3 s.tick s (((s.tick.write s.hlPair x.1).setF x.2).charge 3) :=
    ((RegisterOnly.charge_self [] 3 s).tick.storesByte s.hlPair x.1).setF x.2
  exact ⟨⟨rfl, _, rfl, _, inc8_toNat s.hlByte s.f, flagsAre_inc8 rfl, hstore _⟩,
    rfl, _, rfl, _, dec8_toNat s.hlByte s.f, flagsAre_dec8 rfl, hstore _⟩

/-! ### DAA (R630) -/

/-- The adjustment by 0x60 leaves the low nibble, so the adjustment by 0x06 may look at the old one. -/
theorem lowNibble_add_0x60 (a : Byte) : lowNibble (a + 0x60#8) = lowNibble a := by
  simp only [lowNibble, BitVec.toNat_add, BitVec.toNat_ofNat]
  omega

/-- DAA after an addition. -/
theorem daa8_of_add {a f : Byte} (hn : flagN f = false) :
    (daa8 a f).1 = a + (if flagC f = true ∨ 0x99 < a.toNat then 0x60#8 else 0#8) +
      if flagH f = true ∨ 9 < lowNibble a then 0x06#8 else 0#8 := by
  by_cases hc : flagC f = true ∨ 0x99 < a.toNat <;> by_cases hh : flagH f = true ∨ 9 < lowNibble a <;>
    simp [daa8, hn, hc, hh, lowNibble_add_0x60]

/-- DAA after a subtraction. -/
theorem daa8_of_sub {a f : Byte} (hn : flagN f = true) :
    (daa8 a f).1 = a - (if flagC f = true then 0x60#8 else 0#8) - if flagH f = true then 0x06#8 else 0#8 := by
  by_cases hc : flagC f = true <;> by_cases hh : flagH f = true <;> simp [daa8, hn, hc, hh]

theorem daa8_toNat (a f : Byte) :
    ((daa8 a f).1.toNat : Int) = daaValue a.toNat (flagN f) (flagH f) (flagC f) % 256 := by
  cases hn : flagN f with
  | false =>
    rw [daa8_of_add hn, daaValue, if_pos rfl, lowNibble]
    split_ifs <;> bv_omega
  | true =>
    rw [daa8_of_sub hn, daaValue, if_neg (c := true = false) (by decide)]
    split_ifs <;> bv_omega

/-- Settles O38: A by `daa8_toNat`; C is set by the adjustment of an addition by 0x60. -/
theorem daaAdjustsTheAccumulator : Obligations.DaaAdjustsTheAccumulator := by
  unfold Obligations.DaaAdjustsTheAccumulator
  intro s
  exact ⟨rfl, _, rfl, daa8_toNat s.a s.f, flagsAre_packF rfl beq_iff_eq Iff.rfl (by simp) (by simp),
    (RegisterOnly.charge_self [.a] 1 s).setAF (by simp) _⟩

/-! ### CPL, SCF and CCF (R631 to R633) -/

/-- Settles O39: each writes F with the flags it keeps, sets and clears. -/
theorem cplScfAndCcf : Obligations.CplScfAndCcf := by
  unfold Obligations.CplScfAndCcf
  intro s
  have hF (v : Byte) : RegisterOnly [] 1 s ((s.setF v).charge 1) := (RegisterOnly.charge_self [] 1 s).setF v
  refine ⟨⟨rfl, _, rfl, BitVec.toNat_not, flagsAre_packF rfl Iff.rfl (by simp) (by simp) Iff.rfl,
    (RegisterOnly.charge_self [.a] 1 s).setAF (by simp) _⟩,
    ⟨rfl, _, rfl, flagsAre_packF rfl Iff.rfl (by simp) (by simp) (by simp), hF _⟩,
    rfl, _, rfl, flagsAre_packF rfl Iff.rfl (by simp) (by simp) (by simp), hF _⟩

end Sys2Proof.Machine
end

section
/-! SUPPORT. The opcodes of 16-bit arithmetic as numbers, and the sum with a signed offset (43_alu16.md). -/

namespace Sys2Proof

open Sys2Proof.Machine Sys2Proof.Claims

theorem encode_addHlRp (rr : Rp) : encode (.addHlRp rr) = [0x09 + 16 * rpN rr].map (BitVec.ofNat 8) :=
  congrArg (· :: []) (opXpqz_eq_ofNat (by simp +arith))

theorem encode_incRp (rr : Rp) : encode (.incRp rr) = [0x03 + 16 * rpN rr].map (BitVec.ofNat 8) :=
  congrArg (· :: []) (opXpqz_eq_ofNat (by simp +arith))

theorem encode_decRp (rr : Rp) : encode (.decRp rr) = [0x0B + 16 * rpN rr].map (BitVec.ofNat 8) :=
  congrArg (· :: []) (opXpqz_eq_ofNat (by simp +arith))

/-- The offset byte extended to a word is its value as two's complement, modulo 2^16 (R310). -/
theorem sext16_toNat (e : Byte) : ((sext16 e).toNat : Int) = signed e % 65536 := by
  have hlt := e.isLt
  have hmsb : e.msb = decide (128 ≤ e.toNat) := BitVec.msb_eq_decide e
  rw [sext16, BitVec.toNat_signExtend, BitVec.toNat_setWidth, hmsb, signed]
  simp only [decide_eq_true_eq]
  split_ifs <;> omega

theorem isSumWith_add_sext16 (base : Word) (e : Byte) : IsSumWith base e (base + sext16 e) := by
  rw [IsSumWith, BitVec.toNat_add, Int.natCast_emod, Int.natCast_add, sext16_toNat]
  exact Int.add_emod_emod ..

end Sys2Proof
end

section
/-! SUPPORT. 16-bit arithmetic (43_alu16.md): each form from its result and the operations its meaning is made of. -/

namespace Sys2Proof.Machine

open Sys2Proof Sys2Proof.Claims

/-- Settles O40: HL's two registers and F are written, F with the carries of the sum and the old Z. -/
theorem addHlCarriesFromBits11And15 : Obligations.AddHlCarriesFromBits11And15 := by
  unfold Obligations.AddHlCarriesFromBits11And15
  intro s rr
  have honly (v : Word) (f : Byte) : RegisterOnly [.h, .l] 2 s (((s.setHl v).setF f).charge 2) :=
    ((RegisterOnly.charge_self [.h, .l] 2 s).setHl (by simp) (by simp) v).setF f
  have hread (v : Word) (f : Byte) : (((s.setHl v).setF f).charge 2).hlPair = v := s.hlPair_setHl v
  refine ⟨encode_addHlRp rr, _, rfl, ?_, ?_, honly _ _⟩
  · rw [hread]
    exact BitVec.toNat_ofNat ..
  · exact flagsAre_packF rfl Iff.rfl (by simp) decide_eq_true_iff decide_eq_true_iff

/-- Settles O41: the operand reads back as the word one more or one less. -/
theorem incAndDecOfAPair : Obligations.IncAndDecOfAPair := by
  unfold Obligations.IncAndDecOfAPair
  intro s rr
  have hread (v : Word) : ((s.setRp rr v).charge 2).getRp rr = v := s.getRp_setRp rr v
  refine ⟨⟨encode_incRp rr, _, rfl, ?_, rpOnly_setRp rr 2 s _⟩, encode_decRp rr, _, rfl, ?_, rpOnly_setRp rr 2 s _⟩
  · rw [hread, toNat_add_one]
  · rw [hread, toNat_sub_one]

theorem flagsAre_spE8 {sp : Word} {e : Byte} {t : State} (h : t.f = maskF (spE8 sp e).2) :
    FlagsAre False False (15 < sp.toNat % 16 + e.toNat % 16) (255 < sp.toNat % 256 + e.toNat) t :=
  flagsAre_packF h (by simp) (by simp) decide_eq_true_iff decide_eq_true_iff

/-- Settles O42: one sum and its flags, written to SP by one form and to HL by the other. -/
theorem spPlusOffsetTakesItsFlagsFromTheLowByte : Obligations.SpPlusOffsetTakesItsFlagsFromTheLowByte := by
  unfold Obligations.SpPlusOffsetTakesItsFlagsFromTheLowByte
  intro s e
  have hsum : IsSumWith s.sp e (spE8 s.sp e).1 := isSumWith_add_sext16 s.sp e
  have hF (n : Nat) (ws : List Reg8) : RegisterOnly ws n s ((s.setF (spE8 s.sp e).2).charge n) :=
    (RegisterOnly.charge_self ws n s).setF (spE8 s.sp e).2
  refine ⟨⟨opcode_imm8_eq 0xE8 e, _, rfl, hsum, flagsAre_spE8 rfl, ?_, rfl, ?_⟩,
    opcode_imm8_eq 0xF8 e, _, rfl, ?_, flagsAre_spE8 rfl, (hF 3 _).setHl (by simp) (by simp) _⟩
  · exact { (hF 4 []).rest with }
  · exact { (hF 4 []).bus with }
  · rw [State.hlPair_charge, State.hlPair_setHl]
    exact hsum

end Sys2Proof.Machine
end

section
/-! SUPPORT. Rotates, shifts and bit operations (44_cb_rotate_shift_bit.md) on numbers: their opcodes, the bits of a byte, and
bytes that have no bit in common. -/

namespace Sys2Proof

open Sys2Proof.Machine Sys2Proof.Claims

/-! ### The opcodes of the secondary table (R302, R309) -/

/-- A secondary instruction is the escape and the number `64x + 8y + z` (R302). -/
theorem cbBytes_eq {x : BitVec 2} {y z : BitVec 3} {op : Nat} (h : 64 * x.toNat + 8 * y.toNat + z.toNat = op) :
    cbBytes x y z = [0xCB, op].map (BitVec.ofNat 8) :=
  congrArg ([0xCB#8, ·]) (opXyz_eq_ofNat h)

/-- The register form of entry `y` of table `rot` (R309). -/
theorem encode_rotR_eq (y : BitVec 3) (r : Reg8) :
    encode (rotR y r) = [0xCB, 8 * y.toNat + r8N r].map (BitVec.ofNat 8) :=
  (encode_rotR r y).trans (cbBytes_eq (by simp))

/-- The memory form of entry `y` of table `rot` (R309). -/
theorem encode_rotHl_eq (y : BitVec 3) : encode (rotHl y) = [0xCB, 8 * y.toNat + 6].map (BitVec.ofNat 8) :=
  (encode_rotHl y).trans (cbBytes_eq (by simp [hlCode]))

/-! ### The bits of a byte -/

theorem bit0_toNat (c : Bool) : (bit0 c).toNat = c.toNat := by cases c <;> rfl

theorem getLsbD_toNat (v : Byte) (i : Nat) : (v.getLsbD i).toNat = bitN i v.toNat := by
  rw [← BitVec.testBit_toNat, Nat.toNat_testBit, bitN]

theorem getLsbD_zero_toNat (v : Byte) : (v.getLsbD 0).toNat = v.toNat % 2 := by
  rw [getLsbD_toNat, bitN, Nat.pow_zero, Nat.div_one]

theorem getLsbD_seven_toNat (v : Byte) : (v.getLsbD 7).toNat = v.toNat / 128 := by
  have := v.isLt
  rw [getLsbD_toNat, bitN]
  omega

theorem bitMask_toNat (u3 : BitVec 3) : (1#8 <<< u3.toNat).toNat = 2 ^ u3.toNat := by
  revert u3
  decide

theorem and_bitMask_toNat (v : Byte) (u3 : BitVec 3) :
    (v &&& 1#8 <<< u3.toNat).toNat = 2 ^ u3.toNat * bitN u3.toNat v.toNat := by
  rw [BitVec.toNat_and, bitMask_toNat, Nat.and_two_pow, BitVec.testBit_toNat, getLsbD_toNat, Nat.mul_comm]

/-- The bit that SRA keeps (R815). -/
theorem and_0x80_eq (v : Byte) : v &&& 0x80#8 = bit0 (v.getLsbD 7) <<< 7 := by
  apply BitVec.eq_of_toNat_eq
  have hand : (v &&& 0x80#8).toNat = (v.getLsbD 7).toNat * 2 ^ 7 :=
    (BitVec.toNat_and ..).trans (BitVec.testBit_toNat v ▸ Nat.and_two_pow v.toNat 7)
  rw [hand]
  cases v.getLsbD 7 <;> rfl

/-! ### Bytes that have no bit in common -/

/-- Bytes that have no bit in common are joined without a carry. -/
theorem toNat_or_of_disjoint {x y : Byte} (h : x &&& y = 0#8) : (x ||| y).toNat = x.toNat + y.toNat := by
  rw [← BitVec.add_eq_or_of_and_eq_zero x y h, BitVec.toNat_add_of_and_eq_zero h]

/-- A byte below `2 ^ k` fits under one shifted left by `k`. -/
theorem toNat_shiftLeft_or {x y : Byte} {k : Nat} (hy : y.toNat < 2 ^ k) :
    (x <<< k ||| y).toNat = (x <<< k).toNat + y.toNat := by
  refine toNat_or_of_disjoint (BitVec.eq_of_getElem_eq fun i hi => ?_)
  by_cases hik : i < k
  · simp [hik]
  · have hyi : y[i] = false := by
      rw [BitVec.getElem_eq_testBit_toNat]
      exact Nat.testBit_lt_two_pow (hy.trans_le (Nat.pow_le_pow_right (by decide) (by omega)))
    simp [hyi]

theorem and_not_disjoint (x y : Byte) : (x &&& ~~~y) &&& y = 0#8 := by
  ext i hi
  cases hy : y[i] <;> simp [hy]

theorem and_not_or_self (x y : Byte) : x &&& ~~~y ||| y = x ||| y := by
  ext i hi
  cases hy : y[i] <;> simp [hy]

theorem and_not_or_and (x y : Byte) : x &&& ~~~y ||| x &&& y = x := by
  ext i hi
  cases hy : y[i] <;> simp [hy]

/-! ### A byte shifted by one, with `c` in the bit that comes free -/

theorem shiftLeft_or_bit0_toNat (v : Byte) (c : Bool) :
    (v <<< 1 ||| bit0 c).toNat = (2 * v.toNat + c.toNat) % 256 := by
  have hc := c.toNat_lt
  rw [toNat_shiftLeft_or (by rwa [bit0_toNat]), bit0_toNat, BitVec.toNat_shiftLeft, Nat.shiftLeft_eq]
  omega

theorem ushiftRight_or_bit7_toNat (v : Byte) (c : Bool) :
    (v >>> 1 ||| bit0 c <<< 7).toNat = v.toNat / 2 + 128 * c.toNat := by
  have hc := c.toNat_lt
  have hlt := v.isLt
  have hv : (v >>> 1).toNat = v.toNat / 2 := BitVec.toNat_ushiftRight ..
  rw [BitVec.or_comm, toNat_shiftLeft_or (by omega), hv, BitVec.toNat_shiftLeft, bit0_toNat, Nat.shiftLeft_eq]
  omega

end Sys2Proof
end

section
/-! SUPPORT. Rotates, shifts and bit operations (44_cb_rotate_shift_bit.md): each result on numbers, then the forms that write
it. -/

namespace Sys2Proof.Machine

open Sys2Proof Sys2Proof.Claims

/-! ### Rotates and shifts: the result and the bit shifted out (R800 to R820) -/

/-- As numbers, the result is `res` and the bit shifted out is `co`. -/
structure ShiftIs (x : Byte × Bool) (res co : Nat) : Prop where
  result : x.1.toNat = res
  carry : x.2.toNat = co

theorem rlc8_shiftIs (v : Byte) : ShiftIs (rlc8 v) (rlcN v.toNat) (v.toNat / 128) where
  result := by
    rw [rlcN, ← getLsbD_seven_toNat]
    exact shiftLeft_or_bit0_toNat v (v.getLsbD 7)
  carry := getLsbD_seven_toNat v

theorem rrc8_shiftIs (v : Byte) : ShiftIs (rrc8 v) (rrcN v.toNat) (v.toNat % 2) where
  result := by
    rw [rrcN, ← getLsbD_zero_toNat]
    exact ushiftRight_or_bit7_toNat v (v.getLsbD 0)
  carry := getLsbD_zero_toNat v

theorem rl8_shiftIs (v : Byte) (c : Bool) : ShiftIs (rl8 v c) (rlN v.toNat c.toNat) (v.toNat / 128) where
  result := shiftLeft_or_bit0_toNat v c
  carry := getLsbD_seven_toNat v

theorem rr8_shiftIs (v : Byte) (c : Bool) : ShiftIs (rr8 v c) (rrN v.toNat c.toNat) (v.toNat % 2) where
  result := ushiftRight_or_bit7_toNat v c
  carry := getLsbD_zero_toNat v

theorem sla8_shiftIs (v : Byte) : ShiftIs (sla8 v) (slaN v.toNat) (v.toNat / 128) where
  result := by rw [sla8, BitVec.toNat_shiftLeft, Nat.shiftLeft_eq, Nat.mul_comm, slaN]
  carry := getLsbD_seven_toNat v

theorem sra8_shiftIs (v : Byte) : ShiftIs (sra8 v) (sraN v.toNat) (v.toNat % 2) where
  result := by
    rw [sra8, and_0x80_eq, sraN, ← getLsbD_seven_toNat]
    exact ushiftRight_or_bit7_toNat v (v.getLsbD 7)
  carry := getLsbD_zero_toNat v

theorem swap8_shiftIs (v : Byte) : ShiftIs (swap8 v) (swapN v.toNat) 0 where
  result := by
    have hlt := v.isLt
    have hv : (v >>> 4).toNat = v.toNat / 16 := (BitVec.toNat_ushiftRight v 4).trans (Nat.shiftRight_eq_div_pow ..)
    rw [swap8, toNat_shiftLeft_or (by omega), hv, BitVec.toNat_shiftLeft, Nat.shiftLeft_eq, swapN]
    omega
  carry := rfl

theorem srl8_shiftIs (v : Byte) : ShiftIs (srl8 v) (srlN v.toNat) (v.toNat % 2) where
  result := BitVec.toNat_ushiftRight ..
  carry := getLsbD_zero_toNat v

/-! ### Rotates and shifts: the forms -/

section

variable {s t : State} {x : Byte × Bool} {res co : Nat}

theorem ShiftIs.zero_iff (h : ShiftIs x res co) : (x.1 == 0#8) = true ↔ res = 0 := by
  rw [← h.result, beq_iff_eq, BitVec.toNat_eq]
  rfl

theorem ShiftIs.carry_iff (h : ShiftIs x res co) : x.2 = true ↔ co = 1 := by
  rw [← h.carry, Bool.toNat_eq_one]

theorem ShiftIs.flagsAre_shiftF (h : ShiftIs x res co) (hf : t.f = maskF (shiftF x)) :
    FlagsAre (res = 0) False False (co = 1) t :=
  flagsAre_packF hf h.zero_iff (by simp) (by simp) h.carry_iff

theorem rotatesA_of_exec {i : Instr} {bytes : List Nat} (hbytes : encode i = bytes.map (BitVec.ofNat 8))
    (hexec : exec i s = .next (s.accRotate x)) (hx : ShiftIs x res co) : RotatesA i bytes s res co :=
  ⟨hbytes, _, hexec, hx.result, flagsAre_packF rfl (by simp) (by simp) (by simp) hx.carry_iff,
    (RegisterOnly.charge_self [.a] 1 s).setAF (by simp) (x.1, accRotF x)⟩

/-- The register form of entry `y` of table `rot`. -/
theorem shiftsRegister_of_exec {y : BitVec 3} {r : Reg8} (hexec : exec (rotR y r) s = .next (s.shiftReg r x))
    (hx : ShiftIs x res co) : ShiftsRegister (rotR y r) y.toNat s r res co := by
  have hread : (s.shiftReg r x).getR8 r = x.1 := s.getR8_setR8_self r x.1
  refine ⟨encode_rotR_eq y r, _, hexec, ?_, hx.flagsAre_shiftF rfl,
    ((RegisterOnly.charge_self [r] 2 s).setR8 (by simp) x.1).setF (shiftF x)⟩
  rw [hread, hx.result]

/-- The memory form of entry `y` of table `rot`. -/
theorem shiftsHl_of_exec {y : BitVec 3} (hexec : exec (rotHl y) s = .next (s.shiftHl x)) (hx : ShiftIs x res co) :
    ShiftsHl (rotHl y) y.toNat s res co :=
  ⟨encode_rotHl_eq y, _, hexec, hx.flagsAre_shiftF rfl, x.1, hx.result,
    ((RegisterOnly.charge_self [] 4 s).tick.storesByte s.hlPair x.1).setF (shiftF x)⟩

end

/-- Settles O43: the four rotates of A by `rotatesA_of_exec`, RLA and RRA with the carry flag as the bit shifted in. -/
theorem accumulatorRotates : Obligations.AccumulatorRotates := by
  unfold Obligations.AccumulatorRotates
  rintro s _ rfl
  exact ⟨rotatesA_of_exec rfl rfl (rlc8_shiftIs s.a), rotatesA_of_exec rfl rfl (rrc8_shiftIs s.a),
    rotatesA_of_exec rfl rfl (rl8_shiftIs s.a s.cy), rotatesA_of_exec rfl rfl (rr8_shiftIs s.a s.cy)⟩

/-- Settles O44: the eight entries of table `rot` by `shiftsRegister_of_exec`. -/
theorem rotatesAndShiftsOfARegister : Obligations.RotatesAndShiftsOfARegister := by
  unfold Obligations.RotatesAndShiftsOfARegister
  rintro s r _ rfl
  exact ⟨shiftsRegister_of_exec (y := 0) rfl (rlc8_shiftIs _), shiftsRegister_of_exec (y := 1) rfl (rrc8_shiftIs _),
    shiftsRegister_of_exec (y := 2) rfl (rl8_shiftIs _ s.cy), shiftsRegister_of_exec (y := 3) rfl (rr8_shiftIs _ s.cy),
    shiftsRegister_of_exec (y := 4) rfl (sla8_shiftIs _), shiftsRegister_of_exec (y := 5) rfl (sra8_shiftIs _),
    shiftsRegister_of_exec (y := 6) rfl (swap8_shiftIs _), shiftsRegister_of_exec (y := 7) rfl (srl8_shiftIs _)⟩

/-- Settles O45: the eight entries of table `rot` by `shiftsHl_of_exec`. -/
theorem rotatesAndShiftsOfTheByteAtHl : Obligations.RotatesAndShiftsOfTheByteAtHl := by
  unfold Obligations.RotatesAndShiftsOfTheByteAtHl
  rintro s _ rfl
  exact ⟨shiftsHl_of_exec (y := 0) rfl (rlc8_shiftIs _), shiftsHl_of_exec (y := 1) rfl (rrc8_shiftIs _),
    shiftsHl_of_exec (y := 2) rfl (rl8_shiftIs _ s.cy), shiftsHl_of_exec (y := 3) rfl (rr8_shiftIs _ s.cy),
    shiftsHl_of_exec (y := 4) rfl (sla8_shiftIs _), shiftsHl_of_exec (y := 5) rfl (sra8_shiftIs _),
    shiftsHl_of_exec (y := 6) rfl (swap8_shiftIs _), shiftsHl_of_exec (y := 7) rfl (srl8_shiftIs _)⟩

/-! ### BIT (R821, R822) -/

theorem flagsAre_bitF {t : State} {u3 : BitVec 3} {v f : Byte} (h : t.f = maskF (bitF u3 v f)) :
    FlagsAre (bitN u3.toNat v.toNat = 0) False True (flagC f = true) t := by
  have hz : (!v.getLsbD u3.toNat) = true ↔ bitN u3.toNat v.toNat = 0 := by
    rw [← getLsbD_toNat, Bool.toNat_eq_zero, Bool.not_eq_true']
  exact flagsAre_packF h hz (by simp) (by simp) Iff.rfl

/-- Settles O46: both forms write F only. -/
theorem bitTestsOneBit : Obligations.BitTestsOneBit := by
  unfold Obligations.BitTestsOneBit
  intro s u3 r
  exact ⟨⟨cbBytes_eq (by simp), _, rfl, flagsAre_bitF rfl, (RegisterOnly.charge_self [] 2 s).setF _⟩,
    cbBytes_eq (by simp +arith [hlCode]), _, rfl, flagsAre_bitF rfl, (RegisterOnly.charge_self [] 3 s).tick.setF _⟩

/-! ### RES and SET (R823 to R826) -/

/-- The bit that RES clears is what the operand has more than the result. -/
theorem resBit_toNat (u3 : BitVec 3) (v : Byte) :
    (resBit u3 v).toNat + 2 ^ u3.toNat * bitN u3.toNat v.toNat = v.toNat := by
  have hdisjoint : resBit u3 v &&& (v &&& 1#8 <<< u3.toNat) = 0#8 := by
    rw [BitVec.and_comm v, ← BitVec.and_assoc, resBit, and_not_disjoint, BitVec.zero_and]
  rw [← and_bitMask_toNat, ← toNat_or_of_disjoint hdisjoint, resBit, and_not_or_and]

/-- SET gives the bit to what RES leaves. -/
theorem setBit_toNat (u3 : BitVec 3) (v : Byte) :
    (setBit u3 v).toNat + 2 ^ u3.toNat * bitN u3.toNat v.toNat = v.toNat + 2 ^ u3.toNat := by
  have hset : (setBit u3 v).toNat = (resBit u3 v).toNat + 2 ^ u3.toNat := by
    rw [setBit, ← and_not_or_self, toNat_or_of_disjoint (and_not_disjoint v _), bitMask_toNat, resBit]
  rw [hset, Nat.add_right_comm, resBit_toNat]

/-- Settles O47: the written byte by `resBit_toNat` and `setBit_toNat`; no form writes F. -/
theorem resAndSetWriteOneBit : Obligations.ResAndSetWriteOneBit := by
  unfold Obligations.ResAndSetWriteOneBit
  intro s u3 r
  have hread (v : Byte) : ((s.setR8 r v).charge 2).getR8 r = v := s.getR8_setR8_self r v
  have honly (v : Byte) : RegisterOnly [r] 2 s ((s.setR8 r v).charge 2) :=
    (RegisterOnly.charge_self [r] 2 s).setR8 (by simp) v
  have hstore (v : Byte) : StoresByte s.hlPair v [] 4 s.tick s ((s.tick.write s.hlPair v).charge 4) :=
    (RegisterOnly.charge_self [] 4 s).tick.storesByte s.hlPair v
  refine ⟨⟨cbBytes_eq (by simp), _, rfl, ?_, s.setR8_f r _, honly _⟩,
    ⟨cbBytes_eq (by simp), _, rfl, ?_, s.setR8_f r _, honly _⟩,
    ⟨cbBytes_eq (by simp +arith [hlCode]), _, rfl, s.tick.write_f s.hlPair _, _, hstore _, resBit_toNat u3 s.hlByte⟩,
    cbBytes_eq (by simp +arith [hlCode]), _, rfl, s.tick.write_f s.hlPair _, _, hstore _, setBit_toNat u3 s.hlByte⟩
  · rw [hread, resBit_toNat]
  · rw [hread, setBit_toNat]

end Sys2Proof.Machine
end

section
/-! SUPPORT. The opcodes of control transfer by their operands as numbers (45_control.md). -/

namespace Sys2Proof

open Sys2Proof.Claims

/-- The field `y` of an absolute form or a return (R302, R306). -/
@[simp] theorem Cond.toNat_zero_append_code (cc : Cond) : (0#1 ++ cc.code).toNat = ccN cc := by cases cc <;> rfl

/-- The field `y` of a relative jump (R302, R306). -/
@[simp] theorem Cond.toNat_one_append_code (cc : Cond) : (1#1 ++ cc.code).toNat = 4 + ccN cc := by cases cc <;> rfl

theorem encode_jpCc (cc : Cond) (addr : Word) :
    encode (.jpCc cc addr) = [0xC2 + 8 * ccN cc, lowN addr, highN addr].map (BitVec.ofNat 8) := by
  rw [← opcode_imm16_eq]
  exact congrArg (· :: immBytes addr) (opXyz_eq_ofNat (by simp +arith))

theorem encode_jrCc (cc : Cond) (e : Byte) :
    encode (.jrCc cc e) = [0x20 + 8 * ccN cc, e.toNat].map (BitVec.ofNat 8) := by
  rw [← opcode_imm8_eq]
  exact congrArg (· :: [e]) (opXyz_eq_ofNat (by simp +arith))

theorem encode_callCc (cc : Cond) (addr : Word) :
    encode (.callCc cc addr) = [0xC4 + 8 * ccN cc, lowN addr, highN addr].map (BitVec.ofNat 8) := by
  rw [← opcode_imm16_eq]
  exact congrArg (· :: immBytes addr) (opXyz_eq_ofNat (by simp +arith))

theorem encode_retCc (cc : Cond) : encode (.retCc cc) = [0xC0 + 8 * ccN cc].map (BitVec.ofNat 8) :=
  congrArg (· :: []) (opXyz_eq_ofNat (by simp +arith))

theorem encode_rst (y : BitVec 3) : encode (.rst y) = [0xC7 + 8 * y.toNat].map (BitVec.ofNat 8) :=
  congrArg (· :: []) (opXyz_eq_ofNat (by simp +arith))

end Sys2Proof
end

section
/-! SUPPORT. Control transfer (45_control.md): each form taken, and one rule for the conditional forms. -/

namespace Sys2Proof.Machine

open Sys2Proof Sys2Proof.Claims

/-- A conditional form does its jump when the condition holds, and charges only when it does not (R407, R900). -/
theorem does_of_exec_ite_cond {i : Instr} {bytes : List Nat} {s taken : State} {cc : Cond} {n : Nat} {P : State → Prop}
    (hbytes : encode i = bytes.map (BitVec.ofNat 8))
    (hexec : exec i s = .next (if s.cond cc then taken else s.charge n)) (htaken : P taken) :
    Does i bytes s fun t => (Holds s cc → P t) ∧ (¬Holds s cc → t = CostOnly n s) := by
  unfold Holds
  rw [s.cond_eq_holds] at hexec
  refine ⟨hbytes, _, hexec, fun hc => ?_, fun hc => ?_⟩
  · rwa [if_pos hc]
  · rw [if_neg hc]
    rfl

/-! ### Jumps -/

/-- Settles O48: the relative targets by `isSumWith_add_sext16`, the conditional forms by `does_of_exec_ite_cond`. -/
theorem jumpsGoWhereTheirRuleSays : Obligations.JumpsGoWhereTheirRuleSays := by
  unfold Obligations.JumpsGoWhereTheirRuleSays
  intro s addr e cc
  have hjr : IsSumWith s.pc e (s.pc + sext16 e) := isSumWith_add_sext16 s.pc e
  exact ⟨⟨opcode_imm16_eq 0xC3 addr, _, rfl, rfl, rfl⟩, ⟨rfl, _, rfl, rfl, rfl⟩,
    ⟨opcode_imm8_eq 0x18 e, _, rfl, hjr, rfl⟩, does_of_exec_ite_cond (encode_jpCc cc addr) rfl ⟨rfl, rfl⟩,
    does_of_exec_ite_cond (encode_jrCc cc e) rfl ⟨hjr, rfl⟩⟩

/-! ### Calls -/

/-- A call pushes PC; the jump that follows leaves the push as it is. -/
theorem pushes_callTo (target : Word) (n : Nat) (s : State) : Pushes s.pc n s ((s.callTo target).charge n) :=
  have hpush := pushes_push16 s.pc n s
  { hpush with rest := { hpush.rest with }, bus := { hpush.bus with } }

/-- A restart vector is `8 * y`, without wrap (R307). -/
theorem rstVector_toNat (y : BitVec 3) : (rstVector y).toNat = 8 * y.toNat := by
  have hlt := y.isLt
  rw [rstVector, BitVec.toNat_ofNat]
  omega

/-- Settles O49: each taken form by `pushes_callTo`. -/
theorem callsPushTheReturnAddress : Obligations.CallsPushTheReturnAddress := by
  unfold Obligations.CallsPushTheReturnAddress
  intro s addr cc y
  exact ⟨⟨opcode_imm16_eq 0xCD addr, _, rfl, rfl, pushes_callTo addr 6 s⟩,
    does_of_exec_ite_cond (encode_callCc cc addr) rfl ⟨rfl, pushes_callTo addr 6 s⟩,
    encode_rst y, _, rfl, rstVector_toNat y, pushes_callTo (rstVector y) 4 s⟩

/-! ### Returns -/

/-- A return is a pop's two reads, with the word read as PC (R908). -/
theorem State.return16_charge (s : State) (n : Nat) :
    s.return16.charge n = { afterPop n s with pc := stackWord s } := rfl

/-- Settles O50: each taken form is `State.return16_charge`, RETI with `ime` set. -/
theorem returnsPopPc : Obligations.ReturnsPopPc := by
  unfold Obligations.ReturnsPopPc
  intro s cc
  have hret := s.return16_charge 4
  exact ⟨⟨rfl, _, rfl, hret⟩, ⟨rfl, _, rfl, congrArg (fun t : State => { t with ime := true }) hret⟩,
    does_of_exec_ite_cond (encode_retCc cc) rfl (s.return16_charge 5)⟩

end Sys2Proof.Machine
end

section
/-! SUPPORT. The system instructions (46_system.md), and the escape as the secondary instruction it stands for. -/

namespace Sys2Proof.Machine

open Sys2Proof Sys2Proof.Claims

/-- Settles O51: each enable is written before the cost is charged. -/
theorem nopDiAndEi : Obligations.NopDiAndEi := by
  unfold Obligations.NopDiAndEi
  intro s
  exact ⟨⟨rfl, _, rfl, rfl⟩, ⟨rfl, _, rfl, rfl⟩, ⟨rfl, _, rfl, rfl⟩⟩

/-- Settles O53: the meaning of STOP does not read its second byte. -/
theorem stopStopsWhateverItsSecondByte : Obligations.StopStopsWhateverItsSecondByte := by
  unfold Obligations.StopStopsWhateverItsSecondByte
  intro s n
  exact ⟨opcode_imm8_eq 0x10 n, _, rfl, rfl⟩

/-! ### HALT (R1001) -/

/-- What makes HALT mark the bug instead of halting, and the two states it can leave. -/
theorem exec_halt (s : State) :
    exec .halt s = .next
      (if s.params.haltBug = true ∧ s.ime = false ∧ s.pending ≠ 0#5 then { CostOnly 1 s with haltBugPending := true }
        else { CostOnly 1 s with haltState := .halted }) := by
  have hcond : (s.params.haltBug && !s.ime && s.pending != 0#5) = true ↔
      s.params.haltBug = true ∧ s.ime = false ∧ s.pending ≠ 0#5 := by
    simp [and_assoc]
  show execHalt s = _
  simp only [execHalt, hcond, apply_ite Host.Outcome.next]
  rfl

/-- Settles O52: the two branches of `exec_halt`. -/
theorem haltHaltsOrMarksTheBug : Obligations.HaltHaltsOrMarksTheBug := by
  unfold Obligations.HaltHaltsOrMarksTheBug
  intro s
  exact ⟨rfl, _, exec_halt s, fun hbug => if_pos hbug, fun hno => if_neg hno⟩

/-! ### The illegal opcodes (R1006, R1104) -/

/-- Settles O54: the step runs the byte's own decoding, and the state it leaves has no step. -/
theorem anIllegalOpcodeLeavesTheFaultedState : Obligations.AnIllegalOpcodeLeavesTheFaultedState := by
  unfold Obligations.AnIllegalOpcodeLeavesTheFaultedState
  refine ⟨fun s op => ⟨by simp [encode], _, rfl, rfl⟩, fun s u hr hu hrun hd hbug hop => ?_⟩
  have hdec : decode (bytesAtPc u) = .ok (.illegal (u.peek u.pc), (bytesAtPc u).tail) :=
    decode_done (primary_illegal ((illegalByte_iff _).mp hop)) _
  exact ⟨_, aStepRunsTheDecodedInstruction s u _ _ hr hu hrun hd hbug hdec, rfl, aFaultedCpuHasNoStep _ _ _ rfl⟩

/-! ### The escape (R1005) -/

/-- Table `rot` on a register: the decoder's instruction means what the table says (R309). -/
theorem exec_rotR (r : Reg8) (s : State) : ∀ y, exec (rotR y r) s = execRotR y r s :=
  forall_bitVec3 rfl rfl rfl rfl rfl rfl rfl rfl

/-- Table `rot` on the byte at HL: the decoder's instruction means what the table says (R309). -/
theorem exec_rotHl (s : State) : ∀ y, exec (rotHl y) s = execRotHl y s :=
  forall_bitVec3 rfl rfl rfl rfl rfl rfl rfl rfl

/-- The instruction that the secondary table gives a byte does what the escape does with that byte (R303, R313). -/
theorem exec_secondary (op2 : Byte) (s : State) : exec (secondary op2) s = execSecondary op2 s := by
  unfold secondary execSecondary
  obtain hx | hx | hx | hx := bitVec2_cases (fieldX op2) <;> rw [hx] <;> cases r8Table (fieldZ op2)
  case inl.reg r => exact exec_rotR r s _
  case inl.hl => exact exec_rotHl s _
  all_goals rfl

/-- Settles O55: `exec_secondary` at the byte fetched, and every instruction answers. -/
theorem theEscapeRunsTheSecondaryInstruction : Obligations.TheEscapeRunsTheSecondaryInstruction := by
  unfold Obligations.TheEscapeRunsTheSecondaryInstruction
  intro s
  obtain ⟨t, ht⟩ := exec_answers .prefixCb s
  exact ⟨t, ht, (exec_secondary s.fetchByte s.fetched).trans ht⟩

end Sys2Proof.Machine
end

section
/-! SUPPORT. The interrupt controller (60_exceptions.md): the kinds in priority order, what a dispatch leaves, and what can
clear a request. -/

namespace Sys2Proof.Machine

open Sys2Proof Sys2Proof.Claims

/-! ### The kinds and their bits (R1106, R1108) -/

/-- The kinds in the order in which `pending()` is searched (R1109). -/
def Interrupt.byPriority : List Interrupt := [.vblank, .lcdStat, .timer, .serial, .joypad]

theorem Interrupt.mem_byPriority (k : Interrupt) : k ∈ Interrupt.byPriority := by
  cases k <;> decide

/-- The lower bit comes first. -/
theorem Interrupt.bit_rises : Interrupt.byPriority.Pairwise fun j k => j.bit < k.bit := by
  decide

theorem Interrupt.bit_lt (k : Interrupt) : k.bit < 5 := by
  cases k <;> decide

/-- A kind is found again at the place of its bit. -/
theorem Interrupt.bit_injective : Function.Injective Interrupt.bit :=
  Function.LeftInverse.injective (g := fun i => Interrupt.byPriority.getD i .vblank) fun k => by cases k <;> rfl

/-- Every bit of IF belongs to a kind. -/
theorem Interrupt.exists_bit_eq {i : Nat} (h : i < 5) : ∃ k : Interrupt, k.bit = i := by
  interval_cases i
  exacts [⟨.vblank, rfl⟩, ⟨.lcdStat, rfl⟩, ⟨.timer, rfl⟩, ⟨.serial, rfl⟩, ⟨.joypad, rfl⟩]

theorem Interrupt.vector_toNat (k : Interrupt) : k.vector.toNat = 0x40 + 8 * k.bit := by
  cases k <;> rfl

/-! ### The kind of highest priority (R1109) -/

section

variable {s : State} {k : Interrupt}

theorem State.getLsbD_pending (s : State) (k : Interrupt) :
    s.pending.getLsbD k.bit = (s.ie.getLsbD k.bit && s.iF.getLsbD k.bit) := by
  simp [State.pending, k.bit_lt]

/-- Nothing is pending exactly when no kind's bit is. -/
theorem State.pending_eq_zero_iff : s.pending = 0#5 ↔ ∀ k : Interrupt, s.pending.getLsbD k.bit = false := by
  refine ⟨fun h k => by simp [h], fun h => BitVec.eq_of_getLsbD_eq fun i hi => ?_⟩
  obtain ⟨k, rfl⟩ := Interrupt.exists_bit_eq hi
  simpa using h k

theorem State.highestPriority_eq_none_iff : s.highestPriority = none ↔ s.pending = 0#5 := by
  refine ⟨fun h => State.pending_eq_zero_iff.2 fun k => ?_, State.highestPriority_of_pending_zero⟩
  simpa using List.find?_eq_none.1 h k k.mem_byPriority

/-- The kind found is pending, and the kinds of lower bits, which stand before it, are not. -/
theorem State.lowest_of_highestPriority (h : s.highestPriority = some k) :
    s.pending.getLsbD k.bit = true ∧ ∀ j : Interrupt, j.bit < k.bit → s.pending.getLsbD j.bit = false := by
  obtain ⟨hk, before, after, hsplit, hbefore⟩ := List.find?_eq_some_iff_append.1 h
  refine ⟨hk, fun j hj => ?_⟩
  have hrises : (before ++ k :: after).Pairwise fun j k => j.bit < k.bit := hsplit ▸ Interrupt.bit_rises
  have hmem : j ∈ before ++ k :: after := hsplit ▸ j.mem_byPriority
  obtain hj' | hj' := List.mem_append.1 hmem
  · simpa using hbefore j hj'
  · obtain rfl | hj' := List.mem_cons.1 hj'
    · exact absurd hj (lt_irrefl _)
    · exact absurd hj (List.rel_of_pairwise_cons (List.pairwise_append.1 hrises).2.1 hj').not_gt

/-- The kind dispatched is that of the lowest pending bit: some kind is found, and no kind with a lower or a higher bit can
be it. -/
theorem State.highestPriority_eq_some_iff :
    s.highestPriority = some k ↔
      s.pending.getLsbD k.bit = true ∧ ∀ j : Interrupt, j.bit < k.bit → s.pending.getLsbD j.bit = false := by
  refine ⟨State.lowest_of_highestPriority, fun ⟨hk, hlower⟩ => ?_⟩
  cases hfound : s.highestPriority with
  | none => simp [State.highestPriority_eq_none_iff.1 hfound] at hk
  | some j =>
    obtain ⟨hj, hlower'⟩ := State.lowest_of_highestPriority hfound
    obtain hlt | heq | hgt := lt_trichotomy j.bit k.bit
    · simp [hlower j hlt] at hj
    · rw [Interrupt.bit_injective heq]
    · simp [hlower' k hgt] at hk

end

/-- Settles O11: the bits of the mask, and the search by priority. -/
theorem theHighestPriorityIsTheLowestPendingBit : Obligations.TheHighestPriorityIsTheLowestPendingBit := by
  unfold Obligations.TheHighestPriorityIsTheLowestPendingBit
  exact ⟨rfl, fun s => ⟨s.getLsbD_pending, State.highestPriority_eq_none_iff, fun k => State.highestPriority_eq_some_iff⟩⟩

/-! ### Dispatch (R1110, R1111) -/

/-- With interrupts enabled a running step dispatches the kind of highest priority. -/
theorem step_of_highestPriority {s : State} {k : Interrupt} (hr : s.resetDue = none)
    (hrun : s.envStep.haltState = .running) (hime : s.envStep.ime = true) (hk : s.envStep.highestPriority = some k) :
    step s = .next (s.envStep.dispatch k) := by
  rw [step_of_noReset hr, stepFrom_running hrun]
  simp only [runStep, hime, hk]

/-- Clearing a kind clears its bit and no other (R1107). -/
theorem State.getLsbD_clearRequest (s : State) (k j : Interrupt) :
    (s.clearRequest k).iF.getLsbD j.bit = (s.iF.getLsbD j.bit && decide (j ≠ k)) := by
  rw [State.clearRequest_iF, BitVec.getLsbD_and, BitVec.getLsbD_not, k.getLsbD_shiftLeft_bit j]
  simp [j.bit_lt]

/-- What a dispatch makes of the state `w` that the two stores of its push leave. -/
theorem State.dispatch_eq_of_stores {s w : State} (k : Interrupt)
    (hw : w = (s.write (s.sp - 1#16) (hiByte s.pc)).write (s.sp - 2#16) (loByte s.pc)) :
    s.dispatch k =
      { w.clearRequest k with
        sp := s.sp - 2#16, ime := false, imeDelay := false, pc := k.vector,
        stepCycles := 5, cycleTotal := s.cycleTotal + 5 } := by
  rw [s.dispatch_eq k, s.push16_eq s.pc, ← hw]
  rfl

theorem ne_ifAddr_of_plain {addr : Word} (h : (region addr).plain = true) : addr ≠ ifAddr := by
  rintro rfl
  exact absurd h (by decide)

/-- A store to plain memory touches neither mask. -/
theorem State.write_plain_masks (s : State) {addr : Word} (h : (region addr).plain = true) (v : Byte) :
    (s.write addr v).iF = s.iF ∧ (s.write addr v).ie = s.ie := by
  rw [State.write_plain h]
  exact ⟨rfl, rfl⟩

/-- Settles O12: the push of PC by `pushes_push16`, which the writes after it leave as it is, but for IF. -/
theorem dispatchPushesPcAndGoesToTheVector : Obligations.DispatchPushesPcAndGoesToTheVector := by
  unfold Obligations.DispatchPushesPcAndGoesToTheVector
  intro s u w k hr hu hrun hime hk hlower hw
  have hpush := pushes_push16 u.pc 5 u
  rw [u.push16_eq u.pc, ← hw] at hpush
  have hstep : step s = .next (u.dispatch k) := by
    subst hu
    exact step_of_highestPriority hr hrun hime (State.highestPriority_eq_some_iff.2 ⟨hk, hlower⟩)
  rw [State.dispatch_eq_of_stores k hw] at hstep
  have hbyte (n : Nat) {addr : Word} (h : addr ≠ ifAddr) :=
    State.byteAt_iF_congr (State.charge { w with sp := u.sp - 2#16 } 5) (w.clearRequest k).iF n h
  refine ⟨_, hstep, k.vector_toNat, rfl, rfl, rfl, hpush.rest.haltState.trans hrun, hpush.rest.haltBugPending,
    hpush.flags, fun r => hpush.rest.regs r (by simp), hpush.rest.params, hpush.rest.env, rfl, rfl,
    fun j => w.getLsbD_clearRequest k j, { BusIs.refl (w.clearRequest k) with },
    fun n other hhi hlo hne => (hbyte n hne).trans (hpush.others n other hhi hlo), fun hhi hlo => ?_⟩
  obtain ⟨hiF, hie⟩ := u.write_plain_masks hhi (hiByte u.pc)
  obtain ⟨hiF', hie'⟩ := State.write_plain_masks (u.write (u.sp - 1#16) (hiByte u.pc)) hlo (loByte u.pc)
  exact ⟨hw ▸ hiF'.trans hiF, hw ▸ hie'.trans hie, fun n =>
    ⟨(hbyte n (ne_ifAddr_of_plain hhi)).trans (hpush.high hhi hlo n),
      (hbyte n (ne_ifAddr_of_plain hlo)).trans (hpush.low hlo n)⟩⟩

/-! ### What clears a request (R1107) -/

/-- The environment's move clears no request. -/
theorem State.envStep_keeps_request {s : State} {k : Interrupt} (h : s.iF.getLsbD k.bit = true) :
    s.envStep.iF.getLsbD k.bit = true := by
  unfold State.envStep
  split
  · exact h
  · next m rest _ =>
    obtain ⟨-, hbit, -⟩ := environmentMovesTouchOnlyIfAndIoCells { s with env := rest } _ m rfl
    simp [hbit k, h]

/-- Every instruction that a step fetches is well-formed: the three bytes it may read decode. -/
theorem State.fetchInstr_wellFormed (s : State) : s.fetchInstr.1.wellFormed = true := by
  obtain ⟨i, hdec, hw⟩ := anyThreeBytesDecodeAtTheLengthOfTheFirst s.fetchByte s.opcodeFetched.fetchByte
    s.opcodeFetched.fetched.fetchByte
  rw [State.fetchInstr_of_decode hdec]
  exact hw

/-- The delayed enable and the fetch leave IF. -/
theorem State.fetchInstr_enableDelayed_iF (s : State) : s.enableDelayed.fetchInstr.2.iF = s.iF := by
  obtain ⟨_, _, hf⟩ := s.enableDelayed.fetchInstr_shape
  rw [hf, s.enableDelayed_eq]

/-- A step that no reset event takes clears a request by a dispatch or by an instruction that stores. -/
theorem StepRuns.request_cleared {s t : State} {k : Interrupt} (ht : StepRuns s t) (hs : s.iF.getLsbD k.bit = true)
    (hc : t.iF.getLsbD k.bit = false) :
    (s.envStep.ime = true ∧ s.envStep.pending ≠ 0#5 ∧ t.stepCycles = 5) ∨
      .memory ∈ writes ({ s.envStep with haltState := .running } : State).enableDelayed.fetchInstr.1 := by
  have hkept : t.iF ≠ s.envStep.iF := fun he => by simp [he, State.envStep_keeps_request hs] at hc
  obtain ⟨-, -, rfl⟩ | ⟨-, -, rfl⟩ | ⟨u, rfl, ⟨j, hime, hj, rfl⟩ | ⟨-, hexec⟩⟩ := ht
  · exact absurd rfl hkept
  · exact absurd rfl hkept
  · refine .inl ⟨hime, fun hp => ?_, rfl⟩
    exact absurd (hj.symm.trans (State.highestPriority_of_pending_zero hp)) (by simp)
  · refine .inr (by_contra fun hm => hkept ?_)
    have hbus := onlyStoringInstructionsChangeMemory _ _ t (State.fetchInstr_wellFormed _) hm hexec
    exact hbus.iF.trans (State.fetchInstr_enableDelayed_iF _)

/-- Settles O60: the reset event, or a step that runs. -/
theorem onlyDispatchAndStoresClearARequest : Obligations.OnlyDispatchAndStoresClearARequest := by
  unfold Obligations.OnlyDispatchAndStoresClearARequest
  intro s t k hstep hs hc
  obtain ⟨r, hr, -⟩ | ⟨-, hruns⟩ := step_cases hstep
  · exact .inl ⟨r, hr⟩
  · exact .inr (hruns.request_cleared hs hc)

end Sys2Proof.Machine
end
